-- ==== Sys2Proof/Word.lean ====
section
/-! DEFINITION. The word types of the block: bytes, the 16, 32 and 64 bit registers, and the signed datapath value. -/

namespace Sys2Proof

/-- A byte of IN, OUT or SCAN, a marker code, a symbol (00 R11). -/
abbrev Byte := BitVec 8

/-- A u16 register or a 16-bit codestream field, and a 16-bit lookup index (00 R12). -/
abbrev Half := BitVec 16

/-- A host register, `REG_WIDTH` = 32 bits (00 R10). -/
abbrev Word := BitVec 32

/-- A signed datapath value, `DP_WIDTH` = 64 bits, two's complement (10 R120). -/
abbrev S64 := BitVec 64

end Sys2Proof
end

