-- ==== Sys2Proof/Syntax.lean ====
section
/-! DEFINITION. The instructions: one constructor for each mnemonic of spec/opcode_table.json (its rows that share a
mnemonic differ in the operand the constructor carries). -/

namespace Sys2Proof

/-- One item of a codestream or one host command.

* Container markers (30 R340): the payload of a segment is not an operand here; the meaning reads it from IN field by
  field, since every field read can fail (42 R425).
* Entropy symbols (30 R341, R342): the extra bits are read by the meaning, since that read can fail (41 R401).
* `hostStart v` is the host's write of `v` to CTRL with bit 0 set (48 R750). -/
inductive Instr where
  | soi
  | appn (n : BitVec 4)
  | com
  | dqt
  | dht
  | sof0
  | sos
  | eoi
  | unsupSof1to3 (m : Byte)
  | unsupSof5to7 (m : Byte)
  | unsupSof9to11 (m : Byte)
  | unsupSof13to15 (m : Byte)
  | unsupDac
  | unsupRst (n : BitVec 3)
  | unsupDnl
  | unsupDri
  | unsupDhp
  | unsupExp
  | unsupTem
  | unknown00
  | unknownRes (m : Byte)
  | unknownJpg
  | unknownJpgn (m : Byte)
  | unknownFill
  | scanStuff
  | dcZero
  | dcDiff (s : Byte)
  | dcInvalid (s : Byte)
  | eob
  | zrl
  | acBadzero (r : BitVec 4)
  | acCoef (r s : BitVec 4)
  | acBadsize (r s : BitVec 4)
  | hostStart (v : Word)
deriving DecidableEq, Repr

end Sys2Proof
end

