-- ==== Sys2Proof/WellFormed.lean ====
section
/-! DEFINITION. Which terms of `Instr` stand for an encoding: each operand in the range its opcode-table rows give it. -/

namespace Sys2Proof

/-- The operand ranges of 30 R340, R341, R342 and of the HOST_START row (CTRL bit 0 set). -/
def Instr.wf : Instr → Bool
  | .unsupSof1to3 m => 0xC1#8 ≤ m && m ≤ 0xC3#8
  | .unsupSof5to7 m => 0xC5#8 ≤ m && m ≤ 0xC7#8
  | .unsupSof9to11 m => 0xC9#8 ≤ m && m ≤ 0xCB#8
  | .unsupSof13to15 m => 0xCD#8 ≤ m && m ≤ 0xCF#8
  | .unknownRes m => 0x02#8 ≤ m && m ≤ 0xBF#8
  | .unknownJpgn m => 0xF0#8 ≤ m && m ≤ 0xFD#8
  | .dcDiff s => 1#8 ≤ s && s ≤ 11#8
  | .dcInvalid s => 12#8 ≤ s
  | .acBadzero r => 1#4 ≤ r && r ≤ 14#4
  | .acCoef _ s => 1#4 ≤ s && s ≤ 10#4
  | .acBadsize _ s => 11#4 ≤ s
  | .hostStart v => v.getLsbD 0
  | .soi | .appn _ | .com | .dqt | .dht | .sof0 | .sos | .eoi
  | .unsupDac | .unsupRst _ | .unsupDnl | .unsupDri | .unsupDhp | .unsupExp | .unsupTem
  | .unknown00 | .unknownJpg | .unknownFill
  | .scanStuff | .dcZero | .eob | .zrl => true

end Sys2Proof
end

