-- ==== Sys2Proof/Decode.lean ====
section
/-! DEFINITION. The decoder, from the rows of spec/opcode_table.json, and after it the encoder. The table has formats
that are read in different contexts (INDEX.md), so a code word carries its context. -/

namespace Sys2Proof

/-- A word together with the context it is read in (the "format" of the opcode table).
`marker w`: the bytes `FF M` at a segment boundary, read as one big-endian word (30 R300).
`scanPair w`: two bytes inside the entropy-coded segment (30 R307).
`dcSymbol b`, `acSymbol b`: the byte a Huffman code decodes to (30 R341, R342).
`hostWrite off v`: a host register write (10 R125). -/
inductive Code where
  | marker (w : Half)
  | scanPair (w : Half)
  | dcSymbol (b : Byte)
  | acSymbol (b : Byte)
  | hostWrite (off : Nat) (v : Word)
deriving DecidableEq, Repr

/-- Why a code word is no instruction.
`notALeadByte`: the high byte of a marker word is not 0xFF (42 R429).
`notStuffed`: the byte pair is not `FF 00`, so it is scan data or the end of the scan (42 R450).
`notAStart`: the host write is not a write of 1 to CTRL.START (48 R750).
`noRow`: no row of the table matches (no word of a marker, DC or AC context is ever rejected so). -/
inductive Reject where
  | notALeadByte
  | notStuffed
  | notAStart
  | noRow
deriving DecidableEq, Repr

/-- One row of the opcode table: it matches `w` when `w` masked is the pattern, and then reads `w` as an instruction. -/
structure Row (n : Nat) where
  mask : BitVec n
  pat : BitVec n
  read : BitVec n → Instr

/-- Does the row match the word. -/
def Row.hits {n : Nat} (r : Row n) (w : BitVec n) : Bool := (w &&& r.mask) == r.pat

/-- The instruction that the first matching row reads. -/
def readRows {n : Nat} (rows : List (Row n)) (w : BitVec n) : Option Instr :=
  (rows.find? (·.hits w)).map (·.read w)

/-- Bits `hi:lo` of a word as a field of its own width (00 R11). -/
def field {n : Nat} (hi lo : Nat) (w : BitVec n) : BitVec (hi - lo + 1) := w.extractLsb hi lo

/-- The rows of the accepted markers (30 R340). -/
def acceptedRows : List (Row 16) := [
  ⟨0xFFFF, 0xFFD8, fun _ => .soi⟩,
  ⟨0xFFF0, 0xFFE0, fun w => .appn (field 3 0 w)⟩,
  ⟨0xFFFF, 0xFFFE, fun _ => .com⟩,
  ⟨0xFFFF, 0xFFDB, fun _ => .dqt⟩,
  ⟨0xFFFF, 0xFFC4, fun _ => .dht⟩,
  ⟨0xFFFF, 0xFFC0, fun _ => .sof0⟩,
  ⟨0xFFFF, 0xFFDA, fun _ => .sos⟩,
  ⟨0xFFFF, 0xFFD9, fun _ => .eoi⟩]

/-- The rows of the unsupported markers (42 R454). -/
def unsupportedRows : List (Row 16) := [
  ⟨0xFFFF, 0xFFC1, fun w => .unsupSof1to3 (field 7 0 w)⟩,
  ⟨0xFFFE, 0xFFC2, fun w => .unsupSof1to3 (field 7 0 w)⟩,
  ⟨0xFFFF, 0xFFC5, fun w => .unsupSof5to7 (field 7 0 w)⟩,
  ⟨0xFFFE, 0xFFC6, fun w => .unsupSof5to7 (field 7 0 w)⟩,
  ⟨0xFFFF, 0xFFC9, fun w => .unsupSof9to11 (field 7 0 w)⟩,
  ⟨0xFFFE, 0xFFCA, fun w => .unsupSof9to11 (field 7 0 w)⟩,
  ⟨0xFFFF, 0xFFCD, fun w => .unsupSof13to15 (field 7 0 w)⟩,
  ⟨0xFFFE, 0xFFCE, fun w => .unsupSof13to15 (field 7 0 w)⟩,
  ⟨0xFFFF, 0xFFCC, fun _ => .unsupDac⟩,
  ⟨0xFFF8, 0xFFD0, fun w => .unsupRst (field 2 0 w)⟩,
  ⟨0xFFFF, 0xFFDC, fun _ => .unsupDnl⟩,
  ⟨0xFFFF, 0xFFDD, fun _ => .unsupDri⟩,
  ⟨0xFFFF, 0xFFDE, fun _ => .unsupDhp⟩,
  ⟨0xFFFF, 0xFFDF, fun _ => .unsupExp⟩,
  ⟨0xFFFF, 0xFF01, fun _ => .unsupTem⟩]

/-- The rows of the unknown markers (42 R455). -/
def unknownRows : List (Row 16) := [
  ⟨0xFFFF, 0xFF00, fun _ => .unknown00⟩,
  ⟨0xFFFE, 0xFF02, fun w => .unknownRes (field 7 0 w)⟩,
  ⟨0xFFFC, 0xFF04, fun w => .unknownRes (field 7 0 w)⟩,
  ⟨0xFFF8, 0xFF08, fun w => .unknownRes (field 7 0 w)⟩,
  ⟨0xFFF0, 0xFF10, fun w => .unknownRes (field 7 0 w)⟩,
  ⟨0xFFE0, 0xFF20, fun w => .unknownRes (field 7 0 w)⟩,
  ⟨0xFFC0, 0xFF40, fun w => .unknownRes (field 7 0 w)⟩,
  ⟨0xFFC0, 0xFF80, fun w => .unknownRes (field 7 0 w)⟩,
  ⟨0xFFFF, 0xFFC8, fun _ => .unknownJpg⟩,
  ⟨0xFFF8, 0xFFF0, fun w => .unknownJpgn (field 7 0 w)⟩,
  ⟨0xFFFC, 0xFFF8, fun w => .unknownJpgn (field 7 0 w)⟩,
  ⟨0xFFFE, 0xFFFC, fun w => .unknownJpgn (field 7 0 w)⟩,
  ⟨0xFFFF, 0xFFFF, fun _ => .unknownFill⟩]

/-- Every row of the marker context. -/
def markerRows : List (Row 16) := acceptedRows ++ unsupportedRows ++ unknownRows

/-- The row of the scan byte pair (42 R450). -/
def scanRows : List (Row 16) := [⟨0xFFFF, 0xFF00, fun _ => .scanStuff⟩]

/-- The rows of a DC symbol (30 R341). -/
def dcRows : List (Row 8) := [
  ⟨0xFF, 0x00, fun _ => .dcZero⟩,
  ⟨0xFF, 0x01, .dcDiff⟩, ⟨0xFE, 0x02, .dcDiff⟩, ⟨0xFC, 0x04, .dcDiff⟩, ⟨0xFC, 0x08, .dcDiff⟩,
  ⟨0xFC, 0x0C, .dcInvalid⟩, ⟨0xF0, 0x10, .dcInvalid⟩, ⟨0xE0, 0x20, .dcInvalid⟩,
  ⟨0xC0, 0x40, .dcInvalid⟩, ⟨0x80, 0x80, .dcInvalid⟩]

/-- The rows of an AC symbol RS: run in bits 7:4, size in bits 3:0 (30 R309, R342). -/
def acRows : List (Row 8) := [
  ⟨0xFF, 0x00, fun _ => .eob⟩,
  ⟨0xFF, 0xF0, fun _ => .zrl⟩,
  ⟨0xFF, 0x10, fun b => .acBadzero (field 7 4 b)⟩, ⟨0xEF, 0x20, fun b => .acBadzero (field 7 4 b)⟩,
  ⟨0xCF, 0x40, fun b => .acBadzero (field 7 4 b)⟩, ⟨0xCF, 0x80, fun b => .acBadzero (field 7 4 b)⟩,
  ⟨0xEF, 0xC0, fun b => .acBadzero (field 7 4 b)⟩, ⟨0xFF, 0xE0, fun b => .acBadzero (field 7 4 b)⟩,
  ⟨0x0F, 0x01, fun b => .acCoef (field 7 4 b) (field 3 0 b)⟩,
  ⟨0x0E, 0x02, fun b => .acCoef (field 7 4 b) (field 3 0 b)⟩,
  ⟨0x0C, 0x04, fun b => .acCoef (field 7 4 b) (field 3 0 b)⟩,
  ⟨0x0E, 0x08, fun b => .acCoef (field 7 4 b) (field 3 0 b)⟩,
  ⟨0x0F, 0x0A, fun b => .acCoef (field 7 4 b) (field 3 0 b)⟩,
  ⟨0x0F, 0x0B, fun b => .acBadsize (field 7 4 b) (field 3 0 b)⟩,
  ⟨0x0C, 0x0C, fun b => .acBadsize (field 7 4 b) (field 3 0 b)⟩]

/-- The HOST_START row: CTRL bit 0 set (48 R750). -/
def hostRows : List (Row 32) := [⟨0x00000001, 0x00000001, .hostStart⟩]

/-- A row's answer, or the rejection by name. -/
def orReject (why : Reject) : Option Instr → Except Reject Instr
  | some i => .ok i
  | none => .error why

/-- The offset of CTRL (10 R126). -/
def ctrlOffset : Nat := 0x00

/-- The decoder: total on every code word, rejecting by name. -/
def decode : Code → Except Reject Instr
  | .marker w => if field 15 8 w = 0xFF#8 then orReject .noRow (readRows markerRows w) else .error .notALeadByte
  | .scanPair w => orReject .notStuffed (readRows scanRows w)
  | .dcSymbol b => orReject .noRow (readRows dcRows b)
  | .acSymbol b => orReject .noRow (readRows acRows b)
  | .hostWrite off v =>
    if off = ctrlOffset then orReject .notAStart (readRows hostRows v) else .error .notAStart

/-- A marker word from its lead byte and its code byte, the lead byte being the more significant (30 R300). -/
def markerWord (lead m : Byte) : Half := lead ++ m

/-- An AC symbol byte from its run and size nibbles (30 R309). -/
def acByte (r s : BitVec 4) : Byte := r ++ s

/-- The encoder, from the same tables. -/
def encode : Instr → Code
  | .soi => .marker (markerWord 0xFF 0xD8)
  | .appn n => .marker (markerWord 0xFF (0xE#4 ++ n))
  | .com => .marker (markerWord 0xFF 0xFE)
  | .dqt => .marker (markerWord 0xFF 0xDB)
  | .dht => .marker (markerWord 0xFF 0xC4)
  | .sof0 => .marker (markerWord 0xFF 0xC0)
  | .sos => .marker (markerWord 0xFF 0xDA)
  | .eoi => .marker (markerWord 0xFF 0xD9)
  | .unsupSof1to3 m => .marker (markerWord 0xFF m)
  | .unsupSof5to7 m => .marker (markerWord 0xFF m)
  | .unsupSof9to11 m => .marker (markerWord 0xFF m)
  | .unsupSof13to15 m => .marker (markerWord 0xFF m)
  | .unsupDac => .marker (markerWord 0xFF 0xCC)
  | .unsupRst n => .marker (markerWord 0xFF (0x1A#5 ++ n))
  | .unsupDnl => .marker (markerWord 0xFF 0xDC)
  | .unsupDri => .marker (markerWord 0xFF 0xDD)
  | .unsupDhp => .marker (markerWord 0xFF 0xDE)
  | .unsupExp => .marker (markerWord 0xFF 0xDF)
  | .unsupTem => .marker (markerWord 0xFF 0x01)
  | .unknown00 => .marker (markerWord 0xFF 0x00)
  | .unknownRes m => .marker (markerWord 0xFF m)
  | .unknownJpg => .marker (markerWord 0xFF 0xC8)
  | .unknownJpgn m => .marker (markerWord 0xFF m)
  | .unknownFill => .marker (markerWord 0xFF 0xFF)
  | .scanStuff => .scanPair (markerWord 0xFF 0x00)
  | .dcZero => .dcSymbol 0x00
  | .dcDiff s => .dcSymbol s
  | .dcInvalid s => .dcSymbol s
  | .eob => .acSymbol 0x00
  | .zrl => .acSymbol 0xF0
  | .acBadzero r => .acSymbol (acByte r 0)
  | .acCoef r s => .acSymbol (acByte r s)
  | .acBadsize r s => .acSymbol (acByte r s)
  | .hostStart v => .hostWrite ctrlOffset v

/-- The context in which the host's probe reads a table row of `nbits` bits: 16 bits as a marker, 8 bits as an AC symbol,
32 bits as a write of CTRL. DESIGN CHOICE (log 10): the table's formats overlap, so `FF 00` is read as a marker (not as
SCAN_STUFF) and a byte as an AC symbol (not as a DC symbol). -/
def tableCode (nbits w : Nat) : Option Code :=
  match nbits with
  | 16 => some (.marker (BitVec.ofNat 16 w))
  | 8 => some (.acSymbol (BitVec.ofNat 8 w))
  | 32 => some (.hostWrite ctrlOffset (BitVec.ofNat 32 w))
  | _ => none

/-- The instruction the decoder reads from a table word. -/
def decodeTableWord (nbits w : Nat) : Option Instr :=
  match tableCode nbits w with
  | some c => (decode c).toOption
  | none => none

end Sys2Proof
end

