-- ==== Sys2Proof/Config.lean ====
section
/-! DEFINITION. The parameters the spec leaves open (00 R10, 20 R214, 92 section 2), as plain data a machine carries. -/

namespace Sys2Proof

/-- The open parameters of one machine. They never change during a run.
DESIGN CHOICE (log 3): they stand in `State` as constants, so every statement about all states holds for all of them. -/
structure Params where
  /-- `IN_MEM_BYTES`, the capacity of IN. -/
  inMemBytes : Nat
  /-- `OUT_MEM_BYTES`, the capacity of OUT. -/
  outMemBytes : Nat
  /-- `REG_BASE`, the host address of the register space (20 R214). -/
  regBase : Nat
  /-- `IN_BASE`, the host address of IN (20 R214). -/
  inBase : Nat
  /-- `OUT_BASE`, the host address of OUT (20 R214). -/
  outBase : Nat
deriving DecidableEq, Repr

/-- `SCAN_MEM_BYTES = IN_MEM_BYTES + 2`, derived, not free (00 R10). -/
def Params.scanMemBytes (p : Params) : Nat := p.inMemBytes + 2

/-- The register space is 256 bytes (10 R135, 20 R200). -/
def regSpaceBytes : Nat := 0x100

/-- Two windows of a host address map do not overlap. -/
abbrev windowsApart (a na b nb : Nat) : Prop := a + na ≤ b ∨ b + nb ≤ a

/-- The constraints on the parameters: the capacities of 00 R10 and the three windows apart (20 R214). -/
abbrev Params.wf (p : Params) : Prop :=
  2 ≤ p.inMemBytes ∧ p.inMemBytes ≤ 2 ^ 32 - 3 ∧
  768 ≤ p.outMemBytes ∧ p.outMemBytes ≤ 2 ^ 64 - 1 ∧
  windowsApart p.regBase regSpaceBytes p.inBase p.inMemBytes ∧
  windowsApart p.regBase regSpaceBytes p.outBase p.outMemBytes ∧
  windowsApart p.inBase p.inMemBytes p.outBase p.outMemBytes

/-- The capacities that 95 section 1 uses for its vectors, with three disjoint windows.
DESIGN CHOICE (log 3): the spec leaves every one of these open. -/
def Params.reference : Params where
  inMemBytes := 65536
  outMemBytes := 1048576
  regBase := 0
  inBase := 0x10000
  outBase := 0x100000

end Sys2Proof
end

