-- ==== Sys2Proof/Machine/State.lean ====
section
/-! DEFINITION. The state of the block as plain data (10 R100), the reasons a step can stop, and the state after reset
(10 R140, 70 R900). -/

namespace Sys2Proof.Machine

/-- A byte memory: (offset, byte) pairs, offsets strictly rising, no listed byte equal to what an unlisted offset reads
as (log 1). -/
abbrev Memory := List Host.Cell

/-- `PHASE` (10 R102). -/
inductive Phase where
  | idle | parse | decode | done | error
deriving DecidableEq, Repr

/-- The error kinds (60 R801). -/
inductive ErrKind where
  | malformedContainer | unsupportedFeature | unknownMarker | corruptBitstream | resourceLimit
deriving DecidableEq, Repr

/-- The host-visible registers that are stored (10 R126 to R134). CTRL.START reads 0 and STATUS is a view of `PHASE`. -/
structure HostRegs where
  /-- `CTRL.BGR` -/
  ctrlBgr : Bool
  /-- `IN_LEN` -/
  inLen : Word
  /-- `WIDTH` -/
  width : Half
  /-- `HEIGHT` -/
  height : Half
  /-- `STRIDE` -/
  stride : Word
  /-- `OUT_LEN`, 64 bits in two registers -/
  outLen : BitVec 64
deriving DecidableEq, Repr

/-- The error record (10 R129, R131, R132). -/
structure ErrRecord where
  /-- `ERR_CODE` bits 2:0 -/
  code : BitVec 3
  /-- `ERR_OFFSET` -/
  offset : Word
  /-- `ERR_MARKER` bits 7:0 -/
  marker : Byte
  /-- `ERR_TABLE`: bit 8 valid, bits 7:0 the table byte -/
  table : BitVec 9
deriving DecidableEq, Repr

/-- Frame header registers `FH_*` (10 R105). -/
structure FrameHeader where
  p : Byte
  y : Half
  x : Half
  nf : Byte
  c : Vector Byte 3
  hv : Vector Byte 3
  tq : Vector Byte 3
deriving DecidableEq, Repr

/-- Scan header registers `SH_*` (10 R106). -/
structure ScanHeader where
  ns : Byte
  cs : Vector Byte 3
  tda : Vector Byte 3
  ss : Byte
  se : Byte
  ahal : Byte
deriving DecidableEq, Repr

/-- One quantization slot: 64 values in natural order (10 R107). -/
abbrev QuantSlot := Vector Byte 64

/-- `QT` and `QT_VALID` (10 R107). -/
structure QuantStore where
  vals : Vector QuantSlot 4
  valid : Vector Bool 4
deriving DecidableEq, Repr

/-- One fill of a lookup table (43 R500): the entries `base .. base + 2^(16 - len) - 1` hold `(len, sym)`. -/
structure Fill where
  base : Nat
  len : Nat
  sym : Byte
deriving DecidableEq, Repr

/-- A 65536-entry lookup table `HT[tc][th]` (10 R108), held as the fills made since it was cleared, newest first;
an entry that no fill covers is unpopulated (log 12). -/
abbrev HuffTable := List Fill

/-- The four lookup tables (10 R108). -/
structure HuffStore where
  dc0 : HuffTable
  dc1 : HuffTable
  ac0 : HuffTable
  ac1 : HuffTable
deriving DecidableEq, Repr

/-- The BitReader `BR_ACC`, `BR_CNT`, `BR_POS` (10 R110); `cnt` is 0..23 (log 21). -/
structure BitReader where
  acc : Word
  cnt : Nat
  pos : Word
deriving DecidableEq, Repr

/-- One block buffer: 64 signed values in natural order (10 R112). -/
abbrev Block := Vector S64 64

/-- The sequencer `MCU_COLS`, `MCU_ROWS`, `MCU_X`, `MCU_Y` (10 R113). -/
structure Sequencer where
  cols : Half
  rows : Half
  x : Half
  y : Half
deriving DecidableEq, Repr

/-- MODEL's own (log 4): the block being decoded and its spectral index `k`, the locals of 44 R550 and 48 R702.
`k = 0`: the DC item is next; `1 ≤ k < 64`: an AC item is next; `k = 64`: the block is complete. Between two steps of the
machine it is at its start. -/
structure Item where
  blk : Fin 6
  k : Nat
deriving DecidableEq, Repr

/-- A move of the host (70 R920), or its yielding the turn to the engine (70 R927).
`engine`: the engine, where it has a step, takes one before the next move (log 5).
`writeReg`, `readReg`: an aligned 32-bit register access (H3 to H7, H10, H11).
`writeIn`, `readIn`: a byte of IN (H1, H2). `writeOut`, `readOut`: a byte of OUT (H9, H8).
`reset`: the reset input is asserted (H12). -/
inductive HostMove where
  | engine
  | writeReg (off : Nat) (v : Word)
  | readReg (off : Nat)
  | writeIn (off : Nat) (b : Byte)
  | readIn (off : Nat)
  | writeOut (off : Nat) (b : Byte)
  | readOut (off : Nat)
  | reset
deriving DecidableEq, Repr

/-- The state of the block (10 R100), with the parameters (log 3) and the model's own fields (logs 4, 5, 9). -/
structure State where
  params : Params
  regs : HostRegs
  err : ErrRecord
  phase : Phase
  pc : Word
  seenSoi : Bool
  seenSof : Bool
  scanDone : Bool
  inLenL : Word
  bgrL : Bool
  fh : FrameHeader
  sh : ScanHeader
  qt : QuantStore
  ht : HuffStore
  scan : Memory
  scanLen : Word
  br : BitReader
  pred : Vector S64 3
  blk : Vector Block 6
  seq : Sequencer
  inMem : Memory
  outMem : Memory
  item : Item
  hostMoves : List HostMove
  rdata : Word
deriving DecidableEq, Repr

/-- Accesses that 70 R924 says the block may not make. Each is SAFE: the model stops where no behaviour is described, and
no rule of the spec attempts one in a state a run reaches (log 8, Safety.lean). -/
inductive Fault where
  /-- Raised by `memRead`: a read of IN at or beyond `IN_LEN_L` (00 R14, 70 R924). Safe. -/
  | inReadBeyondLength
  /-- Raised by `memWrite`: a write of OUT at or beyond `OUT_LEN` or `OUT_MEM_BYTES` (00 R14, 70 R924). Safe. -/
  | outWriteBeyondLength
  /-- Raised by `scanRead`: a read of SCAN at or beyond `SCAN_LEN` (00 R14, 70 R924). Safe. -/
  | scanReadBeyondLength
  /-- Raised by `scanAppend`: an append at or beyond `SCAN_MEM_BYTES`, where SCAN has no byte (20 R200, R203). Safe. -/
  | scanAppendBeyondCapacity
  /-- Raised by `dequantize`: `FH_TQ` names a slot above 3, which does not exist (10 R107). Safe. -/
  | quantSlotAbsent
deriving DecidableEq, Repr

/-- Where the machine has no step: host moves that the interface does not have (70 R922, R925, R926), an engine with no
enabled step (48 R709), and an instruction without a meaning. -/
inductive Refusal where
  /-- Raised by `exec`'s arm of an instruction that has no meaning yet. Safe. -/
  | notModelled (mnemonic : String)
  /-- Raised by a host move that reads or writes IN or OUT while BUSY (70 R922). Safe. -/
  | hostAccessWhileBusy
  /-- Raised by a host register access that is not aligned or at offset 0x100 or above (70 R925). Safe. -/
  | registerAccessOutsideInterface
  /-- Raised by a host access to IN or OUT at or beyond its capacity (70 R925). Safe. -/
  | memoryAccessOutsideInterface
  /-- Raised by `engineStep`: no host move is pending and the engine has no enabled step, in IDLE, DONE and ERROR (48 R709,
  log 6). Safe. -/
  | noStepEnabled
deriving DecidableEq, Repr

/-- Every host register 0 (10 R140). -/
def HostRegs.zero : HostRegs := ⟨false, 0, 0, 0, 0, 0⟩

/-- The cleared error record (10 R140, 48 R750). -/
def ErrRecord.zero : ErrRecord := ⟨0, 0, 0, 0⟩

/-- Three zero bytes. -/
def zero3 : Vector Byte 3 := #v[0, 0, 0]

/-- `FH_* = 0` (10 R140). -/
def FrameHeader.zero : FrameHeader := ⟨0, 0, 0, 0, zero3, zero3, zero3⟩

/-- `SH_* = 0` (10 R140). -/
def ScanHeader.zero : ScanHeader := ⟨0, zero3, zero3, 0, 0, 0⟩

/-- A quantization slot of zeros. -/
def QuantSlot.zero : QuantSlot := Vector.replicate 64 0

/-- `QT[t][i] = 0`, `QT_VALID[t] = 0` (10 R140). -/
def QuantStore.zero : QuantStore := ⟨Vector.replicate 4 QuantSlot.zero, Vector.replicate 4 false⟩

/-- Every lookup table unpopulated (10 R140). -/
def HuffStore.zero : HuffStore := ⟨[], [], [], []⟩

/-- `BR_ACC = BR_CNT = BR_POS = 0` (10 R140, 48 R701). -/
def BitReader.zero : BitReader := ⟨0, 0, 0⟩

/-- `PRED[c] = 0` (10 R140, 48 R701). -/
def predZero : Vector S64 3 := #v[0, 0, 0]

/-- The block buffers at reset. DESIGN CHOICE (log 2): the spec leaves them unspecified; the model takes 0. -/
def blkAtReset : Vector Block 6 := Vector.replicate 6 (Vector.replicate 64 0)

/-- `MCU_COLS`, `MCU_ROWS`, `MCU_X`, `MCU_Y` = 0 (10 R140). -/
def Sequencer.zero : Sequencer := ⟨0, 0, 0, 0⟩

/-- No block in progress. -/
def Item.start : Item := ⟨0, 0⟩

/-- The state after reset of a machine with parameters `p` (10 R140, 70 R900). The memories list nothing (log 1). -/
def State.resetWith (p : Params) : State where
  params := p
  regs := .zero
  err := .zero
  phase := .idle
  pc := 0
  seenSoi := false
  seenSof := false
  scanDone := false
  inLenL := 0
  bgrL := false
  fh := .zero
  sh := .zero
  qt := .zero
  ht := .zero
  scan := []
  scanLen := 0
  br := .zero
  pred := predZero
  blk := blkAtReset
  seq := .zero
  inMem := []
  outMem := []
  item := .start
  hostMoves := []
  rdata := 0

/-- The machine right after reset (10 R140), with the reference parameters (log 3). -/
def State.reset : State := .resetWith .reference

end Sys2Proof.Machine
end

