-- ==== Sys2Proof/Machine/Ops.lean ====
section
/-! DEFINITION. The shared operations: sequencing, the memories, raising an error (60 R802), and START, the one way out of
ERROR (60 R807, 48 R750). -/

namespace Sys2Proof.Machine

/-! ## Sequencing a rule's pseudocode -/

/-- What part of a rule's pseudocode does: go on with a value and a state, end at a `raise` (the state already records the
error, 00 R15), or attempt an access the block may not make. -/
inductive Eff (α : Type) where
  | ok (a : α) (s : State)
  | raised (s : State)
  | stop (f : Fault)

/-- Do `e`, then `f` with its value; nothing runs after a raise (00 R15). -/
def Eff.bind {α β : Type} (e : Eff α) (f : α → State → Eff β) : Eff β :=
  match e with
  | .ok a s => f a s
  | .raised s => .raised s
  | .stop r => .stop r

/-- The end of an instruction: a raise is a next state too (60 R802). -/
def Eff.outcome (e : Eff Unit) : Host.Outcome State Fault Refusal :=
  match e with
  | .ok _ s => .next s
  | .raised s => .next s
  | .stop r => .fault r

/-- `for x in xs: body(x)`. -/
def Eff.forEach {ι : Type} (body : ι → State → Eff Unit) : List ι → State → Eff Unit
  | [], s => .ok () s
  | x :: xs, s => (body x s).bind fun _ s => Eff.forEach body xs s

/-! ## The byte memories -/

/-- What an offset that is not listed reads as. DESIGN CHOICE, unsafe (log 1): the spec leaves IN, OUT and SCAN
unspecified at reset (10 R140). -/
def unlistedByte : Byte := 0

/-- The byte at an offset. -/
def Memory.read : Memory → Nat → Byte
  | [], _ => unlistedByte
  | (k, v) :: m, a => if k = a then v else Memory.read m a

/-- The memory that lists `(a, v)` before `m`, unless `v` is what an unlisted offset reads as. -/
def Memory.put (a : Nat) (v : Byte) (m : Memory) : Memory :=
  if v = unlistedByte then m else (a, v) :: m

/-- Write the byte `v` at offset `a`, keeping the canonical form. -/
def Memory.write : Memory → Nat → Byte → Memory
  | [], a, v => Memory.put a v []
  | (k, x) :: m, a, v =>
    if a < k then Memory.put a v ((k, x) :: m)
    else if a = k then Memory.put a v m
    else (k, x) :: Memory.write m a v

/-- The canonical form: offsets strictly rising, no listed byte equal to `unlistedByte`. -/
abbrev Memory.wf (m : Memory) : Prop :=
  m.Pairwise (fun c d => c.1 < d.1) ∧ ∀ c ∈ m, c.2 ≠ unlistedByte

/-- Every listed offset is below the capacity `n`. -/
abbrev Memory.below (n : Nat) (m : Memory) : Prop := ∀ c ∈ m, c.1 < n

/-- The `n` bytes from offset `a` as one big-endian number (20 R204). -/
def Memory.readBE (m : Memory) (a : Nat) : Nat → Nat
  | 0 => 0
  | n + 1 => m.readBE a n * 256 + (m.read (a + n)).toNat

/-- `MemRead(addr, n)` on IN (00 R14): made only below `IN_LEN_L`. -/
def memRead (a n : Nat) (s : State) : Eff Nat :=
  if a + n ≤ s.inLenL.toNat then .ok (s.inMem.readBE a n) s else .stop .inReadBeyondLength

/-- `MemWrite(addr, 1, v)` on OUT (00 R14): made only below `OUT_LEN` and `OUT_MEM_BYTES` (70 R924). -/
def memWrite (a : Nat) (v : Byte) (s : State) : Eff Unit :=
  if a < s.regs.outLen.toNat ∧ a < s.params.outMemBytes then
    .ok () { s with outMem := s.outMem.write a v }
  else .stop .outWriteBeyondLength

/-- `ScanAppend(b)` (00 R14): SCAN has `SCAN_MEM_BYTES` bytes (20 R203). -/
def scanAppend (b : Byte) (s : State) : Eff Unit :=
  if s.scanLen.toNat < s.params.scanMemBytes then
    .ok () { s with scan := s.scan.write s.scanLen.toNat b, scanLen := s.scanLen + 1 }
  else .stop .scanAppendBeyondCapacity

/-- `ScanRead(i)` (00 R14): made only below `SCAN_LEN`. -/
def scanRead (i : Nat) (s : State) : Eff Byte :=
  if i < s.scanLen.toNat then .ok (s.scan.read i) s else .stop .scanReadBeyondLength

/-! ## Raising an error -/

/-- `ERR_CODE` of an error kind (60 R801). -/
def ErrKind.code : ErrKind → BitVec 3
  | .malformedContainer => 1
  | .unsupportedFeature => 2
  | .unknownMarker => 3
  | .corruptBitstream => 4
  | .resourceLimit => 5

/-- `ERR_TABLE` for a table byte, or for none (60 R802). -/
def errTable : Option Byte → BitVec 9
  | none => 0
  | some t => 1#1 ++ t

/-- `raise E(offset = o, table = t)` while the marker code is `m` (0x00 when none): the record and PHASE (60 R802). The
position inside a block, a local of the pseudocode, is lost (10 R100, log 4). -/
def State.raise (k : ErrKind) (o : Nat) (m : Byte) (t : Option Byte) (s : State) : State :=
  { s with
    err := { code := k.code, offset := BitVec.ofNat 32 o, marker := m, table := errTable t }
    phase := .error
    item := .start }

/-- End the operation at a raise. -/
def raise {α : Type} (k : ErrKind) (o : Nat) (m : Byte) (t : Option Byte) (s : State) : Eff α :=
  .raised (s.raise k o m t)

/-- `if c: raise E(...)`. -/
def raiseIf (c : Prop) [Decidable c] (k : ErrKind) (o : Nat) (m : Byte) (t : Option Byte) (s : State) : Eff Unit :=
  if c then raise k o m t s else .ok () s

/-! ## Starting a decode, and entering phase 2 -/

/-- What START clears and latches (48 R750). IN, OUT, SCAN's bytes, `BLK`, `CTRL.BGR` and `IN_LEN` stay. -/
def State.cleared (s : State) : State :=
  { s with
    err := .zero
    regs := { s.regs with width := 0, height := 0, stride := 0, outLen := 0 }
    qt := .zero
    ht := .zero
    fh := .zero
    sh := .zero
    seq := .zero
    scanLen := 0
    seenSoi := false
    seenSof := false
    scanDone := false
    br := .zero
    pred := predZero
    pc := 0
    inLenL := s.regs.inLen
    bgrL := s.regs.ctrlBgr
    phase := .parse
    item := .start }

/-- `start()` (48 R750) with the input capacity check (60 R811). -/
def start (s : State) : Eff Unit :=
  raiseIf (s.cleared.params.inMemBytes < s.cleared.inLenL.toNat) .resourceLimit 0 0 none s.cleared

/-- Phase 1 ends and phase 2 begins: PHASE and the initialization of 48 R701, part of one step (48 R709 (c)). -/
def enterDecode (s : State) : State :=
  { s with
    phase := .decode
    br := .zero
    pred := predZero
    seq := { s.seq with x := 0, y := 0 }
    item := .start }

end Sys2Proof.Machine
end

