-- ==== Sys2Proof/Machine/Flags.lean ====
section
/-! DEFINITION. The flags: STATUS as a view of PHASE (10 R127), and the marker order check that reads the parser flags
(42 R430). There are no arithmetic flags (10 R123). -/

namespace Sys2Proof.Machine

/-- `STATUS.BUSY`: PHASE is PARSE or DECODE (10 R127). -/
def State.busy (s : State) : Bool :=
  match s.phase with
  | .parse | .decode => true
  | .idle | .done | .error => false

/-- The STATUS word: BUSY bit 0, DONE bit 1, ERROR bit 2 (10 R127). -/
def State.status (s : State) : Word :=
  match s.phase with
  | .idle => 0
  | .parse | .decode => 1
  | .done => 2
  | .error => 4

/-- The UnsupportedFeature codes of 30 R340. -/
def isUnsupported (m : Byte) : Bool :=
  (0xC1#8 ≤ m && m ≤ 0xC3#8) || (0xC5#8 ≤ m && m ≤ 0xC7#8) || (0xC9#8 ≤ m && m ≤ 0xCB#8) ||
  (0xCD#8 ≤ m && m ≤ 0xCF#8) || m == 0xCC#8 || (0xD0#8 ≤ m && m ≤ 0xD7#8) ||
  (0xDC#8 ≤ m && m ≤ 0xDF#8) || m == 0x01#8

/-- The UnknownMarker codes of 30 R340. -/
def isUnknown (m : Byte) : Bool :=
  m == 0x00#8 || (0x02#8 ≤ m && m ≤ 0xBF#8) || m == 0xC8#8 || (0xF0#8 ≤ m && m ≤ 0xFD#8) || m == 0xFF#8

/-- The error kind of `check_order(m, mpos)`, tests in its order (42 R430); every one of them has offset `mpos`. -/
def orderError (m : Byte) (s : State) : Option ErrKind :=
  if s.seenSoi = false ∧ m ≠ 0xD8 then some .malformedContainer
  else if s.seenSoi = true ∧ m = 0xD8 then some .malformedContainer
  else if isUnsupported m then some .unsupportedFeature
  else if isUnknown m then some .unknownMarker
  else if m = 0xC0 ∧ s.seenSof = true then some .malformedContainer
  else if m = 0xDA ∧ s.seenSof = false then some .malformedContainer
  else if m = 0xDA ∧ s.scanDone = true then some .unsupportedFeature
  else if (m = 0xDB ∨ m = 0xC4) ∧ s.scanDone = true then some .unsupportedFeature
  else if m = 0xD9 ∧ s.scanDone = false then some .malformedContainer
  else none

/-- `check_order(m, mpos)` with `mpos = pc`, run before every marker's own rule (42 R420, R430). -/
def checkOrder (m : Byte) (s : State) : Eff Unit :=
  match orderError m s with
  | some k => raise k s.pc.toNat m none s
  | none => .ok () s

end Sys2Proof.Machine
end

