-- ==== Sys2Proof/Machine/HostInterface.lean ====
section
/-! DEFINITION. The host interface: the register map (10 R125 to R135), HOST_START (48 R750, R751), and the host's moves
(70 R920). -/

namespace Sys2Proof.Machine

/-- A register access the interface has: aligned, inside the 256-byte space (10 R135, 70 R925). -/
abbrev registerOffset (off : Nat) : Prop := off % 4 = 0 ∧ off < regSpaceBytes

/-- The value a register reads as; reserved bits and unmapped offsets read 0 (10 R125 to R135). -/
def State.readReg (off : Nat) (s : State) : Word :=
  match off with
  | 0x00 => if s.regs.ctrlBgr then 2 else 0
  | 0x04 => s.status
  | 0x08 => s.regs.inLen
  | 0x0C => s.err.code.setWidth 32
  | 0x10 => s.err.offset
  | 0x14 => s.err.marker.setWidth 32
  | 0x18 => s.err.table.setWidth 32
  | 0x1C => s.regs.width.setWidth 32
  | 0x20 => s.regs.height.setWidth 32
  | 0x24 => s.regs.stride
  | 0x28 => s.regs.outLen.extractLsb' 0 32
  | 0x2C => s.regs.outLen.extractLsb' 32 32
  | _ => 0

/-- `host_write_CTRL(v)` (48 R750): BGR is stored in every case; START acts only while not BUSY (48 R751). -/
def writeCtrl (v : Word) (s : State) : Eff Unit :=
  let s' := { s with regs := { s.regs with ctrlBgr := v.getLsbD 1 } }
  if v.getLsbD 0 && !s'.busy then start s' else .ok () s'

/-- HOST_START (48 R750, R751): the write of `v` to CTRL. -/
def execHostStart (v : Word) (s : State) : Host.Outcome State Fault Refusal := (writeCtrl v s).outcome

/-- A register write other than a START: CTRL stores BGR, IN_LEN stores, every other offset ignores it (70 R920 H3, H4,
H10). -/
def writeReg (off : Nat) (v : Word) (s : State) : State :=
  match off with
  | 0x00 => { s with regs := { s.regs with ctrlBgr := v.getLsbD 1 } }
  | 0x08 => { s with regs := { s.regs with inLen := v } }
  | _ => s

/-- What a read gives the host (log 9). -/
def State.answer (v : Word) (s : State) : State := { s with rdata := v }

/-- Is an access of the host to IN or OUT, at an offset below the capacity `cap`, a step of the interface (70 R922, R925). -/
def hostAccess (off cap : Nat) (s : State) (t : State) : Host.Outcome State Fault Refusal :=
  if s.busy then .refused .hostAccessWhileBusy
  else if off < cap then .next t
  else .refused .memoryAccessOutsideInterface

/-- A host move that is not a START (70 R920); the step has taken it from `hostMoves` already. Reset keeps the parameters
and the moves still to come and sets the host's last answer to 0: DESIGN CHOICE, unsafe (70 R900, log 15). A yield that reaches here is one for which the engine has no step; it passes
(log 5). -/
def hostMove (mv : HostMove) (s : State) : Host.Outcome State Fault Refusal :=
  match mv with
  | .engine => .next s
  | .writeReg off v =>
    if registerOffset off then .next (writeReg off v s) else .refused .registerAccessOutsideInterface
  | .readReg off =>
    if registerOffset off then .next (s.answer (s.readReg off)) else .refused .registerAccessOutsideInterface
  | .writeIn off b => hostAccess off s.params.inMemBytes s { s with inMem := s.inMem.write off b }
  | .readIn off => hostAccess off s.params.inMemBytes s (s.answer ((s.inMem.read off).setWidth 32))
  | .writeOut off b => hostAccess off s.params.outMemBytes s { s with outMem := s.outMem.write off b }
  | .readOut off => hostAccess off s.params.outMemBytes s (s.answer ((s.outMem.read off).setWidth 32))
  | .reset => .next { State.resetWith s.params with hostMoves := s.hostMoves }

/-- Which space a host address falls in, and the offset there, for a platform that places the three windows at their
bases (20 R214). -/
inductive Place where
  | reg (off : Nat)
  | inMem (off : Nat)
  | outMem (off : Nat)
deriving DecidableEq, Repr

/-- Is an address inside a window. -/
def inWindow (base size a : Nat) : Bool := base ≤ a && a < base + size

/-- The place of a host address under the placement parameters (20 R214); no place outside the three windows. -/
def locate (p : Params) (a : Nat) : Option Place :=
  if inWindow p.regBase regSpaceBytes a then some (.reg (a - p.regBase))
  else if inWindow p.inBase p.inMemBytes a then some (.inMem (a - p.inBase))
  else if inWindow p.outBase p.outMemBytes a then some (.outMem (a - p.outBase))
  else none

end Sys2Proof.Machine
end

