-- ==== Sys2Proof/Machine/Operands.lean ====
section
/-! DEFINITION. Operand forms: segment framing and fields (42 R425), the zigzag map (30 R330), the BitReader (41), the
extend rule (30 R321), and what the block in progress selects (48 R704). -/

namespace Sys2Proof.Machine

/-! ## Container operands -/

/-- The locals of a segment rule: the marker code and `mpos`, and from its header `L` and `seg_end` (42 R425). -/
structure Seg where
  m : Byte
  mpos : Nat
  len : Nat
  segEnd : Nat

/-- `seg_header()` (42 R425) for the marker code `m` at `mpos = pc`. -/
def segHeader (m : Byte) (s : State) : Eff Seg :=
  let mpos := s.pc.toNat
  (raiseIf (s.inLenL.toNat < mpos + 4) .malformedContainer (mpos + 2) m none s).bind fun _ s =>
  (memRead (mpos + 2) 2 s).bind fun len s =>
  (raiseIf (len < 2) .malformedContainer (mpos + 2) m none s).bind fun _ s =>
  (raiseIf (s.inLenL.toNat < mpos + 2 + len) .malformedContainer (mpos + 2) m none s).bind fun _ s =>
  .ok ⟨m, mpos, len, mpos + 2 + len⟩ { s with pc := BitVec.ofNat 32 (mpos + 4) }

/-- `field(n)` (42 R425): the next `n` bytes of the segment as one unsigned number. -/
def segField (g : Seg) (n : Nat) (s : State) : Eff Nat :=
  (raiseIf (g.segEnd < s.pc.toNat + n) .malformedContainer s.pc.toNat g.m none s).bind fun _ s =>
  (memRead s.pc.toNat n s).bind fun v s =>
  .ok v { s with pc := BitVec.ofNat 32 (s.pc.toNat + n) }

/-- `field(1)` as a byte. -/
def segByte (g : Seg) (s : State) : Eff Byte :=
  (segField g 1 s).bind fun v s => .ok (BitVec.ofNat 8 v) s

/-- `field(2)` as a 16-bit number (20 R204). -/
def segHalf (g : Seg) (s : State) : Eff Half :=
  (segField g 2 s).bind fun v s => .ok (BitVec.ofNat 16 v) s

/-- `for j in 0 .. n-1: V[j] <- field(1)`. -/
def segBytes (g : Seg) : Nat → State → Eff (List Byte)
  | 0, s => .ok [] s
  | n + 1, s =>
    (segByte g s).bind fun b s =>
    (segBytes g n s).bind fun bs s => .ok (b :: bs) s

/-- `pc <- seg_end` (42 R426). -/
def closeSegment (g : Seg) (s : State) : Eff Unit :=
  .ok () { s with pc := BitVec.ofNat 32 g.segEnd }

/-- The high nibble `b[7:4]` (00 R11). -/
def highNibble (b : Byte) : BitVec 4 := b.extractLsb' 4 4

/-- The low nibble `b[3:0]` (00 R11). -/
def lowNibble (b : Byte) : BitVec 4 := b.extractLsb' 0 4

/-! ## The zigzag map -/

/-- `ZZ[0..63]`, the natural index of the coefficient transmitted k-th (30 R330). -/
def zigzag : Vector (Fin 64) 64 := #v[
   0,  1,  8, 16,  9,  2,  3, 10,
  17, 24, 32, 25, 18, 11,  4,  5,
  12, 19, 26, 33, 40, 48, 41, 34,
  27, 20, 13,  6,  7, 14, 21, 28,
  35, 42, 49, 56, 57, 50, 43, 36,
  29, 22, 15, 23, 30, 37, 44, 51,
  58, 59, 52, 45, 38, 31, 39, 46,
  53, 60, 61, 54, 47, 55, 62, 63]

/-- `ZZ[k]`. -/
def zz (k : Fin 64) : Fin 64 := zigzag[k]

/-- `ZZINV[0..63]`, the transmission position of a natural index (30 R331). -/
def zigzagInv : Vector (Fin 64) 64 := #v[
   0,  1,  5,  6, 14, 15, 27, 28,
   2,  4,  7, 13, 16, 26, 29, 42,
   3,  8, 12, 17, 25, 30, 41, 43,
   9, 11, 18, 24, 31, 40, 44, 53,
  10, 19, 23, 32, 39, 45, 52, 54,
  20, 22, 33, 38, 46, 51, 55, 60,
  21, 34, 37, 47, 50, 56, 59, 61,
  35, 36, 48, 49, 57, 58, 62, 63]

/-- `ZZINV[i]`. -/
def zzInv (i : Fin 64) : Fin 64 := zigzagInv[i]

/-! ## What the block in progress selects -/

/-- `comp(b)` (48 R704). -/
def comp (b : Fin 6) : Fin 3 :=
  if b.val < 4 then 0 else if b.val = 4 then 1 else 2

/-- The Huffman class `th` of a block: false for class 0, true for class 1 (43 R512). -/
def State.th (s : State) : Bool := comp s.item.blk ≠ 0

/-- Is the next item an AC item (the AC loop of 44 R550 has been entered). -/
def State.acNext (s : State) : Bool := s.item.k ≠ 0

/-- The table byte `tc*16 + th`. -/
def tableByte (tc th : Bool) : Byte :=
  (if tc then 0x10#8 else 0#8) ||| (if th then 1#8 else 0#8)

/-- "The table of the current item" (60 R802): `0x00 + th` for a DC item, `0x10 + th` for an AC item. -/
def State.itemTable (s : State) : Byte := tableByte s.acNext s.th

/-- A phase-2 error: offset `BR_POS`, no marker, the table of the current item (60 R802 rows 37 to 43). -/
def raiseCorrupt {α : Type} (s : State) : Eff α :=
  raise .corruptBitstream s.br.pos.toNat 0 (some s.itemTable) s

/-! ## The BitReader -/

/-- The refill loop of `peek(n)` (41 R401); `fuel` bounds its turns, and `n` turns always suffice. -/
def refill (n : Nat) : Nat → State → Eff Unit
  | 0, s => .ok () s
  | fuel + 1, s =>
    if s.br.cnt < n then
      if s.scanLen.toNat ≤ s.br.pos.toNat then raiseCorrupt s
      else
        (scanRead s.br.pos.toNat s).bind fun b s =>
        refill n fuel { s with br := {
          acc := BitVec.ofNat 32 (s.br.acc.toNat * 256 + b.toNat)
          cnt := s.br.cnt + 8
          pos := s.br.pos + 1 } }
    else .ok () s

/-- `peek(n)` (41 R401). -/
def peek (n : Nat) (s : State) : Eff Nat :=
  (refill n n s).bind fun _ s =>
  .ok (s.br.acc.toNat / 2 ^ (s.br.cnt - n) % 2 ^ n) s

/-- Consume `n` bits that are in the accumulator (41 R402). -/
def dropBits (n : Nat) (s : State) : State :=
  { s with br := { s.br with
    cnt := s.br.cnt - n
    acc := BitVec.ofNat 32 (s.br.acc.toNat % 2 ^ (s.br.cnt - n)) } }

/-- `read(n)` (41 R402). -/
def readBits (n : Nat) (s : State) : Eff Nat :=
  (peek n s).bind fun v s => .ok v (dropBits n s)

/-- `skip(n)` (41 R403). -/
def skip (n : Nat) (s : State) : Eff Unit :=
  (readBits n s).bind fun _ s => .ok () s

/-- `extend(v, s)`, the signed-magnitude rule (30 R321). -/
def extend (v s : Nat) : Int :=
  if s = 0 then 0
  else if v < 2 ^ (s - 1) then (v : Int) - (2 ^ s - 1)
  else v

/-- `extend(read(s), s)`; with `s = 0` no bit is read (30 R321). -/
def readExtended (n : Nat) (s : State) : Eff Int :=
  if n = 0 then .ok 0 s
  else (readBits n s).bind fun v s => .ok (extend v n) s

end Sys2Proof.Machine
end

