-- ==== Sys2Proof/Machine/Huffman.lean ====
section
/-! DEFINITION. The Huffman lookup tables: construction (43 R500 to R505) and lookup (43 R510). -/

namespace Sys2Proof.Machine

/-- Does a fill cover the entry `idx`. -/
def Fill.covers (f : Fill) (idx : Nat) : Bool := f.base ≤ idx && idx < f.base + 2 ^ (16 - f.len)

/-- `HT[tc][th][idx]` as `(LEN, SYM)`; `(0, 0)` where no fill covers it (10 R108). -/
def HuffTable.entry : HuffTable → Nat → Nat × Byte
  | [], _ => (0, 0)
  | f :: t, idx => if f.covers idx then (f.len, f.sym) else HuffTable.entry t idx

/-- The table (tc, th); `tc` is false for DC, `th` false for class 0 (10 R108). -/
def HuffStore.get (h : HuffStore) (tc th : Bool) : HuffTable :=
  match tc, th with
  | false, false => h.dc0
  | false, true => h.dc1
  | true, false => h.ac0
  | true, true => h.ac1

/-- Replace the table (tc, th). -/
def HuffStore.set (h : HuffStore) (tc th : Bool) (t : HuffTable) : HuffStore :=
  match tc, th with
  | false, false => { h with dc0 := t }
  | false, true => { h with dc1 := t }
  | true, false => { h with ac0 := t }
  | true, true => { h with ac1 := t }

/-- The locals of `build_table` (43 R500): the table so far, the running code, the symbols still to be assigned, and
whether the code space overflowed. -/
structure Build where
  tbl : HuffTable
  code : Nat
  syms : List Byte
  overflow : Bool

/-- `for c in 1 .. CNT[l]` (43 R500): each symbol takes the next code of length `l`. The symbols do not run out, since
`V` has as many as the counts sum to (42 R437). -/
def assignCodes (l : Nat) : Nat → Build → Build
  | 0, b => b
  | c + 1, b =>
    if 2 ^ l ≤ b.code then { b with overflow := true }
    else
      match b.syms with
      | [] => b
      | v :: vs => assignCodes l c {
          tbl := { base := b.code * 2 ^ (16 - l), len := l, sym := v } :: b.tbl
          code := b.code + 1
          syms := vs
          overflow := b.overflow }

/-- `for l in 1 .. 16` over the pairs `(l, CNT[l])`: the running code doubles between lengths (43 R500, R502). -/
def assignLengths : List (Nat × Nat) → Build → Build
  | [], b => b
  | (l, cnt) :: rest, b =>
    let b' := assignCodes l cnt b
    if b'.overflow then b' else assignLengths rest { b' with code := b'.code * 2 }

/-- The code lengths 1..16 paired with the counts. -/
def lengthCounts (cnt : List Byte) : List (Nat × Nat) :=
  (List.range' 1 16).zip (cnt.map (·.toNat))

/-- The table that `build_table` makes from a cleared one (43 R501). -/
def buildFrom (cnt v : List Byte) : Build :=
  assignLengths (lengthCounts cnt) { tbl := [], code := 0, syms := v, overflow := false }

/-- `build_table(tc, th, CNT, V, spos)` (43 R500), invoked by DHT; fills made before an overflow stay (60 R803). -/
def buildTable (tc th : Bool) (cnt v : List Byte) (spos : Nat) (s : State) : Eff Unit :=
  raiseIf (buildFrom cnt v).overflow .malformedContainer spos 0xC4 (some (tableByte tc th))
    { s with ht := s.ht.set tc th (buildFrom cnt v).tbl }

/-- `decode_symbol(tc, th)` for the item in progress (43 R510). -/
def decodeSymbol (s : State) : Eff Byte :=
  (peek 16 s).bind fun idx s =>
  let e := (s.ht.get s.acNext s.th).entry idx
  if e.1 = 0 then raiseCorrupt s
  else (skip e.1 s).bind fun _ s => .ok e.2 s

end Sys2Proof.Machine
end

