-- ==== Sys2Proof/Machine/Block.lean ====
section
/-! DEFINITION. The BlockDecoder: the meanings of the entropy symbols (44 R550 to R562). Each runs after the lookup has
consumed the symbol's code (43 R510), on the block in progress. -/

namespace Sys2Proof.Machine

/-- The block with coefficient 0 equal to `v` and 0 elsewhere (44 R552, R553). -/
def dcBlock (v : S64) : Block := Vector.ofFn fun i => if i.val = 0 then v else 0

/-- The end of a DC item: the predictor takes the difference, the block starts with it and zeros, and the AC loop is
entered at `k = 1` (44 R550, R552, R553). -/
def commitDc (diff : Int) (s : State) : State :=
  let c := comp s.item.blk
  let p := s.pred[c] + BitVec.ofInt 64 diff
  { s with
    pred := s.pred.set c p
    blk := s.blk.set s.item.blk (dcBlock p)
    item := { s.item with k := 1 } }

/-- DC_ZERO (44 R554). -/
def execDcZero (s : State) : Host.Outcome State Fault Refusal :=
  (Eff.ok () (commitDc 0 s)).outcome

/-- DC_DIFF of category `n` (44 R555). -/
def execDcDiff (n : Byte) (s : State) : Host.Outcome State Fault Refusal :=
  ((readExtended n.toNat s).bind fun d s => .ok () (commitDc d s)).outcome

/-- DC_INVALID (44 R556). -/
def execDcInvalid (_ : Byte) (s : State) : Host.Outcome State Fault Refusal :=
  (raiseCorrupt s : Eff Unit).outcome

/-- The spectral index becomes `k`. -/
def State.withK (k : Nat) (s : State) : State := { s with item := { s.item with k := k } }

/-- EOB (44 R557): the AC loop is left, the block is complete. -/
def execEob (s : State) : Host.Outcome State Fault Refusal :=
  (Eff.ok () (s.withK 64)).outcome

/-- ZRL (44 R558). -/
def execZrl (s : State) : Host.Outcome State Fault Refusal :=
  (if 64 < s.item.k + 16 then raiseCorrupt s else Eff.ok () (s.withK (s.item.k + 16))).outcome

/-- AC_BADZERO (44 R559). -/
def execAcBadzero (_ : BitVec 4) (s : State) : Host.Outcome State Fault Refusal :=
  (raiseCorrupt s : Eff Unit).outcome

/-- `BLK[b][i] <- v` on the block in progress. -/
def State.setCoef (i : Fin 64) (v : Int) (s : State) : State :=
  { s with blk := s.blk.set s.item.blk (s.blk[s.item.blk].set i (BitVec.ofInt 64 v)) }

/-- AC_COEF of run `r` and size `n` (44 R560, 30 R323). -/
def execAcCoef (r n : BitVec 4) (s : State) : Host.Outcome State Fault Refusal :=
  (if h : s.item.k + r.toNat ≤ 63 then
    (readExtended n.toNat s).bind fun v s' =>
      Eff.ok () ((s'.setCoef (zz ⟨s.item.k + r.toNat, by omega⟩) v).withK (s.item.k + r.toNat + 1))
  else raiseCorrupt s).outcome

/-- AC_BADSIZE (44 R561). -/
def execAcBadsize (_ _ : BitVec 4) (s : State) : Host.Outcome State Fault Refusal :=
  (raiseCorrupt s : Eff Unit).outcome

end Sys2Proof.Machine
end

