-- ==== Sys2Proof/Machine/Color.lean ====
section
/-! DEFINITION. The ColorConverter and Upsampler (47 R650 to R658). -/

namespace Sys2Proof.Machine

/-- `roundHalfAway(n / d)` for d > 0 (00 R16). -/
def roundHalfAway (n : Int) (d : Nat) : Int :=
  if 0 ≤ n then (2 * n + d) / (2 * d) else -((-2 * n + d) / (2 * d))

/-- `clamp(v, lo, hi)` (00 R16). -/
def clamp (v lo hi : Int) : Int := if v < lo then lo else if hi < v then hi else v

/-- One channel from its numerator over 1000: rounded once, then clamped to a byte (47 R654, R655). -/
def channel (n : Int) : Byte := BitVec.ofInt 8 (clamp (roundHalfAway n 1000) 0 255)

/-- A pixel's three channels. -/
structure Pixel where
  r : Byte
  g : Byte
  b : Byte
deriving DecidableEq, Repr

/-- The colour matrix on a luma, Cb and Cr sample (47 R654, R655). -/
def toPixel (l cb cr : Int) : Pixel :=
  let y := l + 128
  { r := channel (1000 * y + 1402 * cr)
    g := channel (1000 * y - 344 * cb - 714 * cr)
    b := channel (1000 * y + 1772 * cb) }

/-- The pixel's bytes in the order they are written (47 R658, 20 R206). -/
def Pixel.bytes (p : Pixel) (bgr : Bool) : List Byte :=
  if bgr then [p.b, p.g, p.r] else [p.r, p.g, p.b]

/-- The luma block of pixel (x, y): 0 TL, 1 TR, 2 BL, 3 BR (47 R652). -/
def lumaBlock (x y : Fin 16) : Fin 6 := ⟨y.val / 8 * 2 + x.val / 8, by omega⟩

/-- The luma sample of pixel (x, y) inside its block (47 R652). -/
def lumaIndex (x y : Fin 16) : Fin 64 := ⟨8 * (y.val % 8) + x.val % 8, by omega⟩

/-- The chroma sample of pixel (x, y), upsampled 2x by nearest neighbour (47 R653). -/
def chromaIndex (x y : Fin 16) : Fin 64 := ⟨8 * (y.val / 2) + x.val / 2, by omega⟩

/-- The pixel (x, y) of the macroblock in the block buffers (47 R650). -/
def State.pixel (x y : Fin 16) (s : State) : Pixel :=
  toPixel (s.blk[lumaBlock x y][lumaIndex x y]).toInt
    (s.blk[4][chromaIndex x y]).toInt (s.blk[5][chromaIndex x y]).toInt

/-- The OUT offset of pixel (x, y) of macroblock (mx, my) (47 R651). -/
def pixelOffset (stride mx my : Nat) (x y : Fin 16) : Nat :=
  (16 * my + y.val) * stride + 3 * (16 * mx + x.val)

/-- Consecutive `MemWrite`s from offset `a`. -/
def writeBytes (a : Nat) : List Byte → State → Eff Unit
  | [], s => .ok () s
  | b :: bs, s => (memWrite a b s).bind fun _ s => writeBytes (a + 1) bs s

/-- Write pixel (x, y) of macroblock (mx, my) (47 R650). -/
def writePixel (mx my : Nat) (x y : Fin 16) (s : State) : Eff Unit :=
  writeBytes (pixelOffset s.regs.stride.toNat mx my x y) ((s.pixel x y).bytes s.bgrL) s

/-- The pixels of a macroblock, row by row (47 R650), as (x, y). -/
def macroblockPixels : List (Fin 16 × Fin 16) :=
  (List.finRange 16).flatMap fun y => (List.finRange 16).map fun x => (x, y)

/-- `color_convert(mx, my)` (47 R650). -/
def colorConvert (mx my : Nat) (s : State) : Eff Unit :=
  Eff.forEach (fun p s => writePixel mx my p.1 p.2 s) macroblockPixels s

end Sys2Proof.Machine
end

