-- ==== Sys2Proof/Machine/Container.lean ====
section
/-! DEFINITION. The Container Parser: the marker instructions (42 R431 to R455) and the extraction of the entropy-coded
segment (42 R450). Every meaning runs with `pc = mpos`, the offset of the marker's 0xFF, and begins with the order check
(42 R420, R430). -/

namespace Sys2Proof.Machine

/-! ## SOI, APPn, COM -/

/-- SOI (42 R431). -/
def execSoi (s : State) : Host.Outcome State Fault Refusal :=
  ((checkOrder 0xD8 s).bind fun _ s =>
    .ok () { s with seenSoi := true, pc := s.pc + 2 }).outcome

/-- A segment that is skipped by its length (42 R432, R433). -/
def skipSegment (m : Byte) (s : State) : Eff Unit :=
  (checkOrder m s).bind fun _ s =>
  (segHeader m s).bind fun g s =>
  closeSegment g s

/-- APPn (42 R432). -/
def execAppn (n : BitVec 4) (s : State) : Host.Outcome State Fault Refusal :=
  (skipSegment (0xE#4 ++ n) s).outcome

/-- COM (42 R433). -/
def execCom (s : State) : Host.Outcome State Fault Refusal :=
  (skipSegment 0xFE s).outcome

/-! ## Table segments -/

/-- `while pc < seg_end: body` (42 R434, R437); `fuel` bounds the turns, and `L` turns suffice since a turn reads a byte. -/
def segWhile (g : Seg) (body : State → Eff Unit) : Nat → State → Eff Unit
  | 0, s => .ok () s
  | fuel + 1, s =>
    if s.pc.toNat < g.segEnd then (body s).bind fun _ s => segWhile g body fuel s
    else .ok () s

/-- `QT[t][i] <- v`. -/
def QuantStore.setVal (q : QuantStore) (t : Fin 4) (i : Fin 64) (v : Byte) : QuantStore :=
  { q with vals := q.vals.set t (q.vals[t].set i v) }

/-- `QT_VALID[t] <- 1`. -/
def QuantStore.setValid (q : QuantStore) (t : Fin 4) : QuantStore :=
  { q with valid := q.valid.set t true }

/-- The slot a PqTq byte with a low nibble of at most 3 names. -/
def slotOf (pqtq : Byte) : Fin 4 := (pqtq.extractLsb' 0 2).toFin

/-- `for k in 0..63: QT[t][ZZ[k]] <- field(1)` (42 R434, R435). -/
def dqtValues (g : Seg) (t : Fin 4) (s : State) : Eff Unit :=
  Eff.forEach (fun k s =>
    (segByte g s).bind fun v s => .ok () { s with qt := s.qt.setVal t (zz k) v }) (List.finRange 64) s

/-- One table specification of a DQT segment (42 R434). -/
def dqtSpec (g : Seg) (s : State) : Eff Unit :=
  let spos := s.pc.toNat
  (segByte g s).bind fun pqtq s =>
  (raiseIf (highNibble pqtq ≠ 0) .unsupportedFeature spos g.m (some pqtq) s).bind fun _ s =>
  (raiseIf (3 < (lowNibble pqtq).toNat) .malformedContainer spos g.m (some pqtq) s).bind fun _ s =>
  (dqtValues g (slotOf pqtq) s).bind fun _ s =>
  .ok () { s with qt := s.qt.setValid (slotOf pqtq) }

/-- DQT (42 R434). -/
def execDqt (s : State) : Host.Outcome State Fault Refusal :=
  ((checkOrder 0xDB s).bind fun _ s =>
    (segHeader 0xDB s).bind fun g s =>
    segWhile g (dqtSpec g) g.len s).outcome

/-- The sum of the 16 counts. -/
def countSum (cnt : List Byte) : Nat := (cnt.map (·.toNat)).sum

/-- One table specification of a DHT segment (42 R437). -/
def dhtSpec (g : Seg) (s : State) : Eff Unit :=
  let spos := s.pc.toNat
  (segByte g s).bind fun tcth s =>
  (raiseIf (tcth.extractLsb' 5 3 ≠ 0) .malformedContainer spos g.m (some tcth) s).bind fun _ s =>
  (raiseIf (1 < (lowNibble tcth).toNat) .unsupportedFeature spos g.m (some tcth) s).bind fun _ s =>
  (segBytes g 16 s).bind fun cnt s =>
  (segBytes g (countSum cnt) s).bind fun v s =>
  buildTable (tcth.getLsbD 4) (tcth.getLsbD 0) cnt v spos s

/-- DHT (42 R437). -/
def execDht (s : State) : Host.Outcome State Fault Refusal :=
  ((checkOrder 0xC4 s).bind fun _ s =>
    (segHeader 0xC4 s).bind fun g s =>
    segWhile g (dhtSpec g) g.len s).outcome

/-! ## The frame header -/

/-- The sampling byte SOF0 accepts for component `i` (42 R440). -/
def samplingByte (i : Nat) : Byte := if i = 0 then 0x22 else 0x11

/-- The component fields C, HV, Tq of component `i` (42 R440). -/
def sofComponent (g : Seg) (i : Nat) (s : State) : Eff (Byte × Byte × Byte) :=
  (segByte g s).bind fun c s =>
  (segByte g s).bind fun hv s =>
  (raiseIf (hv ≠ samplingByte i) .unsupportedFeature (g.mpos + 11 + 3 * i) g.m none s).bind fun _ s =>
  (segByte g s).bind fun tq s =>
  (raiseIf (3 < tq.toNat) .malformedContainer (g.mpos + 12 + 3 * i) g.m (some tq) s).bind fun _ s =>
  .ok (c, hv, tq) s

/-- `ceil(n / 16)` (10 R113). -/
def ceil16 (n : Nat) : Nat := (n + 15) / 16

/-- `STRIDE = ceil(MCU_COLS*16*3 / 4) * 4` (10 R133). -/
def strideOf (cols : Nat) : Nat := (cols * 16 * 3 + 3) / 4 * 4

/-- `OUT_LEN = STRIDE * MCU_ROWS * 16` (10 R133). -/
def outLenOf (cols rows : Nat) : Nat := strideOf cols * rows * 16

/-- The commit of an accepted frame header: FH_*, the sequencer's grid, the result registers, SEEN_SOF (42 R440). -/
def commitFrame (fh : FrameHeader) (s : State) : State :=
  let cols := ceil16 fh.x.toNat
  let rows := ceil16 fh.y.toNat
  { s with
    fh := fh
    seq := { s.seq with cols := BitVec.ofNat 16 cols, rows := BitVec.ofNat 16 rows }
    regs := { s.regs with
      width := fh.x
      height := fh.y
      stride := BitVec.ofNat 32 (strideOf cols)
      outLen := BitVec.ofNat 64 (outLenOf cols rows) }
    seenSof := true }

/-- `check_output_capacity()` (60 R812). -/
def checkOutputCapacity (g : Seg) (s : State) : Eff Unit :=
  raiseIf (s.params.outMemBytes < s.regs.outLen.toNat) .resourceLimit g.mpos g.m none s

/-- The fields and checks of SOF0 after its segment header, in field order (42 R440). -/
def sofFields (g : Seg) (s : State) : Eff FrameHeader :=
  (segByte g s).bind fun p s =>
  (raiseIf (p ≠ 8) .unsupportedFeature (g.mpos + 4) g.m none s).bind fun _ s =>
  (segHalf g s).bind fun y s =>
  (raiseIf (y = 0) .unsupportedFeature (g.mpos + 5) g.m none s).bind fun _ s =>
  (segHalf g s).bind fun x s =>
  (raiseIf (x = 0) .malformedContainer (g.mpos + 7) g.m none s).bind fun _ s =>
  (segByte g s).bind fun nf s =>
  (raiseIf (nf ≠ 3) .unsupportedFeature (g.mpos + 9) g.m none s).bind fun _ s =>
  (raiseIf (g.len ≠ 17) .malformedContainer (g.mpos + 2) g.m none s).bind fun _ s =>
  (sofComponent g 0 s).bind fun a s =>
  (sofComponent g 1 s).bind fun b s =>
  (sofComponent g 2 s).bind fun c s =>
  .ok { p := p, y := y, x := x, nf := nf,
        c := #v[a.1, b.1, c.1], hv := #v[a.2.1, b.2.1, c.2.1], tq := #v[a.2.2, b.2.2, c.2.2] } s

/-- SOF0 (42 R440). -/
def execSof0 (s : State) : Host.Outcome State Fault Refusal :=
  ((checkOrder 0xC0 s).bind fun _ s =>
    (segHeader 0xC0 s).bind fun g s =>
    (sofFields g s).bind fun fh s =>
    (checkOutputCapacity g (commitFrame fh s)).bind fun _ s =>
    closeSegment g s).outcome

/-! ## The scan header and the entropy-coded segment -/

/-- The stuffed pair `FF 00` at `pc` in the entropy-coded segment: one data byte 0xFF (42 R450, 30 R307). -/
def stuffedPair (s : State) : Eff Unit :=
  (scanAppend 0xFF s).bind fun _ s => .ok () { s with pc := s.pc + 2 }

/-- SCAN_STUFF (42 R450). -/
def execScanStuff (s : State) : Host.Outcome State Fault Refusal := (stuffedPair s).outcome

/-- The loop of `extract()` (42 R450); `fuel` bounds the turns, and each turn that goes on advances `pc`. -/
def extractLoop : Nat → State → Eff Unit
  | 0, s => .ok () s
  | fuel + 1, s =>
    if s.inLenL.toNat ≤ s.pc.toNat then .ok () s
    else
      (memRead s.pc.toNat 1 s).bind fun b s =>
      if b ≠ 0xFF then
        (scanAppend (BitVec.ofNat 8 b) s).bind fun _ s => extractLoop fuel { s with pc := s.pc + 1 }
      else
        (raiseIf (s.inLenL.toNat ≤ s.pc.toNat + 1) .malformedContainer s.pc.toNat 0xDA none s).bind fun _ s =>
        (memRead (s.pc.toNat + 1) 1 s).bind fun b2 s =>
        if b2 = 0 then (stuffedPair s).bind fun _ s => extractLoop fuel s
        else .ok () s

/-- `extract()` (42 R450): the data bytes, then the 2 padding bytes. -/
def extract (s : State) : Eff Unit :=
  (extractLoop s.inLenL.toNat s).bind fun _ s =>
  (scanAppend 0 s).bind fun _ s =>
  scanAppend 0 s

/-- The table selector SOS accepts for component `i` (42 R445). -/
def selectorByte (i : Nat) : Byte := if i = 0 then 0x00 else 0x11

/-- The component fields Cs, TdTa of component `i` (42 R445). -/
def sosComponent (g : Seg) (i : Fin 3) (s : State) : Eff (Byte × Byte) :=
  (segByte g s).bind fun cs s =>
  (raiseIf (cs ≠ s.fh.c[i]) .malformedContainer (g.mpos + 5 + 2 * i.val) g.m none s).bind fun _ s =>
  (segByte g s).bind fun tda s =>
  (raiseIf (tda ≠ selectorByte i.val) .unsupportedFeature (g.mpos + 6 + 2 * i.val) g.m (some tda) s).bind fun _ s =>
  .ok (cs, tda) s

/-- `QT_VALID[t]`; there is no slot above 3. -/
def State.slotLoaded (t : Byte) (s : State) : Bool :=
  if h : t.toNat < 4 then s.qt.valid[t.toNat] else false

/-- The loaded-slot check of component `i` (42 R446). -/
def checkSlot (g : Seg) (i : Fin 3) (s : State) : Eff Unit :=
  raiseIf (s.slotLoaded s.fh.tq[i] = false) .malformedContainer g.mpos g.m (some s.fh.tq[i]) s

/-- The fields and checks of SOS after its segment header, in field order (42 R445). -/
def sosFields (g : Seg) (s : State) : Eff ScanHeader :=
  (segByte g s).bind fun ns s =>
  (raiseIf (ns ≠ 3) .unsupportedFeature (g.mpos + 4) g.m none s).bind fun _ s =>
  (raiseIf (g.len ≠ 12) .malformedContainer (g.mpos + 2) g.m none s).bind fun _ s =>
  (sosComponent g 0 s).bind fun a s =>
  (sosComponent g 1 s).bind fun b s =>
  (sosComponent g 2 s).bind fun c s =>
  (segByte g s).bind fun ss s =>
  (raiseIf (ss ≠ 0) .unsupportedFeature (g.mpos + 11) g.m none s).bind fun _ s =>
  (segByte g s).bind fun se s =>
  (raiseIf (se ≠ 63) .unsupportedFeature (g.mpos + 12) g.m none s).bind fun _ s =>
  (segByte g s).bind fun ahal s =>
  (Eff.forEach (checkSlot g) (List.finRange 3) s).bind fun _ s =>
  .ok { ns := ns, cs := #v[a.1, b.1, c.1], tda := #v[a.2, b.2, c.2], ss := ss, se := se, ahal := ahal } s

/-- SOS, with the extraction of the scan it begins (42 R445, R450). -/
def execSos (s : State) : Host.Outcome State Fault Refusal :=
  ((checkOrder 0xDA s).bind fun _ s =>
    (segHeader 0xDA s).bind fun g s =>
    (sosFields g s).bind fun sh s =>
    (closeSegment g { s with sh := sh }).bind fun _ s =>
    (extract s).bind fun _ s =>
    .ok () { s with scanDone := true }).outcome

/-! ## The end of parsing -/

/-- EOI (42 R452): phase 1 ends and phase 2 is entered in this step (48 R709 (c)). -/
def execEoi (s : State) : Host.Outcome State Fault Refusal :=
  ((checkOrder 0xD9 s).bind fun _ s => .ok () (enterDecode { s with pc := s.pc + 2 })).outcome

/-- `end_of_input()` (42 R453), no instruction: input that ends after the scan acts as EOI. -/
def endOfInput (s : State) : Eff Unit :=
  if s.scanDone then .ok () (enterDecode s)
  else raise .malformedContainer s.inLenL.toNat 0 none s

/-! ## Rejected markers -/

/-- A rejected marker: the order check, then its error at `mpos` (42 R430, R454, R455). -/
def rejectMarker (k : ErrKind) (m : Byte) (s : State) : Eff Unit :=
  (checkOrder m s).bind fun _ s => raise k s.pc.toNat m none s

/-- SOF1 to SOF3 (42 R454). -/
def execUnsupSof1to3 (m : Byte) (s : State) : Host.Outcome State Fault Refusal :=
  (rejectMarker .unsupportedFeature m s).outcome

/-- SOF5 to SOF7 (42 R454). -/
def execUnsupSof5to7 (m : Byte) (s : State) : Host.Outcome State Fault Refusal :=
  (rejectMarker .unsupportedFeature m s).outcome

/-- SOF9 to SOF11 (42 R454). -/
def execUnsupSof9to11 (m : Byte) (s : State) : Host.Outcome State Fault Refusal :=
  (rejectMarker .unsupportedFeature m s).outcome

/-- SOF13 to SOF15 (42 R454). -/
def execUnsupSof13to15 (m : Byte) (s : State) : Host.Outcome State Fault Refusal :=
  (rejectMarker .unsupportedFeature m s).outcome

/-- DAC (42 R454). -/
def execUnsupDac (s : State) : Host.Outcome State Fault Refusal :=
  (rejectMarker .unsupportedFeature 0xCC s).outcome

/-- RST0 to RST7 (42 R454). -/
def execUnsupRst (n : BitVec 3) (s : State) : Host.Outcome State Fault Refusal :=
  (rejectMarker .unsupportedFeature (0x1A#5 ++ n) s).outcome

/-- DNL (42 R454). -/
def execUnsupDnl (s : State) : Host.Outcome State Fault Refusal :=
  (rejectMarker .unsupportedFeature 0xDC s).outcome

/-- DRI (42 R454). -/
def execUnsupDri (s : State) : Host.Outcome State Fault Refusal :=
  (rejectMarker .unsupportedFeature 0xDD s).outcome

/-- DHP (42 R454). -/
def execUnsupDhp (s : State) : Host.Outcome State Fault Refusal :=
  (rejectMarker .unsupportedFeature 0xDE s).outcome

/-- EXP (42 R454). -/
def execUnsupExp (s : State) : Host.Outcome State Fault Refusal :=
  (rejectMarker .unsupportedFeature 0xDF s).outcome

/-- TEM (42 R454). -/
def execUnsupTem (s : State) : Host.Outcome State Fault Refusal :=
  (rejectMarker .unsupportedFeature 0x01 s).outcome

/-- Marker code 0x00 (42 R455). -/
def execUnknown00 (s : State) : Host.Outcome State Fault Refusal :=
  (rejectMarker .unknownMarker 0x00 s).outcome

/-- The reserved codes 0x02 to 0xBF (42 R455). -/
def execUnknownRes (m : Byte) (s : State) : Host.Outcome State Fault Refusal :=
  (rejectMarker .unknownMarker m s).outcome

/-- JPG, 0xC8 (42 R455). -/
def execUnknownJpg (s : State) : Host.Outcome State Fault Refusal :=
  (rejectMarker .unknownMarker 0xC8 s).outcome

/-- JPG0 to JPG13, 0xF0 to 0xFD (42 R455). -/
def execUnknownJpgn (m : Byte) (s : State) : Host.Outcome State Fault Refusal :=
  (rejectMarker .unknownMarker m s).outcome

/-- Marker code 0xFF, not skipped as a fill byte (42 R455). -/
def execUnknownFill (s : State) : Host.Outcome State Fault Refusal :=
  (rejectMarker .unknownMarker 0xFF s).outcome

end Sys2Proof.Machine
end

