-- ==== Sys2Proof/Machine/Dequantizer.lean ====
section
/-! DEFINITION. The Dequantizer (45 R600 to R603). -/

namespace Sys2Proof.Machine

/-- `BLK[b][i] * QT[t][i]` for every i: s64 multiply, the table value zero-extended (45 R600). -/
def dequantBlock (q : QuantSlot) (blk : Block) : Block :=
  Vector.ofFn fun i => blk[i] * (q[i]).setWidth 64

/-- `dequantize(b, FH_TQ[comp(b)])` (45 R600, R601). -/
def dequantize (b : Fin 6) (s : State) : Eff Unit :=
  let t := s.fh.tq[comp b]
  if h : t.toNat < 4 then
    .ok () { s with blk := s.blk.set b (dequantBlock s.qt.vals[t.toNat] s.blk[b]) }
  else .stop .quantSlotAbsent

end Sys2Proof.Machine
end

