-- ==== Sys2Proof/Machine/Idct.lean ====
section
/-! DEFINITION. The inverse DCT (46 R620 to R622), computed exactly. Every entry of the basis matrix is a quarter of
`2 cos (j π / 16)` for some j, and those numbers lie in the ring of integer combinations of square roots below, where
products and signs are computed with integers alone. So `16 F[y][x]` is a ring element and its rounding is exact (log 14). -/

namespace Sys2Proof.Machine

/-! ## The ring: three square roots over the integers -/

/-- `a + b √2`. -/
structure Root1 where
  a : Int
  b : Int
deriving DecidableEq, Repr

/-- `a + b √(2 + √2)`. -/
structure Root2 where
  a : Root1
  b : Root1
deriving DecidableEq, Repr

/-- `a + b √(2 + √(2 + √2))`. -/
structure Root3 where
  a : Root2
  b : Root2
deriving DecidableEq, Repr

def Root1.zero : Root1 := ⟨0, 0⟩
def Root1.add (x y : Root1) : Root1 := ⟨x.a + y.a, x.b + y.b⟩
def Root1.neg (x : Root1) : Root1 := ⟨-x.a, -x.b⟩
def Root1.mul (x y : Root1) : Root1 := ⟨x.a * y.a + 2 * (x.b * y.b), x.a * y.b + x.b * y.a⟩

def Root2.zero : Root2 := ⟨.zero, .zero⟩
def Root2.add (x y : Root2) : Root2 := ⟨x.a.add y.a, x.b.add y.b⟩
def Root2.neg (x : Root2) : Root2 := ⟨x.a.neg, x.b.neg⟩

/-- The radicand `2 + √2` of the second root. -/
def radicand2 : Root1 := ⟨2, 1⟩

def Root2.mul (x y : Root2) : Root2 :=
  ⟨(x.a.mul y.a).add (radicand2.mul (x.b.mul y.b)), (x.a.mul y.b).add (x.b.mul y.a)⟩

def Root3.zero : Root3 := ⟨.zero, .zero⟩
def Root3.add (x y : Root3) : Root3 := ⟨x.a.add y.a, x.b.add y.b⟩
def Root3.neg (x : Root3) : Root3 := ⟨x.a.neg, x.b.neg⟩

/-- The radicand `2 + √(2 + √2)` of the third root. -/
def radicand3 : Root2 := ⟨⟨2, 0⟩, ⟨1, 0⟩⟩

def Root3.mul (x y : Root3) : Root3 :=
  ⟨(x.a.mul y.a).add (radicand3.mul (x.b.mul y.b)), (x.a.mul y.b).add (x.b.mul y.a)⟩

/-- An integer as a ring element. -/
def Root3.ofInt (n : Int) : Root3 := ⟨⟨⟨n, 0⟩, .zero⟩, .zero⟩

/-! ## Exact signs -/

/-- The sign of `a + b √d` from the signs of `a`, of `b`, and of `a² - b² d`: when `a` and `b` have opposite signs, the
larger of `a²` and `b² d` decides. -/
def rootSign (sa sb sd : Int) : Int :=
  if sb = 0 then sa else if sa = 0 then sb else if sa = sb then sa else sa * sd

def Root1.sign (x : Root1) : Int :=
  rootSign x.a.sign x.b.sign (x.a * x.a - 2 * (x.b * x.b)).sign

def Root2.sign (x : Root2) : Int :=
  rootSign x.a.sign x.b.sign ((x.a.mul x.a).add (radicand2.mul (x.b.mul x.b)).neg).sign

def Root3.sign (x : Root3) : Int :=
  rootSign x.a.sign x.b.sign ((x.a.mul x.a).add (radicand3.mul (x.b.mul x.b)).neg).sign

/-! ## Exact rounding of a sixteenth -/

def Root1.bound (x : Root1) : Nat := x.a.natAbs + 2 * x.b.natAbs
def Root2.bound (x : Root2) : Nat := x.a.bound + 2 * x.b.bound

/-- A bound on the magnitude: every root above is below 2. -/
def Root3.bound (x : Root3) : Nat := x.a.bound + 2 * x.b.bound

/-- Is `16 n ≤ x`. -/
def sixteenthAtLeast (x : Root3) (n : Nat) : Bool := 0 ≤ (x.add (Root3.ofInt (-16 * n))).sign

/-- Add to `q` the powers of two below `2^k`, the largest first, while `16 q` stays at most `x`. -/
def floorSearch (x : Root3) : Nat → Nat → Nat
  | 0, q => q
  | k + 1, q => if sixteenthAtLeast x (q + 2 ^ k) then floorSearch x k (q + 2 ^ k) else floorSearch x k q

/-- `floor(x / 16)` for `x ≥ 0`. -/
def floorSixteenth (x : Root3) : Nat := floorSearch x (Nat.log2 x.bound + 1) 0

/-- `roundHalfAway(x / 16)` (00 R16): the nearest integer, halves away from zero. -/
def roundSixteenth (x : Root3) : Int :=
  if 0 ≤ x.sign then floorSixteenth (x.add (.ofInt 8))
  else -(floorSixteenth (x.neg.add (.ofInt 8)) : Int)

/-! ## The basis -/

/-- `2 cos (j π / 16)` for j = 0..8. -/
def cosFirstHalf : Vector Root3 9 := #v[
  ⟨⟨⟨2, 0⟩, ⟨0, 0⟩⟩, ⟨⟨0, 0⟩, ⟨0, 0⟩⟩⟩,
  ⟨⟨⟨0, 0⟩, ⟨0, 0⟩⟩, ⟨⟨1, 0⟩, ⟨0, 0⟩⟩⟩,
  ⟨⟨⟨0, 0⟩, ⟨1, 0⟩⟩, ⟨⟨0, 0⟩, ⟨0, 0⟩⟩⟩,
  ⟨⟨⟨0, 0⟩, ⟨0, 0⟩⟩, ⟨⟨-1, 0⟩, ⟨1, 0⟩⟩⟩,
  ⟨⟨⟨0, 1⟩, ⟨0, 0⟩⟩, ⟨⟨0, 0⟩, ⟨0, 0⟩⟩⟩,
  ⟨⟨⟨0, 0⟩, ⟨0, 0⟩⟩, ⟨⟨1, 1⟩, ⟨-1, 0⟩⟩⟩,
  ⟨⟨⟨0, 0⟩, ⟨-1, 1⟩⟩, ⟨⟨0, 0⟩, ⟨0, 0⟩⟩⟩,
  ⟨⟨⟨0, 0⟩, ⟨0, 0⟩⟩, ⟨⟨-1, -1⟩, ⟨0, 1⟩⟩⟩,
  ⟨⟨⟨0, 0⟩, ⟨0, 0⟩⟩, ⟨⟨0, 0⟩, ⟨0, 0⟩⟩⟩]

/-- `2 cos (m π / 16)`: the cosine has period 32, is even, and changes sign about 8. -/
def twoCos (m : Nat) : Root3 :=
  let r := if m % 32 ≤ 16 then m % 32 else 32 - m % 32
  if h : r ≤ 8 then cosFirstHalf[r] else (cosFirstHalf[(16 - r) % 9]'(Nat.mod_lt _ (by decide))).neg

/-- `4 C[y][x]` (46 R620): `C[y][x] = sqrt(1/4) cos((2x+1) y π / 16)` for y > 0, and `C[0][x] = sqrt(1/8)`, which is
`(1/2) cos (4 π / 16)`. -/
def basis4 (y x : Nat) : Root3 := if y = 0 then twoCos 4 else twoCos ((2 * x + 1) * y)

/-- The sum of ring elements. -/
def sumRoots (xs : List Root3) : Root3 := xs.foldr Root3.add .zero

/-- `4 (M C)[v][x] = Σ_u M[v][u] 4 C[u][x]`, the first composition (46 R621). -/
def rowTransform (blk : Block) : Vector (Vector Root3 8) 8 :=
  Vector.ofFn fun (v : Fin 8) => Vector.ofFn fun (x : Fin 8) =>
    sumRoots ((List.finRange 8).map fun (u : Fin 8) =>
      (Root3.ofInt (blk[8 * v.val + u.val]'(by omega)).toInt).mul (basis4 u.val x.val))

/-- `16 F[y][x] = Σ_v 4 C[v][y] · 4 (M C)[v][x]`, the second composition (46 R621). -/
def sample16 (rows : Vector (Vector Root3 8) 8) (y x : Fin 8) : Root3 :=
  sumRoots ((List.finRange 8).map fun (v : Fin 8) => (basis4 v.val y.val).mul rows[v][x])

/-- The transformed block: `roundHalfAway(F[y][x])` at natural index `8 y + x` (46 R621). -/
def idctBlock (blk : Block) : Block :=
  let rows := rowTransform blk
  Vector.ofFn fun i => BitVec.ofInt 64
    (roundSixteenth (sample16 rows ⟨i.val / 8, by omega⟩ ⟨i.val % 8, by omega⟩))

/-- `idct(b)` (46 R621, R626). -/
def idct (b : Fin 6) (s : State) : Eff Unit :=
  .ok () { s with blk := s.blk.set b (idctBlock s.blk[b]) }

end Sys2Proof.Machine
end

