-- ==== Sys2Proof/Machine/Orchestration.lean ====
section
/-! DEFINITION. The macroblock loop of phase 2 (48 R702 to R706). -/

namespace Sys2Proof.Machine

/-- The six blocks in order (48 R702). -/
def blocks : List (Fin 6) := List.finRange 6

/-- After the six blocks are decoded: dequantize all, transform all, convert the colours (48 R702, R705). -/
def renderMacroblock (s : State) : Eff Unit :=
  (Eff.forEach dequantize blocks s).bind fun _ s =>
  (Eff.forEach idct blocks s).bind fun _ s =>
  colorConvert s.seq.x.toNat s.seq.y.toNat s

/-- The next macroblock in raster order, or DONE after the last (48 R702, R703). At DONE, `MCU_X` and `MCU_Y` keep the
last macroblock's position (log 16). -/
def nextMacroblock (s : State) : State :=
  if s.seq.x.toNat + 1 < s.seq.cols.toNat then
    { s with seq := { s.seq with x := s.seq.x + 1 }, item := .start }
  else if s.seq.y.toNat + 1 < s.seq.rows.toNat then
    { s with seq := { s.seq with x := 0, y := s.seq.y + 1 }, item := .start }
  else { s with phase := .done, item := .start }

/-- What follows a complete block: the next block of the macroblock, or the rest of the macroblock's work (48 R702). -/
def afterBlock (s : State) : Eff Unit :=
  if h : s.item.blk.val + 1 < 6 then
    .ok () { s with item := ⟨⟨s.item.blk.val + 1, h⟩, 0⟩ }
  else (renderMacroblock s).bind fun _ s => .ok () (nextMacroblock s)

end Sys2Proof.Machine
end

