-- ==== Sys2Proof/Machine/Fetch.lean ====
section
/-! DEFINITION. What is done before or instead of an instruction: fetching a marker at `pc` (42 R420) or a symbol from the
scan (43 R510), a host move, and what runs no instruction. Also the state that has a given table word as its next
instruction. -/

namespace Sys2Proof.Machine

/-- What was found to do: run an instruction in a state, or answer an outcome with no instruction run. -/
inductive Turn where
  | run (i : Instr) (s : State)
  | answer (o : Host.Outcome State Fault Refusal)

/-- A fetch that ended in a raise or an access fault leaves no instruction to run. -/
def Turn.ofFetch (e : Eff Instr) : Turn :=
  match e with
  | .ok i s => .run i s
  | .raised s => .answer (.next s)
  | .stop r => .answer (.fault r)

/-- Decode a fetched code word. A marker whose lead byte is 0xFF, and every symbol, decodes
(Laws/Decode.lean); the other answer is never given. -/
def decoded (c : Code) (s : State) : Eff Instr :=
  match decode c with
  | .ok i => .ok i s
  | .error _ => raise .unknownMarker s.pc.toNat 0 none s

/-- The lead byte and the code byte at `pc` (42 R420, R429); `pc` stays at the lead byte. -/
def fetchMarker (s : State) : Eff Instr :=
  (memRead s.pc.toNat 1 s).bind fun lead s =>
  (raiseIf (lead ≠ 0xFF) .malformedContainer s.pc.toNat 0 none s).bind fun _ s =>
  (raiseIf (s.inLenL.toNat ≤ s.pc.toNat + 1) .malformedContainer s.pc.toNat 0 none s).bind fun _ s =>
  (memRead (s.pc.toNat + 1) 1 s).bind fun m s =>
  decoded (.marker (markerWord (BitVec.ofNat 8 lead) (BitVec.ofNat 8 m))) s

/-- The context a symbol of the block in progress is read in. -/
def State.symbolCode (b : Byte) (s : State) : Code := if s.acNext then .acSymbol b else .dcSymbol b

/-- The next symbol of the scan, its code consumed (43 R510). -/
def fetchSymbol (s : State) : Eff Instr :=
  (decodeSymbol s).bind fun b s => decoded (s.symbolCode b) s

/-- An iteration of the parse loop (42 R420, 48 R709 (b)): a marker, or the end of input. -/
def parseTurn (s : State) : Turn :=
  if s.inLenL.toNat ≤ s.pc.toNat then .answer (endOfInput s).outcome
  else .ofFetch (fetchMarker s)

/-- The next part of a macroblock (48 R702): an entropy item of the block in progress (44 R550), or what follows the block
once it is complete. -/
def itemTurn (s : State) : Turn :=
  if s.item.k < 64 then .ofFetch (fetchSymbol s)
  else .answer (afterBlock s).outcome

/-- A host move's turn: a write of CTRL with bit 0 set is the instruction HOST_START, every other move acts at once. -/
def hostTurn (mv : HostMove) (s : State) : Turn :=
  match mv with
  | .writeReg off v =>
    match decode (.hostWrite off v) with
    | .ok i => .run i s
    | .error _ => .answer (hostMove (.writeReg off v) s)
  | mv => .answer (hostMove mv s)

/-! ## Placing a table word as the next instruction (log 11) -/

/-- IN with the bytes `bs` from offset `a`, and zero bytes after them up to the longest segment (65537 bytes). -/
def placeBytes (a : Nat) (bs : List Byte) (m : Memory) : Memory :=
  let cleared := m.filter fun c => c.1 < a || a + 65537 ≤ c.1
  (bs.zipIdx a).foldl (fun m c => Memory.write m c.2 c.1) cleared

/-- The machine about to fetch the marker word `w` at `pc`, with the parser flags that let its code past the order check
(42 R430). -/
def placeMarker (w : Half) (s : State) : State :=
  let m := w.setWidth 8
  { s with
    hostMoves := []
    phase := .parse
    inMem := placeBytes s.pc.toNat [w.extractLsb' 8 8, m] s.inMem
    inLenL := BitVec.ofNat 32 (max s.inLenL.toNat (s.pc.toNat + 4))
    seenSoi := m ≠ 0xD8
    seenSof := if m = 0xDA then true else if m = 0xC0 then false else s.seenSof
    scanDone := if m = 0xD9 then true else if m = 0xDA ∨ m = 0xDB ∨ m = 0xC4 then false else s.scanDone }

/-- The machine about to fetch the AC symbol `b`: its table has the one code "0" for `b`, and the scan holds 16 zero bits, so
that the symbol has its code and its extra bits and no later lookup has its 16. -/
def placeAcSymbol (b : Byte) (s : State) : State :=
  { s with
    hostMoves := []
    phase := .decode
    item := { s.item with k := 1 }
    ht := s.ht.set true s.th [{ base := 0, len := 1, sym := b }]
    br := .zero
    scan := []
    scanLen := 2 }

/-- The machine about to take the host's write of `v` to CTRL. -/
def placeHostWrite (off : Nat) (v : Word) (s : State) : State :=
  { s with hostMoves := .writeReg off v :: s.hostMoves }

/-- The state whose next step fetches and runs the code word. -/
def placeCode (c : Code) (s : State) : State :=
  match c with
  | .marker w => placeMarker w s
  | .acSymbol b => placeAcSymbol b s
  | .hostWrite off v => placeHostWrite off v s
  | .scanPair _ | .dcSymbol _ => s

end Sys2Proof.Machine
end

