-- ==== Sys2Proof/Machine/Dispatch.lean ====
section
/-! DEFINITION. One arm per instruction: the meaning of each constructor of `Instr`. -/

namespace Sys2Proof.Machine

def exec (i : Instr) (s : State) : Host.Outcome State Fault Refusal :=
  match i with
  | .soi => Sys2Proof.Machine.execSoi s
  | .appn n => Sys2Proof.Machine.execAppn n s
  | .com => Sys2Proof.Machine.execCom s
  | .dqt => Sys2Proof.Machine.execDqt s
  | .dht => Sys2Proof.Machine.execDht s
  | .sof0 => Sys2Proof.Machine.execSof0 s
  | .sos => Sys2Proof.Machine.execSos s
  | .eoi => Sys2Proof.Machine.execEoi s
  | .unsupSof1to3 m => Sys2Proof.Machine.execUnsupSof1to3 m s
  | .unsupSof5to7 m => Sys2Proof.Machine.execUnsupSof5to7 m s
  | .unsupSof9to11 m => Sys2Proof.Machine.execUnsupSof9to11 m s
  | .unsupSof13to15 m => Sys2Proof.Machine.execUnsupSof13to15 m s
  | .unsupDac => Sys2Proof.Machine.execUnsupDac s
  | .unsupRst n => Sys2Proof.Machine.execUnsupRst n s
  | .unsupDnl => Sys2Proof.Machine.execUnsupDnl s
  | .unsupDri => Sys2Proof.Machine.execUnsupDri s
  | .unsupDhp => Sys2Proof.Machine.execUnsupDhp s
  | .unsupExp => Sys2Proof.Machine.execUnsupExp s
  | .unsupTem => Sys2Proof.Machine.execUnsupTem s
  | .unknown00 => Sys2Proof.Machine.execUnknown00 s
  | .unknownRes m => Sys2Proof.Machine.execUnknownRes m s
  | .unknownJpg => Sys2Proof.Machine.execUnknownJpg s
  | .unknownJpgn m => Sys2Proof.Machine.execUnknownJpgn m s
  | .unknownFill => Sys2Proof.Machine.execUnknownFill s
  | .scanStuff => Sys2Proof.Machine.execScanStuff s
  | .dcZero => Sys2Proof.Machine.execDcZero s
  | .dcDiff n => Sys2Proof.Machine.execDcDiff n s
  | .dcInvalid n => Sys2Proof.Machine.execDcInvalid n s
  | .eob => Sys2Proof.Machine.execEob s
  | .zrl => Sys2Proof.Machine.execZrl s
  | .acBadzero r => Sys2Proof.Machine.execAcBadzero r s
  | .acCoef r n => Sys2Proof.Machine.execAcCoef r n s
  | .acBadsize r n => Sys2Proof.Machine.execAcBadsize r n s
  | .hostStart v => Sys2Proof.Machine.execHostStart v s

end Sys2Proof.Machine
end

