-- ==== Sys2Proof/Machine/Engine.lean ====
section
/-! DEFINITION. The engine's steps (48 R709), and the step in which the next of the host's moves is taken (70 R927). -/

namespace Sys2Proof.Machine

/-- Do what a turn has found. -/
def Turn.outcome (t : Turn) : Host.Outcome State Fault Refusal :=
  match t with
  | .run i s => exec i s
  | .answer o => o

/-- One part of a macroblock: an entropy item, or what follows a complete block (44 R550, 48 R702). -/
def itemStep (s : State) : Host.Outcome State Fault Refusal := (itemTurn s).outcome

/-- No macroblock is in progress. -/
def State.atBoundary (s : State) : Bool := s.phase ≠ .decode || s.item = .start

/-- Parts of a macroblock until it is over, by its end or by an error; `fuel` bounds their number. -/
def itemsToBoundary : Nat → State → Host.Outcome State Fault Refusal
  | 0, s => .next s
  | fuel + 1, s =>
    match itemStep s with
    | .next t => if t.atBoundary then .next t else itemsToBoundary fuel t
    | .fault r => .fault r
    | .refused r => .refused r

/-- The parts a macroblock can have: for each of six blocks one DC item, at most 63 AC items (44 R562), and what follows
the block. -/
def macroblockItems : Nat := 6 * (1 + 63 + 1)

/-- One engine step (48 R709): in PARSE an iteration of the parse loop (b), in DECODE a whole macroblock (d); in the other
phases the engine has no enabled step (log 6). -/
def engineStep (s : State) : Host.Outcome State Fault Refusal :=
  match s.phase with
  | .parse => (parseTurn s).outcome
  | .decode => itemsToBoundary macroblockItems s
  | .idle | .done | .error => .refused .noStepEnabled

/-- The step that takes the host's move `mv`, gone from `hostMoves` already: a yield is the engine's step where it has one
(70 R927, log 5), and every other move, and a yield where it has none, is the host's. -/
def hostStep (mv : HostMove) (s : State) : Host.Outcome State Fault Refusal :=
  if mv = .engine ∧ s.busy = true then engineStep s else (hostTurn mv s).outcome

end Sys2Proof.Machine
end

