-- ==== Sys2Proof/Machine/Step.lean ====
section
/-! DEFINITION. One step, and the state whose next step runs a given table word. -/

namespace Sys2Proof.Machine

/-- One step of the machine: the first of the host's moves, or where none is pending an engine step of 48 R709 (70 R927,
log 5). -/
def step (s : State) : Host.Outcome State Fault Refusal :=
  match s.hostMoves with
  | [] => engineStep s
  | mv :: rest => hostStep mv { s with hostMoves := rest }

/-- The state whose next step fetches and runs the table word `w` of `nbits` bits (log 11). -/
def State.withFetchWord (s : State) (nbits w : Nat) : State :=
  match tableCode nbits w with
  | some c => placeCode c s
  | none => s

end Sys2Proof.Machine
end

