-- ==== Sys2Proof/Machine/Views.lean ====
section
/-! DEFINITION. Ways to read a state that the spec's rules use and that the step does not compute: the parser at an
offset, the bits of SCAN in transmission order (20 R205), and the position of the bit reader (41 R405). -/

namespace Sys2Proof.Machine

/-- The state with the parser cursor at `p` (10 R101). -/
def State.atPc (p : Nat) (s : State) : State := { s with pc := BitVec.ofNat 32 p }

/-- Bit `i` of a byte memory in transmission order: byte `i div 8`, most significant bit first (20 R205). -/
def Memory.bit (m : Memory) (i : Nat) : Nat := (m.read (i / 8)).toNat / 2 ^ (7 - i % 8) % 2

/-- The `n` bits from bit `p` on as a number, the first one most significant (20 R205). -/
def Memory.bits (m : Memory) (p : Nat) : Nat → Nat
  | 0 => 0
  | n + 1 => m.bits p n * 2 + m.bit (p + n)

/-- The bits of SCAN consumed so far (41 R405). -/
def State.consumed (s : State) : Nat := 8 * s.br.pos.toNat - s.br.cnt

/-- The bytes that `peek(n)` loads (41 R401). -/
def State.refills (n : Nat) (s : State) : Nat := (n - s.br.cnt + 7) / 8

/-- SCAN holds the bytes that `peek(n)` loads. -/
abbrev State.hasBits (n : Nat) (s : State) : Prop := s.br.pos.toNat + s.refills n ≤ s.scanLen.toNat

/-- The reader that has loaded `pos` bytes of SCAN and still holds `cnt` bits of them (41 R400). -/
def readerAt (scan : Memory) (pos cnt : Nat) : BitReader :=
  { acc := BitVec.ofNat 32 (scan.readBE 0 pos % 2 ^ cnt), cnt := cnt, pos := BitVec.ofNat 32 pos }

/-- The reader after `r` bytes were loaded and `n` bits consumed (41 R401, R402). -/
def State.readerAfter (r n : Nat) (s : State) : BitReader :=
  readerAt s.scan (s.br.pos.toNat + r) (s.br.cnt + 8 * r - n)

/-- The reader's invariant: 41 R400, with the accumulator's bits those of SCAN. -/
structure State.ReaderOk (s : State) : Prop where
  cnt : s.br.cnt ≤ 23
  pos : s.br.pos.toNat ≤ s.scanLen.toNat
  held : s.br.cnt ≤ 8 * s.br.pos.toNat
  bits : s.br.acc.toNat = s.scan.readBE 0 s.br.pos.toNat % 2 ^ s.br.cnt

/-- The code length of each symbol, in the order of the symbols, from the counts of the lengths `l`, `l + 1`, ... (30
R304). -/
def lengthsFrom (l : Nat) : List Byte → List Nat
  | [] => []
  | c :: cs => List.replicate c.toNat l ++ lengthsFrom (l + 1) cs

/-- The canonical codes of a list of code lengths, after a code `c - 1` of length `l`: codes of one length are
consecutive, and the running value doubles for each longer length (43 R502). -/
def codesFrom (c l : Nat) : List Nat → List Nat
  | [] => []
  | l' :: ls => c * 2 ^ (l' - l) :: codesFrom (c * 2 ^ (l' - l) + 1) l' ls

/-- The data bytes of an entropy-coded segment with stuffing removed, and how many bytes it takes up to the marker that
ends it; none where the input ends with a lone 0xFF (42 R450). -/
def destuffed : List Byte → Option (List Byte × Nat)
  | [] => some ([], 0)
  | [b] => if b = 0xFF then none else some ([b], 1)
  | b :: c :: rest =>
    if b ≠ 0xFF then (destuffed (c :: rest)).map fun r => (b :: r.1, r.2 + 1)
    else if c = 0 then (destuffed rest).map fun r => (0xFF :: r.1, r.2 + 2)
    else some ([], 0)

/-- The bytes of IN from offset `a`. -/
def State.inBytes (a n : Nat) (s : State) : List Byte := (List.range n).map fun j => s.inMem.read (a + j)

end Sys2Proof.Machine
end

