-- ==== Sys2Proof/Safety.lean ====
section
/-! DEFINITION. What counts as a safe run: the invariant of the machine, from the ranges the spec gives its state, and the
outcomes a safe step has. -/

namespace Sys2Proof.Machine

/-- A lookup table as `build_table` leaves it: codes of 1 to 16 bits at their own alignment inside the 65536 entries, each
fill after the older ones (43 R500, R505). In this form two tables with equal entries are equal lists. -/
abbrev HuffTable.wf (t : HuffTable) : Prop :=
  (∀ f ∈ t, 1 ≤ f.len ∧ f.len ≤ 16 ∧ f.base % 2 ^ (16 - f.len) = 0 ∧ f.base + 2 ^ (16 - f.len) ≤ 65536) ∧
  t.Pairwise fun new old => old.base + 2 ^ (16 - old.len) ≤ new.base

/-- The frame header holds accepted values, and the grid and the result registers are those it determines (10 R105,
R113, R133, R134). -/
structure FrameOk (s : State) : Prop where
  precision : s.fh.p = 8
  height : s.fh.y ≠ 0
  width : s.fh.x ≠ 0
  components : s.fh.nf = 3
  sampling : s.fh.hv = #v[0x22, 0x11, 0x11]
  slots : ∀ i : Fin 3, s.fh.tq[i].toNat ≤ 3
  cols : s.seq.cols.toNat = ceil16 s.fh.x.toNat
  rows : s.seq.rows.toNat = ceil16 s.fh.y.toNat
  widthReg : s.regs.width = s.fh.x
  heightReg : s.regs.height = s.fh.y
  strideReg : s.regs.stride.toNat = strideOf s.seq.cols.toNat
  outLenReg : s.regs.outLen.toNat = outLenOf s.seq.cols.toNat s.seq.rows.toNat

/-- The invariant of the machine inside a step: it holds after every part of a macroblock too. -/
structure State.ItemInv (s : State) : Prop where
  /-- The parameters meet their constraints (00 R10, 20 R214). -/
  params : s.params.wf
  /-- IN, OUT and SCAN keep their canonical form inside their capacities (20 R200). -/
  inMem : s.inMem.wf ∧ s.inMem.below s.params.inMemBytes
  outMem : s.outMem.wf ∧ s.outMem.below s.params.outMemBytes
  scan : s.scan.wf ∧ s.scan.below s.params.scanMemBytes
  /-- `SCAN_LEN ≤ SCAN_MEM_BYTES` (10 R109). -/
  scanLen : s.scanLen.toNat ≤ s.params.scanMemBytes
  /-- The BitReader's invariant (41 R400). -/
  reader : s.ReaderOk
  /-- The four lookup tables (43 R505). -/
  tables : ∀ tc th, (s.ht.get tc th).wf
  /-- The block in progress: `k ≤ 64` (44 R562), and none outside DECODE. -/
  itemK : s.item.k ≤ 64
  itemRest : s.phase ≠ .decode → s.item = .start
  /-- `ERR_CODE` is 1..5 in ERROR and the record is clear otherwise (10 R129, 48 R750). -/
  errSet : s.phase = .error → 1 ≤ s.err.code.toNat ∧ s.err.code.toNat ≤ 5
  errClear : s.phase ≠ .error → s.err = .zero
  /-- The parser flags follow the marker order (42 R430). -/
  sofAfterSoi : s.seenSof = true → s.seenSoi = true
  scanAfterSof : s.scanDone = true → s.seenSof = true
  /-- An accepted frame header (10 R105). -/
  frame : s.seenSof = true → FrameOk s
  /-- The slots the frame names are loaded once the scan is accepted (42 R446, 45 R602). -/
  slotsLoaded : s.scanDone = true → ∀ i : Fin 3, s.slotLoaded s.fh.tq[i] = true
  /-- While BUSY the input fits and `pc` is inside it (10 R101, 60 R811). -/
  input : s.busy = true → s.inLenL.toNat ≤ s.params.inMemBytes ∧ s.pc.toNat ≤ s.inLenL.toNat
  /-- While BUSY an accepted frame fits OUT (60 R812). -/
  output : s.busy = true → s.seenSof = true → s.regs.outLen.toNat ≤ s.params.outMemBytes
  /-- Before the scan, SCAN is empty (48 R750). -/
  scanEmpty : s.phase = .parse → s.scanDone = false → s.scanLen = 0
  /-- In DECODE the scan is there and the macroblock is in the grid (10 R113). -/
  decoding : s.phase = .decode →
    s.scanDone = true ∧ s.seq.x.toNat < s.seq.cols.toNat ∧ s.seq.y.toNat < s.seq.rows.toNat

/-- The invariant of the machine between steps: no macroblock is in progress (48 R709 (d)). -/
structure State.Inv (s : State) : Prop extends s.ItemInv where
  itemStart : s.item = .start

/-- A step that attempts no access the block may not make (70 R924). -/
def noFault : Host.Outcome State Fault Refusal → Prop
  | .next _ => True
  | .fault _ => False
  | .refused _ => True

/-- The blocks of component `c` decoded so far in this scan, the one in progress counted once its DC item is done. -/
def State.blocksDone (c : Fin 3) (s : State) : Nat :=
  let whole := s.seq.y.toNat * s.seq.cols.toNat + s.seq.x.toNat
  let here := s.item.blk.val + (if s.item.k = 0 then 0 else 1)
  match c with
  | 0 => 4 * whole + min here 4
  | 1 => whole + min (here - 4) 1
  | 2 => whole + min (here - 5) 1

/-- The predictors are within 2047 for each block of their component, so no sum of 44 R552 overflows (10 R121). -/
def State.predictorsBounded (s : State) : Prop :=
  s.phase = .decode → ∀ c : Fin 3, (s.pred[c]).toInt.natAbs ≤ 2047 * s.blocksDone c

end Sys2Proof.Machine
end

