-- ==== Sys2Proof/Certificates/Slice0/Obligations.lean ====
section
/-! DEFINITION. The statements for the provers, with the few words of the spec they need. -/

namespace Sys2Proof.Claims

open Sys2Proof.Machine

/-! ## Words of the statements -/

/-- The marker `FF m` of a segment begins the instruction. -/
abbrev hasCode (i : Instr) (m : Byte) : Prop := i.wf = true ∧ encode i = .marker (markerWord 0xFF m)

/-- `L` of the segment whose marker is at `pc` (30 R320, 42 R425). -/
def segLen (s : State) : Nat :=
  (s.inMem.read (s.pc.toNat + 2)).toNat * 256 + (s.inMem.read (s.pc.toNat + 3)).toNat

/-- `seg_end` of the segment whose marker is at `pc` (42 R425). -/
def segEnd (s : State) : Nat := s.pc.toNat + 2 + segLen s

/-- The three checks of `seg_header()` pass (42 R425). -/
abbrev headerFits (s : State) : Prop :=
  s.pc.toNat + 4 ≤ s.inLenL.toNat ∧ 2 ≤ segLen s ∧ segEnd s ≤ s.inLenL.toNat

/-- Byte `j` after the marker's 0xFF. -/
abbrev at_ (s : State) (j : Nat) : Byte := s.inMem.read (s.pc.toNat + j)

/-- The component of a block (48 R704). -/
def component (b : Fin 6) : Fin 3 := if b.val ≤ 3 then 0 else if b.val = 4 then 1 else 2

/-- The Huffman class of a block: 0 for luma, 1 for chroma (48 R704). -/
def classOf (b : Fin 6) : Nat := if b.val ≤ 3 then 0 else 1

/-- What a phase-2 error records, at SCAN offset `o`, for a table byte (60 R802 rows 37 to 43). -/
def corrupt (s : State) (o : Nat) (table : Nat) : State :=
  { s with
    err := { code := 4, offset := BitVec.ofNat 32 o, marker := 0, table := BitVec.ofNat 9 (0x100 + table) }
    phase := .error
    item := .start }

/-- What a phase-1 error records: kind, IN offset, marker code, table byte if any (60 R802 rows 2 to 36). -/
def rejected (s : State) (code : BitVec 3) (o : Nat) (m : Byte) (t : Option Byte) : State :=
  { s with
    err :=
      { code := code, offset := BitVec.ofNat 32 o, marker := m
        table := match t with
          | none => 0
          | some b => BitVec.ofNat 9 (0x100 + b.toNat) }
    phase := .error
    item := .start }

/-- Nearest integer to a rational, halves away from zero (00 R16). -/
def roundQ (q : ℚ) : ℤ := if 0 ≤ q then ⌊q + 1 / 2⌋ else -⌊-q + 1 / 2⌋

/-- Nearest integer to a real, halves away from zero (00 R16). -/
noncomputable def roundR (r : ℝ) : ℤ := if 0 ≤ r then ⌊r + 1 / 2⌋ else -⌊-r + 1 / 2⌋

/-- The basis matrix (46 R620). -/
noncomputable def basis (y x : Fin 8) : ℝ :=
  Real.sqrt (if y.val = 0 then 1 / 8 else 1 / 4) * Real.cos ((2 * (x.val : ℝ) + 1) * (y.val : ℝ) * Real.pi / 16)

/-- Row `y`, column `x` of a block (46 R621). -/
abbrev cell (b : Block) (y x : Fin 8) : Int := (b[8 * y.val + x.val]'(by omega)).toInt

/-- `F[y][x]` of a block, in exact real arithmetic (46 R621). -/
noncomputable def exactSample (b : Block) (y x : Fin 8) : ℝ :=
  ∑ v : Fin 8, ∑ u : Fin 8, basis v y * (cell b v u : ℝ) * basis u x

/-! ### Table specifications -/

/-- The quantization store `q` is `s`'s after the `n` specifications of 65 bytes at IN offset `a`: a slot that none names
is unchanged, and a slot holds, de-zigzagged, the values of the last one that names it (42 R434 to R436). -/
abbrev dqtLoaded (s : State) (a n : Nat) (q : QuantStore) : Prop :=
  ∀ t : Fin 4,
    ((∀ j < n, (s.inMem.read (a + 65 * j)).toNat ≠ t.val) →
      q.vals[t] = s.qt.vals[t] ∧ q.valid[t] = s.qt.valid[t]) ∧
    (∀ j < n, (s.inMem.read (a + 65 * j)).toNat = t.val →
      (∀ j' < n, j < j' → (s.inMem.read (a + 65 * j')).toNat ≠ t.val) →
      q.valid[t] = true ∧ ∀ k : Fin 64, (q.vals[t])[zz k] = s.inMem.read (a + 65 * j + 1 + k.val))

/-- A DHT table specification (30 R304). -/
structure DhtSpec where
  tc : Bool
  th : Bool
  counts : List Byte
  symbols : List Byte
deriving DecidableEq, Repr

/-- The TcTh byte. -/
def DhtSpec.byte (d : DhtSpec) : Byte := BitVec.ofNat 8 ((if d.tc then 16 else 0) + if d.th then 1 else 0)

/-- The specification as the bytes of the segment (30 R304). -/
def DhtSpec.bytes (d : DhtSpec) : List Byte := d.byte :: (d.counts ++ d.symbols)

/-- The code length of each symbol, in the order of the symbols: `CNT[1]` ones, then `CNT[2]` twos, and so on. -/
def DhtSpec.lengths (d : DhtSpec) : List Nat := lengthsFrom 1 d.counts

/-- The canonical codes; the first code is 0 (43 R502). -/
def DhtSpec.codes (d : DhtSpec) : List Nat := codesFrom 0 0 d.lengths

/-- There are 16 counts and as many symbols as they sum to. -/
abbrev DhtSpec.complete (d : DhtSpec) : Prop :=
  d.counts.length = 16 ∧ d.symbols.length = (d.counts.map (·.toNat)).sum

/-- Every code fits its length (43 R503). -/
abbrev DhtSpec.fits (d : DhtSpec) : Prop := ∀ p ∈ d.codes.zip d.lengths, p.1 < 2 ^ p.2

/-- The table content law (43 R505). -/
abbrev DhtSpec.law (d : DhtSpec) (t : HuffTable) : Prop :=
  ∀ idx < 65536,
    (∀ (j l c : Nat) (v : Byte), d.lengths[j]? = some l → d.codes[j]? = some c → d.symbols[j]? = some v →
      idx / 2 ^ (16 - l) = c → t.entry idx = (l, v)) ∧
    ((∀ (j l c : Nat), d.lengths[j]? = some l → d.codes[j]? = some c → idx / 2 ^ (16 - l) ≠ c) →
      t.entry idx = (0, 0))

/-- The table (tc, th) of `h` is that of `s` after the specifications `ds`: unchanged where none names it, otherwise the
table of the last one that does (43 R501). -/
abbrev dhtBuilt (s : State) (ds : List DhtSpec) (h : HuffStore) (tc th : Bool) : Prop :=
  ((∀ d ∈ ds, ¬(d.tc = tc ∧ d.th = th)) → h.get tc th = s.ht.get tc th) ∧
  ∀ (before : List DhtSpec) (d : DhtSpec) (after : List DhtSpec), ds = before ++ d :: after →
    d.tc = tc → d.th = th → (∀ d' ∈ after, ¬(d'.tc = tc ∧ d'.th = th)) → d.law (h.get tc th)

/-! ### Headers -/

/-- A check of a header rule: whether it fails, and what it then raises (code, offset after mpos, table byte). -/
structure Check where
  fails : Bool
  code : BitVec 3
  off : Nat
  table : Option Byte
deriving DecidableEq, Repr

/-- A field of `n` bytes at offset `j` after mpos is outside its segment (42 R425). -/
def Check.field (s : State) (j n : Nat) : Check := ⟨segLen s + 2 < j + n, 1, j, none⟩

/-- The checks of SOF0 after the segment header, in field order (42 R440). -/
def sof0Checks (s : State) : List Check := [
  .field s 4 1, ⟨at_ s 4 ≠ 8, 2, 4, none⟩,
  .field s 5 2, ⟨at_ s 5 = 0 ∧ at_ s 6 = 0, 2, 5, none⟩,
  .field s 7 2, ⟨at_ s 7 = 0 ∧ at_ s 8 = 0, 1, 7, none⟩,
  .field s 9 1, ⟨at_ s 9 ≠ 3, 2, 9, none⟩,
  ⟨segLen s ≠ 17, 1, 2, none⟩,
  ⟨at_ s 11 ≠ 0x22, 2, 11, none⟩, ⟨3 < (at_ s 12).toNat, 1, 12, some (at_ s 12)⟩,
  ⟨at_ s 14 ≠ 0x11, 2, 14, none⟩, ⟨3 < (at_ s 15).toNat, 1, 15, some (at_ s 15)⟩,
  ⟨at_ s 17 ≠ 0x11, 2, 17, none⟩, ⟨3 < (at_ s 18).toNat, 1, 18, some (at_ s 18)⟩]

/-- The checks of SOS after the segment header, in field order, then the loaded slots (42 R445, R446). -/
def sosChecks (s : State) : List Check := [
  .field s 4 1, ⟨at_ s 4 ≠ 3, 2, 4, none⟩,
  ⟨segLen s ≠ 12, 1, 2, none⟩,
  ⟨at_ s 5 ≠ s.fh.c[0], 1, 5, none⟩, ⟨at_ s 6 ≠ 0x00, 2, 6, some (at_ s 6)⟩,
  ⟨at_ s 7 ≠ s.fh.c[1], 1, 7, none⟩, ⟨at_ s 8 ≠ 0x11, 2, 8, some (at_ s 8)⟩,
  ⟨at_ s 9 ≠ s.fh.c[2], 1, 9, none⟩, ⟨at_ s 10 ≠ 0x11, 2, 10, some (at_ s 10)⟩,
  ⟨at_ s 11 ≠ 0, 2, 11, none⟩, ⟨at_ s 12 ≠ 63, 2, 12, none⟩,
  ⟨¬s.slotLoaded s.fh.tq[0], 1, 0, some s.fh.tq[0]⟩,
  ⟨¬s.slotLoaded s.fh.tq[1], 1, 0, some s.fh.tq[1]⟩,
  ⟨¬s.slotLoaded s.fh.tq[2], 1, 0, some s.fh.tq[2]⟩]

/-- The first check that fails. -/
def firstFailure (cs : List Check) : Option Check := cs.find? (·.fails)

/-- The state once SOF0's fields are accepted: header, grid, result registers and flag (42 R440, 10 R133). -/
def frameCommitted (s : State) : State :=
  let x := (at_ s 7).toNat * 256 + (at_ s 8).toNat
  let y := (at_ s 5).toNat * 256 + (at_ s 6).toNat
  let cols := (x + 15) / 16
  let rows := (y + 15) / 16
  { s with
    fh :=
      { p := at_ s 4, y := BitVec.ofNat 16 y, x := BitVec.ofNat 16 x, nf := at_ s 9
        c := #v[at_ s 10, at_ s 13, at_ s 16]
        hv := #v[at_ s 11, at_ s 14, at_ s 17]
        tq := #v[at_ s 12, at_ s 15, at_ s 18] }
    seq := { s.seq with cols := BitVec.ofNat 16 cols, rows := BitVec.ofNat 16 rows }
    regs :=
      { s.regs with
        width := BitVec.ofNat 16 x, height := BitVec.ofNat 16 y
        stride := BitVec.ofNat 32 (48 * cols), outLen := BitVec.ofNat 64 (48 * cols * rows * 16) }
    seenSof := true
    pc := BitVec.ofNat 32 (s.pc.toNat + 19) }

/-- The state once SOS's fields are accepted: header and cursor (42 R445). -/
def scanHeaderCommitted (s : State) : State :=
  { s with
    sh :=
      { ns := at_ s 4
        cs := #v[at_ s 5, at_ s 7, at_ s 9]
        tda := #v[at_ s 6, at_ s 8, at_ s 10]
        ss := at_ s 11, se := at_ s 12, ahal := at_ s 13 }
    pc := BitVec.ofNat 32 (s.pc.toNat + 14) }

/-- The bytes of IN from the end of the SOS segment on. -/
def scanBytes (s : State) : List Byte := s.inBytes (s.pc.toNat + 14) (s.inLenL.toNat - (s.pc.toNat + 14))

/-! ### Phase 2 -/

/-- Phase 2 begins (48 R701). -/
def phase2 (s : State) : State :=
  { s with
    phase := .decode
    br := { acc := 0, cnt := 0, pos := 0 }
    pred := #v[0, 0, 0]
    seq := { s.seq with x := 0, y := 0 }
    item := ⟨0, 0⟩ }

/-- The block of a DC item with predictor `v`, all AC positions 0 (44 R552, R553). -/
def dcOnly (v : S64) : Block := (Vector.replicate 64 0).set 0 v

/-- The state after a DC difference `d` (44 R552, R553). -/
def dcDone (s : State) (d : Int) : State :=
  let c := component s.item.blk
  { s with
    pred := s.pred.set c (s.pred[c] + BitVec.ofInt 64 d)
    blk := s.blk.set s.item.blk (dcOnly (s.pred[c] + BitVec.ofInt 64 d))
    item := ⟨s.item.blk, 1⟩ }

/-- Block `b` of the state dequantized with its component's slot, then transformed (45 R600, R601, 46 R621). -/
def samples (s : State) (b : Fin 6) : Block :=
  idctBlock (dequantBlock (s.qt.vals.toArray.getD (s.fh.tq[component b]).toNat QuantSlot.zero) s.blk[b])

/-- A colour channel from its exact value (47 R654). -/
def channelOf (q : ℚ) : Byte := BitVec.ofInt 8 (min (max (roundQ q) 0) 255)

/-- Pixel (x, y) of a macroblock from its six sample blocks, in the byte order `bgr` selects (47 R650, R652 to R658). -/
def pixelBytes (f : Fin 6 → Block) (bgr : Bool) (x y : Fin 16) : List Byte :=
  let l : Int := ((f ⟨y.val / 8 * 2 + x.val / 8, by omega⟩)[8 * (y.val % 8) + x.val % 8]'(by omega)).toInt
  let cb : Int := ((f 4)[8 * (y.val / 2) + x.val / 2]'(by omega)).toInt
  let cr : Int := ((f 5)[8 * (y.val / 2) + x.val / 2]'(by omega)).toInt
  let r := channelOf (((l : ℚ) + 128) + 1402 / 1000 * cr)
  let g := channelOf (((l : ℚ) + 128) - 344 / 1000 * cb - 714 / 1000 * cr)
  let b := channelOf (((l : ℚ) + 128) + 1772 / 1000 * cb)
  if bgr then [b, g, r] else [r, g, b]

/-- The OUT offset of pixel (x, y) of macroblock (mx, my) (47 R651). -/
def pixelAt (stride mx my : Nat) (x y : Fin 16) : Nat := (16 * my + y.val) * stride + 3 * (16 * mx + x.val)

/-- OUT after a macroblock: its pixels at their places, every other byte as before (47 R650, R651). -/
abbrev macroblockWritten (m m' : Memory) (stride mx my : Nat) (px : Fin 16 → Fin 16 → List Byte) : Prop :=
  (∀ (x y : Fin 16) (j : Nat) (b : Byte), (px x y)[j]? = some b → m'.read (pixelAt stride mx my x y + j) = b) ∧
  ∀ a, (∀ x y : Fin 16, a < pixelAt stride mx my x y ∨ pixelAt stride mx my x y + 3 ≤ a) → m'.read a = m.read a

/-- The next macroblock in raster order, or the end of the image (48 R702, R703). -/
def advanced (s : State) : State :=
  if s.seq.x.toNat + 1 < s.seq.cols.toNat then
    { s with seq := { s.seq with x := s.seq.x + 1 }, item := ⟨0, 0⟩ }
  else if s.seq.y.toNat + 1 < s.seq.rows.toNat then
    { s with seq := { s.seq with x := 0, y := s.seq.y + 1 }, item := ⟨0, 0⟩ }
  else { s with phase := .done, item := ⟨0, 0⟩ }

/-- The state with other values in the registers the host may write while BUSY, and in the host's last answer. -/
def hostSide (n : Word) (bgr : Bool) (r : Word) (s : State) : State :=
  { s with regs := { s.regs with inLen := n, ctrlBgr := bgr }, rdata := r }

/-- An outcome with its next state changed. -/
def mapNext (f : State → State) : Host.Outcome State Fault Refusal → Host.Outcome State Fault Refusal
  | .next t => .next (f t)
  | .fault r => .fault r
  | .refused r => .refused r

end Sys2Proof.Claims

open Sys2Proof Sys2Proof.Machine Sys2Proof.Claims

/-! ## Encodings -/

/-- Decoding the encoding of a well-formed instruction gives it back, every operand at every value (tables of 30 R340 to
R342, 48 R750). -/
def Obligations.DecodeOfEncodeIsIdentity : Prop :=
  ∀ i : Instr, i.wf = true → decode (encode i) = .ok i

/-- A code word that decodes is the encoding of a well-formed instruction: no encoding is read as a neighbour's. -/
def Obligations.DecodedInstrEncodesBack : Prop :=
  ∀ (c : Code) (i : Instr), decode c = .ok i → i.wf = true ∧ encode i = c

/-- The container map: every one of the 256 marker codes has its instruction (30 R340). -/
def Obligations.MarkerCodeMap : Prop :=
  ∀ m : Byte,
    let is (i : Instr) : Prop := decode (.marker (markerWord 0xFF m)) = .ok i
    (m = 0xD8 → is .soi) ∧ (∀ n : BitVec 4, m = 0xE#4 ++ n → is (.appn n)) ∧ (m = 0xFE → is .com) ∧
    (m = 0xDB → is .dqt) ∧ (m = 0xC4 → is .dht) ∧ (m = 0xC0 → is .sof0) ∧ (m = 0xDA → is .sos) ∧ (m = 0xD9 → is .eoi) ∧
    (0xC1 ≤ m ∧ m ≤ 0xC3 → is (.unsupSof1to3 m)) ∧ (0xC5 ≤ m ∧ m ≤ 0xC7 → is (.unsupSof5to7 m)) ∧
    (0xC9 ≤ m ∧ m ≤ 0xCB → is (.unsupSof9to11 m)) ∧ (0xCD ≤ m ∧ m ≤ 0xCF → is (.unsupSof13to15 m)) ∧
    (m = 0xCC → is .unsupDac) ∧ (∀ n : BitVec 3, m = 0x1A#5 ++ n → is (.unsupRst n)) ∧
    (m = 0xDC → is .unsupDnl) ∧ (m = 0xDD → is .unsupDri) ∧ (m = 0xDE → is .unsupDhp) ∧ (m = 0xDF → is .unsupExp) ∧
    (m = 0x01 → is .unsupTem) ∧ (m = 0x00 → is .unknown00) ∧ (0x02 ≤ m ∧ m ≤ 0xBF → is (.unknownRes m)) ∧
    (m = 0xC8 → is .unknownJpg) ∧ (0xF0 ≤ m ∧ m ≤ 0xFD → is (.unknownJpgn m)) ∧ (m = 0xFF → is .unknownFill)

/-- The entropy maps: every DC symbol and every AC symbol has its instruction (30 R341, R342). -/
def Obligations.EntropySymbolMaps : Prop :=
  (∀ b : Byte,
    (b = 0x00 → decode (.dcSymbol b) = .ok .dcZero) ∧
    (0x01 ≤ b ∧ b ≤ 0x0B → decode (.dcSymbol b) = .ok (.dcDiff b)) ∧
    (0x0C ≤ b → decode (.dcSymbol b) = .ok (.dcInvalid b))) ∧
  ∀ r s : BitVec 4,
    (r = 0 ∧ s = 0 → decode (.acSymbol (r ++ s)) = .ok .eob) ∧
    (r = 15 ∧ s = 0 → decode (.acSymbol (r ++ s)) = .ok .zrl) ∧
    (1 ≤ r ∧ r ≤ 14 ∧ s = 0 → decode (.acSymbol (r ++ s)) = .ok (.acBadzero r)) ∧
    (1 ≤ s ∧ s ≤ 10 → decode (.acSymbol (r ++ s)) = .ok (.acCoef r s)) ∧
    (11 ≤ s → decode (.acSymbol (r ++ s)) = .ok (.acBadsize r s))

/-- Words written out bit by bit from the spec's encodings decode to their instructions (30 R300, R307 to R309, 48 R750). -/
def Obligations.WrittenWordsDecode : Prop :=
  decode (.marker 0b1111111111011000) = .ok .soi ∧
  decode (.marker 0b1111111111100011) = .ok (.appn 3) ∧
  decode (.marker 0b1111111111011101) = .ok .unsupDri ∧
  decode (.marker 0b1111111111111111) = .ok .unknownFill ∧
  decode (.marker 0b0000000011011001) = .error .notALeadByte ∧
  decode (.scanPair 0b1111111100000000) = .ok .scanStuff ∧
  decode (.scanPair 0b1111111111011001) = .error .notStuffed ∧
  decode (.dcSymbol 0b00001011) = .ok (.dcDiff 11) ∧
  decode (.acSymbol 0b00100011) = .ok (.acCoef 2 3) ∧
  decode (.hostWrite 0 0b00000000000000000000000000000011) = .ok (.hostStart 3)

/-! ## A step runs the decoded instruction -/

/-- In PARSE, a step with `FF M` at `pc` runs the instruction of M, `pc` still at the 0xFF (42 R420). -/
def Obligations.StepRunsMarkerAtPc : Prop :=
  ∀ s : State, s.hostMoves = [] → s.phase = .parse → s.pc.toNat + 1 < s.inLenL.toNat → at_ s 0 = 0xFF →
    ∃ i, decode (.marker (markerWord 0xFF (at_ s 1))) = .ok i ∧ step s = exec i s

/-- A DECODE step is a macroblock's parts one after the other, up to its end or an error (48 R702, R709 (d)). A part with
an item still to come looks the next 16 bits of SCAN up in the table of the item (DC for the first, AC after it, the class
of the block), consumes the code it finds, and runs the symbol's instruction; an unpopulated entry and an exhausted SCAN
are corrupt (43 R510, R512, 41 R401). -/
def Obligations.StepRunsSymbolAfterLookup : Prop :=
  ∀ s : State, s.phase = .decode →
    (s.hostMoves = [] →
      step s = match itemStep s with
        | .next t => if t.atBoundary then .next t else step t
        | .fault r => .fault r
        | .refused r => .refused r) ∧
    (s.item.k < 64 → s.ReaderOk → (∀ tc th, ∀ f ∈ s.ht.get tc th, 1 ≤ f.len ∧ f.len ≤ 16) →
      let tc : Bool := s.item.k ≠ 0
      let th := classOf s.item.blk
      let e := (s.ht.get tc (th = 1)).entry (s.scan.bits s.consumed 16)
      let tbl := (if tc then 16 else 0) + th
      (s.hasBits 16 → e.1 ≠ 0 →
        ∃ i, decode (if tc then .acSymbol e.2 else .dcSymbol e.2) = .ok i ∧
          itemStep s = exec i { s with br := s.readerAfter (s.refills 16) e.1 }) ∧
      (s.hasBits 16 → e.1 = 0 →
        itemStep s =
          .next (corrupt { s with br := s.readerAfter (s.refills 16) 0 } (s.br.pos.toNat + s.refills 16) tbl)) ∧
      (¬s.hasBits 16 →
        itemStep s = .next
          (corrupt { s with br := s.readerAfter (s.scanLen.toNat - s.br.pos.toNat) 0 } s.scanLen.toNat tbl)))

/-- A host write of CTRL with bit 0 set runs HOST_START (48 R750, 70 R920 H4). -/
def Obligations.StepRunsHostStart : Prop :=
  ∀ (s : State) (v : Word) (rest : List HostMove), s.hostMoves = .writeReg 0x00 v :: rest → v.getLsbD 0 = true →
    step s = exec (.hostStart v) { s with hostMoves := rest }

/-- A PARSE step with no marker at `pc`: a byte other than 0xFF, a lone 0xFF at the end, and the end of input with and
without an extracted scan (42 R420, R429, R453, 48 R701). -/
def Obligations.ParseStepWithoutMarker : Prop :=
  ∀ s : State, s.hostMoves = [] → s.phase = .parse →
    (s.inLenL.toNat ≤ s.pc.toNat → s.scanDone = true → step s = .next (phase2 s)) ∧
    (s.inLenL.toNat ≤ s.pc.toNat → s.scanDone = false → step s = .next (rejected s 1 s.inLenL.toNat 0 none)) ∧
    (s.pc.toNat < s.inLenL.toNat → at_ s 0 ≠ 0xFF → step s = .next (rejected s 1 s.pc.toNat 0 none)) ∧
    (s.pc.toNat + 1 = s.inLenL.toNat → step s = .next (rejected s 1 s.pc.toNat 0 none))

/-! ## Reset and the host interface -/

/-- The state after reset, for every machine: each value the reset table states (10 R140). -/
def Obligations.ResetTable : Prop :=
  ∀ p : Params,
    let s := State.resetWith p
    s.phase = .idle ∧ s.pc = 0 ∧ s.inLenL = 0 ∧ s.bgrL = false ∧
    s.seenSoi = false ∧ s.seenSof = false ∧ s.scanDone = false ∧
    s.fh = ⟨0, 0, 0, 0, #v[0, 0, 0], #v[0, 0, 0], #v[0, 0, 0]⟩ ∧ s.sh = ⟨0, #v[0, 0, 0], #v[0, 0, 0], 0, 0, 0⟩ ∧
    (∀ (t : Fin 4) (i : Fin 64), (s.qt.vals[t])[i] = 0 ∧ s.qt.valid[t] = false) ∧
    (∀ (tc th : Bool) (idx : Nat), (s.ht.get tc th).entry idx = (0, 0)) ∧
    s.scanLen = 0 ∧ s.br = ⟨0, 0, 0⟩ ∧ (∀ c : Fin 3, s.pred[c] = 0) ∧ s.seq = ⟨0, 0, 0, 0⟩ ∧
    s.err = ⟨0, 0, 0, 0⟩ ∧ s.regs = ⟨false, 0, 0, 0, 0, 0⟩ ∧ ∀ off, s.readReg off = 0

/-- An asserted reset puts the machine in its reset state from every state, recording no error (70 R900). The parameters
and the host's remaining moves stay, IN, OUT, SCAN and BLK are emptied, and the host's last answer becomes 0: the model's
choice (log 15). -/
def Obligations.HostResetFromAnyState : Prop :=
  ∀ (s : State) (rest : List HostMove), s.hostMoves = .reset :: rest →
    step s = .next { State.resetWith s.params with hostMoves := rest }

/-- STATUS: bit 0 while PARSE or DECODE, bit 1 while DONE, bit 2 while ERROR, the rest 0; at most one is set, and none is
exactly in IDLE (10 R127). -/
def Obligations.StatusMirrorsPhase : Prop :=
  ∀ s : State,
    let v := s.readReg 0x04
    (v.getLsbD 0 = true ↔ s.phase = .parse ∨ s.phase = .decode) ∧ (v.getLsbD 1 = true ↔ s.phase = .done) ∧
    (v.getLsbD 2 = true ↔ s.phase = .error) ∧ (∀ i, 3 ≤ i → v.getLsbD i = false) ∧
    (∀ i j, v.getLsbD i = true → v.getLsbD j = true → i = j) ∧ (v = 0 ↔ s.phase = .idle)

/-- An aligned read of a host register gives its value, zero-extended, and changes nothing else (10 R125 to R135, 20 R212).
Where the value is held is the model's choice (log 9). -/
def Obligations.RegisterReads : Prop :=
  ∀ (s : State) (off : Nat) (rest : List HostMove), s.hostMoves = .readReg off :: rest → off % 4 = 0 → off < 0x100 →
    ∃ v : Word, step s = .next { s with hostMoves := rest, rdata := v } ∧
      (off = 0x00 → v.toNat = if s.regs.ctrlBgr then 2 else 0) ∧
      (off = 0x04 → v.toNat = match s.phase with
        | .idle => 0
        | .parse => 1
        | .decode => 1
        | .done => 2
        | .error => 4) ∧
      (off = 0x08 → v = s.regs.inLen) ∧ (off = 0x0C → v.toNat = s.err.code.toNat) ∧ (off = 0x10 → v = s.err.offset) ∧
      (off = 0x14 → v.toNat = s.err.marker.toNat) ∧ (off = 0x18 → v.toNat = s.err.table.toNat) ∧
      (off = 0x1C → v.toNat = s.regs.width.toNat) ∧ (off = 0x20 → v.toNat = s.regs.height.toNat) ∧
      (off = 0x24 → v = s.regs.stride) ∧ (off = 0x28 → v.toNat = s.regs.outLen.toNat % 2 ^ 32) ∧
      (off = 0x2C → v.toNat = s.regs.outLen.toNat / 2 ^ 32) ∧ (0x30 ≤ off → v = 0)

/-- An aligned write of a host register: IN_LEN is stored, CTRL without START stores BGR, and every other offset ignores it
(70 R920 H3, H4, H10). -/
def Obligations.RegisterWrites : Prop :=
  ∀ (s : State) (off : Nat) (v : Word) (rest : List HostMove), s.hostMoves = .writeReg off v :: rest → off % 4 = 0 →
    off < 0x100 →
    (off = 0x08 → step s = .next { s with hostMoves := rest, regs := { s.regs with inLen := v } }) ∧
    (off = 0x00 → v.getLsbD 0 = false →
      step s = .next { s with hostMoves := rest, regs := { s.regs with ctrlBgr := v.getLsbD 1 } }) ∧
    (off ≠ 0x00 → off ≠ 0x08 → step s = .next { s with hostMoves := rest })

/-- While not BUSY the host writes and reads bytes of IN and OUT below their capacities; a write changes that byte alone
(70 R920 H1, H2, H8, H9). -/
def Obligations.HostMemoryMoves : Prop :=
  ∀ (s : State) (rest : List HostMove) (a : Nat) (b : Byte), s.busy = false → s.inMem.wf → s.outMem.wf →
    (s.hostMoves = .writeIn a b :: rest → a < s.params.inMemBytes →
      ∃ m, step s = .next { s with hostMoves := rest, inMem := m } ∧ m.read a = b ∧ ∀ a' ≠ a, m.read a' = s.inMem.read a') ∧
    (s.hostMoves = .writeOut a b :: rest → a < s.params.outMemBytes →
      ∃ m, step s = .next { s with hostMoves := rest, outMem := m } ∧ m.read a = b ∧
        ∀ a' ≠ a, m.read a' = s.outMem.read a') ∧
    (s.hostMoves = .readIn a :: rest → a < s.params.inMemBytes →
      ∃ v : Word, step s = .next { s with hostMoves := rest, rdata := v } ∧ v.toNat = (s.inMem.read a).toNat) ∧
    (s.hostMoves = .readOut a :: rest → a < s.params.outMemBytes →
      ∃ v : Word, step s = .next { s with hostMoves := rest, rdata := v } ∧ v.toNat = (s.outMem.read a).toNat)

/-- The accesses for which the interface has no step are refused by name: IN or OUT while BUSY (70 R922), at or beyond the
capacity, a register access not aligned or at 0x100 or above (70 R925). -/
def Obligations.HostAccessOutsideInterfaceStops : Prop :=
  ∀ (s : State) (mv : HostMove) (rest : List HostMove) (a : Nat) (b : Byte) (v : Word), s.hostMoves = mv :: rest →
    (s.busy = true → mv = .writeIn a b ∨ mv = .readIn a ∨ mv = .writeOut a b ∨ mv = .readOut a →
      step s = .refused .hostAccessWhileBusy) ∧
    (s.busy = false → (mv = .writeIn a b ∨ mv = .readIn a) ∧ s.params.inMemBytes ≤ a ∨
        (mv = .writeOut a b ∨ mv = .readOut a) ∧ s.params.outMemBytes ≤ a →
      step s = .refused .memoryAccessOutsideInterface) ∧
    (mv = .writeReg a v ∨ mv = .readReg a → a % 4 ≠ 0 ∨ 0x100 ≤ a → step s = .refused .registerAccessOutsideInterface)

/-- HOST_START while not BUSY: what START clears and latches, BGR being that of the same write, and ResourceLimit where
IN_LEN exceeds IN; IN, OUT, the block buffers and the bytes of SCAN stay (48 R750). -/
def Obligations.StartClearsAndLatches : Prop :=
  ∀ (s : State) (v : Word), s.busy = false → v.getLsbD 0 = true →
    let t : State :=
      { s with
        err := ⟨0, 0, 0, 0⟩
        regs := ⟨v.getLsbD 1, s.regs.inLen, 0, 0, 0, 0⟩
        qt := ⟨Vector.replicate 4 (Vector.replicate 64 0), Vector.replicate 4 false⟩
        ht := ⟨[], [], [], []⟩
        fh := ⟨0, 0, 0, 0, #v[0, 0, 0], #v[0, 0, 0], #v[0, 0, 0]⟩
        sh := ⟨0, #v[0, 0, 0], #v[0, 0, 0], 0, 0, 0⟩
        seq := ⟨0, 0, 0, 0⟩
        scanLen := 0, seenSoi := false, seenSof := false, scanDone := false
        br := ⟨0, 0, 0⟩, pred := #v[0, 0, 0], pc := 0
        inLenL := s.regs.inLen, bgrL := v.getLsbD 1, phase := .parse, item := ⟨0, 0⟩ }
    (s.regs.inLen.toNat ≤ s.params.inMemBytes → exec (.hostStart v) s = .next t) ∧
    (s.params.inMemBytes < s.regs.inLen.toNat → exec (.hostStart v) s = .next (rejected t 5 0 0 none))

/-- HOST_START while BUSY stores BGR and does nothing else (48 R751). -/
def Obligations.StartWhileBusyOnlyStoresBgr : Prop :=
  ∀ (s : State) (v : Word), s.busy = true →
    exec (.hostStart v) s = .next { s with regs := { s.regs with ctrlBgr := v.getLsbD 1 } }

/-! ## Markers -/

/-- The marker order check, run before every marker's own rule, in its order; a failing check changes nothing but the
record and PHASE (42 R430). -/
def Obligations.MarkerOrderCheck : Prop :=
  ∀ (s : State) (i : Instr) (m : Byte), hasCode i m →
    let fails (code : BitVec 3) : Prop := exec i s = .next (rejected s code s.pc.toNat m none)
    (s.seenSoi = false → m ≠ 0xD8 → fails 1) ∧
    (s.seenSoi = true →
      (m = 0xD8 → fails 1) ∧
      (isUnsupported m = true → fails 2) ∧
      (isUnknown m = true → fails 3) ∧
      (m = 0xC0 → s.seenSof = true → fails 1) ∧
      (m = 0xDA → s.seenSof = false → fails 1) ∧
      (m = 0xDA → s.seenSof = true → s.scanDone = true → fails 2) ∧
      (m = 0xDB ∨ m = 0xC4 → s.scanDone = true → fails 2) ∧
      (m = 0xD9 → s.scanDone = false → fails 1))

/-- SOI as the first marker sets SEEN_SOI and advances by its 2 bytes (42 R431). -/
def Obligations.SoiCompletes : Prop :=
  ∀ s : State, s.seenSoi = false → exec .soi s = .next { s with seenSoi := true, pc := s.pc + 2 }

/-- APPn and COM skip their segment by its length and change nothing else (42 R432, R433). -/
def Obligations.SkippedSegmentsComplete : Prop :=
  ∀ s : State, s.seenSoi = true → headerFits s →
    (∀ n, exec (.appn n) s = .next { s with pc := BitVec.ofNat 32 (segEnd s) }) ∧
    exec .com s = .next { s with pc := BitVec.ofNat 32 (segEnd s) }

/-- A segment whose length field has no room, is below 2 or passes the input is rejected at mpos + 2 (42 R425). -/
def Obligations.SegmentHeaderRejected : Prop :=
  ∀ (s : State) (i : Instr) (m : Byte), hasCode i m → s.seenSoi = true → ¬headerFits s →
    (∃ n, i = .appn n) ∨ i = .com ∨ ((i = .dqt ∨ i = .dht) ∧ s.scanDone = false) ∨ (i = .sof0 ∧ s.seenSof = false) ∨
      (i = .sos ∧ s.seenSof = true ∧ s.scanDone = false) →
    exec i s = .next (rejected s 1 (s.pc.toNat + 2) m none)

/-- DQT loads each of its specifications, de-zigzagged, the last one of a slot replacing the earlier ones, and changes
nothing but the store and `pc` (42 R434 to R436). -/
def Obligations.DqtLoadsTables : Prop :=
  ∀ (s : State) (n : Nat), s.seenSoi = true → s.scanDone = false → headerFits s → segLen s = 2 + 65 * n →
    (∀ j < n, (s.inMem.read (s.pc.toNat + 4 + 65 * j)).toNat < 4) →
    ∃ q, exec .dqt s = .next { s with pc := BitVec.ofNat 32 (segEnd s), qt := q } ∧ dqtLoaded s (s.pc.toNat + 4) n q

/-- The first bad DQT specification ends the decode: precision not 0, slot above 3, or cut short by the segment end;
what the earlier ones loaded stays (42 R434, 60 R803). -/
def Obligations.DqtRejectsSpecification : Prop :=
  ∀ (s : State) (n : Nat), s.seenSoi = true → s.scanDone = false → headerFits s →
    let a := s.pc.toNat + 4
    let p := a + 65 * n
    let b := s.inMem.read p
    p < segEnd s → (∀ j < n, (s.inMem.read (a + 65 * j)).toNat < 4) →
    (16 ≤ b.toNat → ∃ pc' q, dqtLoaded s a n q ∧
      exec .dqt s = .next (rejected { s with pc := pc', qt := q } 2 p 0xDB (some b))) ∧
    (4 ≤ b.toNat → b.toNat < 16 → ∃ pc' q, dqtLoaded s a n q ∧
      exec .dqt s = .next (rejected { s with pc := pc', qt := q } 1 p 0xDB (some b))) ∧
    (b.toNat < 4 → segEnd s < p + 65 → ∃ pc' q q', dqtLoaded s a n q ∧
      exec .dqt s = .next (rejected { s with pc := pc', qt := q' } 1 (segEnd s) 0xDB none) ∧
      q'.valid = q.valid ∧ ∀ t : Fin 4, t.val ≠ b.toNat → q'.vals[t] = q.vals[t])

/-- DHT builds the table of each of its specifications with canonical codes, a second definition replacing the first, and
changes nothing but the store and `pc` (42 R437, 43 R500 to R505). -/
def Obligations.DhtBuildsTables : Prop :=
  ∀ (s : State) (ds : List DhtSpec), s.seenSoi = true → s.scanDone = false → headerFits s →
    s.inBytes (s.pc.toNat + 4) (segLen s - 2) = ds.flatMap DhtSpec.bytes → (∀ d ∈ ds, d.complete ∧ d.fits) →
    ∃ h, exec .dht s = .next { s with pc := BitVec.ofNat 32 (segEnd s), ht := h } ∧ ∀ tc th, dhtBuilt s ds h tc th

/-- The first bad DHT specification ends the decode: bits 7:5 set, class above 1, cut short by the segment end, or more
codes than a length holds. The tables of the earlier ones stay, in the first three cases every one, in the last every one
but the table that the bad specification was building (42 R437, 43 R503, 60 R803). -/
def Obligations.DhtRejectsSpecification : Prop :=
  ∀ (s : State) (ds : List DhtSpec), s.seenSoi = true → s.scanDone = false → headerFits s →
    let a := s.pc.toNat + 4
    let k := (ds.flatMap DhtSpec.bytes).length
    let p := a + k
    let b := s.inMem.read p
    p < segEnd s → s.inBytes a k = ds.flatMap DhtSpec.bytes → (∀ d ∈ ds, d.complete ∧ d.fits) →
    let rejects (code : BitVec 3) (o : Nat) (t : Option Byte) (stays : Bool → Bool → Prop) : Prop :=
      ∃ pc' h, exec .dht s = .next (rejected { s with pc := pc', ht := h } code o 0xC4 t) ∧
        ∀ tc th, stays tc th → dhtBuilt s ds h tc th
    (32 ≤ b.toNat → rejects 1 p (some b) fun _ _ => True) ∧
    (b.toNat < 32 → 2 ≤ b.toNat % 16 → rejects 2 p (some b) fun _ _ => True) ∧
    (b.toNat < 32 → b.toNat % 16 < 2 →
      (segEnd s < p + 17 ∨ segEnd s < p + 17 + ((s.inBytes (p + 1) 16).map (·.toNat)).sum →
        rejects 1 (segEnd s) none fun _ _ => True) ∧
      ∀ d : DhtSpec, d.byte = b → d.complete → s.inBytes p (17 + d.symbols.length) = d.bytes →
        p + 17 + d.symbols.length ≤ segEnd s → ¬d.fits →
        rejects 1 p (some b) fun tc th => ¬(d.tc = tc ∧ d.th = th))

/-- SOF0 with every check passing commits the frame header, the grid and the result registers and sets SEEN_SOF; an image
that does not fit OUT is then ResourceLimit (42 R440, 60 R812, 10 R133). -/
def Obligations.Sof0CommitsFrame : Prop :=
  ∀ s : State, s.seenSoi = true → s.seenSof = false → headerFits s → firstFailure (sof0Checks s) = none →
    let t := frameCommitted s
    (t.regs.outLen.toNat ≤ s.params.outMemBytes → exec .sof0 s = .next t) ∧
    (s.params.outMemBytes < t.regs.outLen.toNat → exec .sof0 s = .next (rejected t 5 s.pc.toNat 0xC0 none))

/-- SOF0's first failing check, in field order, decides the error, and no header is committed (42 R440, 60 R803, R804). -/
def Obligations.Sof0ReportsFirstFailure : Prop :=
  ∀ (s : State) (c : Check), s.seenSoi = true → s.seenSof = false → headerFits s →
    firstFailure (sof0Checks s) = some c →
    ∃ pc', exec .sof0 s = .next (rejected { s with pc := pc' } c.code (s.pc.toNat + c.off) 0xC0 c.table)

/-- SOS with every check passing commits the scan header, extracts the scan with its stuffing removed and two padding bytes
appended, sets SCAN_DONE and leaves `pc` at the marker that ends the scan (42 R445, R446, R450). -/
def Obligations.SosExtractsScan : Prop :=
  ∀ (s : State) (data : List Byte) (n : Nat), s.seenSoi = true → s.seenSof = true → s.scanDone = false → headerFits s →
    firstFailure (sosChecks s) = none → s.inLenL.toNat ≤ s.params.inMemBytes → s.params.wf → s.scan.wf → s.scanLen = 0 →
    destuffed (scanBytes s) = some (data, n) →
    ∃ scan' : Memory,
      exec .sos s = .next
        { scanHeaderCommitted s with
          pc := BitVec.ofNat 32 (s.pc.toNat + 14 + n)
          scan := scan', scanLen := BitVec.ofNat 32 (data.length + 2), scanDone := true } ∧
      (∀ (j : Nat) (b : Byte), (data ++ [0, 0])[j]? = some b → scan'.read j = b) ∧
      ∀ j, data.length + 2 ≤ j → scan'.read j = s.scan.read j

/-- SOS's first failing check, in field order, decides the error, with no scan header committed; a lone 0xFF that ends the
input inside the scan is rejected at its offset, the scan header being committed (42 R445, R446, R450, 60 R803). -/
def Obligations.SosReportsFirstFailure : Prop :=
  ∀ s : State, s.seenSoi = true → s.seenSof = true → s.scanDone = false → headerFits s →
    (∀ c, firstFailure (sosChecks s) = some c →
      ∃ pc', exec .sos s = .next (rejected { s with pc := pc' } c.code (s.pc.toNat + c.off) 0xDA c.table)) ∧
    (firstFailure (sosChecks s) = none → s.inLenL.toNat ≤ s.params.inMemBytes → s.params.wf → s.scan.wf →
      s.scanLen = 0 → destuffed (scanBytes s) = none →
      ∃ (scan' : Memory) (n : Word),
        exec .sos s = .next
          (rejected
            { scanHeaderCommitted s with
              pc := BitVec.ofNat 32 (s.inLenL.toNat - 1), scan := scan', scanLen := n } 1 (s.inLenL.toNat - 1) 0xDA none))

/-- SCAN_STUFF appends one 0xFF to SCAN and advances `pc` by the pair's 2 bytes, and the extraction loop at a pair `FF 00`
is SCAN_STUFF followed by the rest of the loop (42 R450, 30 R307). -/
def Obligations.ScanStuffAppendsOneByte : Prop :=
  ∀ s : State, s.scanLen.toNat < s.params.scanMemBytes → s.scan.wf →
    ∃ t : State, exec .scanStuff s = .next t ∧
      (∃ scan' : Memory, t = { s with pc := s.pc + 2, scan := scan', scanLen := s.scanLen + 1 } ∧
        scan'.read s.scanLen.toNat = 0xFF ∧ ∀ j ≠ s.scanLen.toNat, scan'.read j = s.scan.read j) ∧
      ∀ n, s.pc.toNat + 1 < s.inLenL.toNat → at_ s 0 = 0xFF → at_ s 1 = 0x00 → extractLoop (n + 1) s = extractLoop n t

/-- EOI after the scan ends the parse and begins phase 2 with its initialization, in one step (42 R452, 48 R701). -/
def Obligations.EoiBeginsPhase2 : Prop :=
  ∀ s : State, s.seenSoi = true → s.scanDone = true → exec .eoi s = .next (phase2 { s with pc := s.pc + 2 })

/-- Every unsupported marker raises UnsupportedFeature and every unknown one UnknownMarker, at its offset, and nothing else
changes (42 R454, R455). -/
def Obligations.RejectedMarkersRaise : Prop :=
  ∀ s : State, s.seenSoi = true →
    let raises (code : BitVec 3) (i : Instr) (m : Byte) : Prop := exec i s = .next (rejected s code s.pc.toNat m none)
    (∀ m : Byte, 0xC1 ≤ m → m ≤ 0xC3 → raises 2 (.unsupSof1to3 m) m) ∧
    (∀ m : Byte, 0xC5 ≤ m → m ≤ 0xC7 → raises 2 (.unsupSof5to7 m) m) ∧
    (∀ m : Byte, 0xC9 ≤ m → m ≤ 0xCB → raises 2 (.unsupSof9to11 m) m) ∧
    (∀ m : Byte, 0xCD ≤ m → m ≤ 0xCF → raises 2 (.unsupSof13to15 m) m) ∧
    (∀ n : BitVec 3, raises 2 (.unsupRst n) (BitVec.ofNat 8 (0xD0 + n.toNat))) ∧
    raises 2 .unsupDac 0xCC ∧ raises 2 .unsupDnl 0xDC ∧ raises 2 .unsupDri 0xDD ∧ raises 2 .unsupDhp 0xDE ∧
    raises 2 .unsupExp 0xDF ∧ raises 2 .unsupTem 0x01 ∧
    (∀ m : Byte, 0x02 ≤ m → m ≤ 0xBF → raises 3 (.unknownRes m) m) ∧
    (∀ m : Byte, 0xF0 ≤ m → m ≤ 0xFD → raises 3 (.unknownJpgn m) m) ∧
    raises 3 .unknown00 0x00 ∧ raises 3 .unknownJpg 0xC8 ∧ raises 3 .unknownFill 0xFF

/-! ## The bit reader -/

/-- `peek(n)` gives the next `n` bits of SCAN, most significant first, consuming none and loading just the bytes it needs;
where SCAN is exhausted it raises CorruptBitstream at SCAN_LEN for the table of the item (41 R401, 20 R205). -/
def Obligations.PeekGivesNextBits : Prop :=
  ∀ (s : State) (n : Nat), 1 ≤ n → n ≤ 16 → s.ReaderOk →
    (s.hasBits n → ∃ r, peek n s = .ok (s.scan.bits s.consumed n) { s with br := r } ∧
      State.consumed { s with br := r } = s.consumed ∧ r.pos.toNat = s.br.pos.toNat + s.refills n ∧
      State.ReaderOk { s with br := r }) ∧
    (¬s.hasBits n → ∃ r, peek n s = .raised
      (corrupt { s with br := r } s.scanLen.toNat ((if s.item.k = 0 then 0 else 16) + classOf s.item.blk)))

/-- `read(n)` after `peek(n)` gives the same value, and the consumed bits grow by exactly `n` (41 R405). -/
def Obligations.ReadAfterPeekAgrees : Prop :=
  ∀ (s t : State) (n v : Nat), 1 ≤ n → n ≤ 16 → s.ReaderOk → peek n s = .ok v t →
    ∃ u, readBits n t = .ok v u ∧ readBits n s = .ok v u ∧ u.consumed = s.consumed + n ∧ t.consumed = s.consumed ∧
      skip n s = .ok () u

/-! ## Entropy items -/

/-- DC_ZERO repeats the component's predictor as coefficient 0, clears the AC positions and consumes nothing (44 R552 to
R554). -/
def Obligations.DcZeroRepeatsPredictor : Prop :=
  ∀ s : State,
    exec .dcZero s = .next
      { s with blk := s.blk.set s.item.blk (dcOnly s.pred[component s.item.blk]), item := ⟨s.item.blk, 1⟩ }

/-- DC_DIFF of category `n` reads `n` bits, extends them and adds the difference to the component's predictor, which
becomes coefficient 0; with SCAN exhausted it is corrupt, for the DC table of the class where the item is a DC item (44
R552, R553, R555, 60 R802 row 37). That the meaning runs at every spectral index, and then names the AC table where the
index is not 0, is the model's choice (log 19): the rules give DC_DIFF only in a DC item. -/
def Obligations.DcDiffAddsDifference : Prop :=
  ∀ (s : State) (n : Byte), 1 ≤ n.toNat → n.toNat ≤ 11 → s.ReaderOk →
    (s.hasBits n.toNat →
      exec (.dcDiff n) s = .next
        (dcDone { s with br := s.readerAfter (s.refills n.toNat) n.toNat }
          (extend (s.scan.bits s.consumed n.toNat) n.toNat))) ∧
    (¬s.hasBits n.toNat →
      exec (.dcDiff n) s = .next
        (corrupt { s with br := s.readerAfter (s.scanLen.toNat - s.br.pos.toNat) 0 } s.scanLen.toNat
          ((if s.item.k = 0 then 0 else 16) + classOf s.item.blk)))

/-- AC_COEF of run `r` and size `n` stores the extended `n` bits at natural index `ZZ[k + r]`, leaves every other
coefficient, and moves to `k + r + 1`; a run past 63 is corrupt before any bit is read, an exhausted SCAN too (44 R560,
30 R323). -/
def Obligations.AcCoefStoresAtZigzag : Prop :=
  ∀ (s : State) (r n : BitVec 4), 1 ≤ n.toNat → n.toNat ≤ 10 → 1 ≤ s.item.k → s.ReaderOk →
    (∀ j : Fin 64, j.val = s.item.k + r.toNat →
      (s.hasBits n.toNat →
        exec (.acCoef r n) s = .next
          { s with
            br := s.readerAfter (s.refills n.toNat) n.toNat
            blk := s.blk.set s.item.blk
              ((s.blk[s.item.blk]).set (zz j) (BitVec.ofInt 64 (extend (s.scan.bits s.consumed n.toNat) n.toNat)))
            item := ⟨s.item.blk, s.item.k + r.toNat + 1⟩ }) ∧
      (¬s.hasBits n.toNat →
        exec (.acCoef r n) s = .next
          (corrupt { s with br := s.readerAfter (s.scanLen.toNat - s.br.pos.toNat) 0 } s.scanLen.toNat
            (16 + classOf s.item.blk)))) ∧
    (63 < s.item.k + r.toNat →
      exec (.acCoef r n) s = .next (corrupt s s.br.pos.toNat (16 + classOf s.item.blk)))

/-- EOB completes the block with its coefficients as they are; ZRL skips 16 positions, and past index 63 it is corrupt
(44 R557, R558). -/
def Obligations.EobAndZrlMoveSpectralIndex : Prop :=
  ∀ s : State,
    exec .eob s = .next { s with item := ⟨s.item.blk, 64⟩ } ∧
    (s.item.k + 16 ≤ 64 → exec .zrl s = .next { s with item := ⟨s.item.blk, s.item.k + 16⟩ }) ∧
    (1 ≤ s.item.k → 64 < s.item.k + 16 → exec .zrl s = .next (corrupt s s.br.pos.toNat (16 + classOf s.item.blk)))

/-- DC_INVALID, AC_BADZERO and AC_BADSIZE are corrupt at BR_POS for the table of their item, before any extra bit is read
(44 R556, R559, R561). -/
def Obligations.InvalidSymbolsAreCorrupt : Prop :=
  ∀ s : State,
    (s.item.k = 0 → ∀ n : Byte, exec (.dcInvalid n) s = .next (corrupt s s.br.pos.toNat (classOf s.item.blk))) ∧
    (1 ≤ s.item.k →
      (∀ r, exec (.acBadzero r) s = .next (corrupt s s.br.pos.toNat (16 + classOf s.item.blk))) ∧
      ∀ r n, exec (.acBadsize r n) s = .next (corrupt s s.br.pos.toNat (16 + classOf s.item.blk)))

/-- The extend rule reaches exactly the symmetric range without the dead zone, once each (30 R321, R322). -/
def Obligations.ExtendCoversSignedRange : Prop :=
  extend 0 0 = 0 ∧
  ∀ s : Nat, 1 ≤ s → s ≤ 11 →
    (∀ v < 2 ^ s, extend v s = if v < 2 ^ (s - 1) then (v : Int) - (2 ^ s - 1) else v) ∧
    ∀ d : Int, (∃! v : Nat, v < 2 ^ s ∧ extend v s = d) ↔ 2 ^ (s - 1) ≤ d.natAbs ∧ d.natAbs ≤ 2 ^ s - 1

/-- The zigzag map and its inverse round-trip every index (30 R331), and the map walks the anti-diagonals: the row plus
the column of `ZZ[k]` never falls, and grows by at most 1 (30 R330). -/
def Obligations.ZigzagIsBijection : Prop :=
  (∀ i : Fin 64, zz (zzInv i) = i) ∧ (∀ k : Fin 64, zzInv (zz k) = k) ∧
  ∀ j k : Fin 64, k.val = j.val + 1 →
    let d (i : Fin 64) : Nat := i.val / 8 + i.val % 8
    d (zz j) ≤ d (zz k) ∧ d (zz k) ≤ d (zz j) + 1

/-! ## After the entropy items -/

/-- Dequantization multiplies each coefficient of the block by the value of its component's slot, exactly, and touches
nothing else (45 R600, R601, 10 R121). -/
def Obligations.DequantizeScalesExactly : Prop :=
  ∀ (s : State) (b : Fin 6) (t : Fin 4), (s.fh.tq[component b]).toNat = t.val →
    (∀ i : Fin 64, ((s.blk[b])[i]).toInt.natAbs < 2 ^ 37) →
    ∃ d : Block, dequantize b s = .ok () { s with blk := s.blk.set b d } ∧
      ∀ i : Fin 64, d[i].toInt = ((s.blk[b])[i]).toInt * ((s.qt.vals[t])[i]).toNat

/-- The inverse DCT of a block is the exact real product `Cᵗ M C` rounded once, halves away from zero, and touches nothing
else (46 R620 to R622). -/
def Obligations.IdctIsExactlyRounded : Prop :=
  ∀ (s : State) (b : Fin 6), (∀ i : Fin 64, ((s.blk[b])[i]).toInt.natAbs < 2 ^ 45) →
    ∃ f : Block, idct b s = .ok () { s with blk := s.blk.set b f } ∧
      ∀ y x : Fin 8, cell f y x = roundR (exactSample s.blk[b] y x)

/-- A block with only its DC term gives the constant plane of the eighth of it, rounded half away from zero (46 R623). -/
def Obligations.IdctOfDcOnlyBlock : Prop :=
  ∀ d : S64, d.toInt.natAbs < 2 ^ 45 → ∀ y x : Fin 8, cell (idctBlock (dcOnly d)) y x = roundQ ((d.toInt : ℚ) / 8)

/-- The transform keeps the zero block, negates with its block and transposes with it (46 R625 (a) to (c)). -/
def Obligations.IdctSymmetries : Prop :=
  idctBlock (Vector.replicate 64 0) = Vector.replicate 64 0 ∧
  ∀ b b' : Block, (∀ i : Fin 64, b[i].toInt.natAbs < 2 ^ 45) →
    ((∀ y x : Fin 8, cell b' y x = -cell b y x) → ∀ y x : Fin 8, cell (idctBlock b') y x = -cell (idctBlock b) y x) ∧
    ((∀ y x : Fin 8, cell b' y x = cell b x y) → ∀ y x : Fin 8, cell (idctBlock b') y x = cell (idctBlock b) x y)

/-- Each channel of a pixel is the exact value of the colour matrix, rounded once half away from zero, then clamped to a
byte (47 R654). -/
def Obligations.ColourMatrixIsExact : Prop :=
  ∀ l cb cr : Int,
    let y : ℚ := l + 128
    let p := toPixel l cb cr
    (p.r.toNat : Int) = min (max (roundQ (y + 1402 / 1000 * cr)) 0) 255 ∧
    (p.g.toNat : Int) = min (max (roundQ (y - 344 / 1000 * cb - 714 / 1000 * cr)) 0) 255 ∧
    (p.b.toNat : Int) = min (max (roundQ (y + 1772 / 1000 * cb)) 0) 255

/-- Colour conversion writes the 256 pixels of the macroblock at their places in the latched channel order and leaves every
other byte of OUT and every other part of the state (47 R650 to R653, R658, 20 R206). -/
def Obligations.ColorConvertPlacesPixels : Prop :=
  ∀ (s : State) (mx my : Nat), s.outMem.wf →
    48 * (mx + 1) ≤ s.regs.stride.toNat → 16 * (my + 1) * s.regs.stride.toNat ≤ s.regs.outLen.toNat →
    s.regs.outLen.toNat ≤ s.params.outMemBytes →
    ∃ m : Memory, colorConvert mx my s = .ok () { s with outMem := m } ∧
      macroblockWritten s.outMem m s.regs.stride.toNat mx my fun x y =>
        pixelBytes (fun b => s.blk[b]) s.bgrL x y

/-- The pixels of a macroblock grid, at the offsets colour conversion writes them to, cover the bytes below the output length
and no other, each once: for every grid with the stride and the length it determines, and so for the registers and the
grid of every accepted frame (47 R651, R656, 10 R133). -/
def Obligations.PixelGridCoversOutputOnce : Prop :=
  let coversOnce (stride outLen cols rows : Nat) : Prop :=
    ∀ a, a < outLen ↔
      ∃! p : (Nat × Nat) × (Fin 16 × Fin 16) × Fin 3,
        p.1.1 < cols ∧ p.1.2 < rows ∧ pixelOffset stride p.1.1 p.1.2 p.2.1.1 p.2.1.2 + p.2.2.val = a
  (∀ cols rows : Nat, coversOnce (strideOf cols) (outLenOf cols rows) cols rows) ∧
  ∀ s : State, FrameOk s →
    coversOnce s.regs.stride.toNat s.regs.outLen.toNat s.seq.cols.toNat s.seq.rows.toNat

/-- The part of a DECODE step after a complete block: the next block of the macroblock begins, or after the sixth the
macroblock is dequantized, transformed and converted into OUT, and the next macroblock or DONE follows (48 R702 to R705).
That MCU_X and MCU_Y keep the last macroblock's position at DONE is the model's inference (log 16). -/
def Obligations.CompleteBlockStep : Prop :=
  ∀ s : State, s.ItemInv → s.phase = .decode → s.item.k = 64 →
    (∀ b : Fin 6, b.val = s.item.blk.val + 1 → itemStep s = .next { s with item := ⟨b, 0⟩ }) ∧
    (s.item.blk.val = 5 →
      ∃ m : Memory,
        itemStep s = .next (advanced { s with blk := Vector.ofFn fun b => samples s b, outMem := m }) ∧
        macroblockWritten s.outMem m s.regs.stride.toNat s.seq.x.toNat s.seq.y.toNat fun x y =>
          pixelBytes (samples s) s.bgrL x y)

/-! ## The whole machine -/

/-- The invariant holds after reset of every machine whose parameters meet their constraints (10 R140, 00 R10, 20 R214), and
so of the machine with the capacities and bases the model chose (log 3). -/
def Obligations.ResetMeetsInvariant : Prop :=
  State.reset.Inv ∧ ∀ p : Params, p.wf → (State.resetWith p).Inv

/-- Every step keeps the invariant: memories canonical and inside their capacities, the bit reader on SCAN's bits, lookup
tables well-formed, the record clear outside ERROR, headers and grid consistent, the parser inside its input, no macroblock
in progress between steps (48 R709). And every part of a macroblock keeps all of it but the last. -/
def Obligations.StepKeepsInvariant : Prop :=
  (∀ s t : State, s.Inv → step s = .next t → t.Inv) ∧
  ∀ s t : State, s.ItemInv → s.phase = .decode → itemStep s = .next t → t.ItemInv

/-- Under the invariant no step attempts an access the block may not make (70 R924). With no host move pending there is a
next state exactly in PARSE and DECODE, where the engine has an enabled step (48 R709); that the model answers a refusal
where no step is enabled is its choice (log 6). -/
def Obligations.InvariantExcludesFaults : Prop :=
  ∀ s : State, s.Inv →
    noFault (step s) ∧
    (s.hostMoves = [] →
      (s.phase = .parse ∨ s.phase = .decode → ∃ t, step s = .next t) ∧
      (s.phase = .idle ∨ s.phase = .done ∨ s.phase = .error → step s = .refused .noStepEnabled))

/-- The DC predictors stay within 2047 per decoded block of their component, between steps and inside a macroblock, so no sum
overflows (10 R121). -/
def Obligations.PredictorsStayBounded : Prop :=
  (∀ s t : State, s.Inv → s.predictorsBounded → step s = .next t → t.predictorsBounded) ∧
  ∀ s t : State, s.ItemInv → s.phase = .decode → s.predictorsBounded → itemStep s = .next t → t.predictorsBounded

/-- What no engine step changes: IN, every OUT byte at or beyond OUT_LEN, the host's own registers, the latched inputs, the
parameters (20 R201, R202, 10 R104). -/
def Obligations.EngineStepFrame : Prop :=
  ∀ s t : State, s.hostMoves = [] → step s = .next t →
    t.params = s.params ∧ t.inMem = s.inMem ∧ t.inLenL = s.inLenL ∧ t.bgrL = s.bgrL ∧ t.regs.inLen = s.regs.inLen ∧
    t.regs.ctrlBgr = s.regs.ctrlBgr ∧ t.rdata = s.rdata ∧ t.hostMoves = [] ∧
    ∀ a, s.regs.outLen.toNat ≤ a → t.outMem.read a = s.outMem.read a

/-- What a decode keeps once it has it: the frame header and the result registers after SOF0, tables, scan header and scan
after the extraction, and in each part of a macroblock the predictors of the components not in progress (10 R105, 43 R501,
48 R706). -/
def Obligations.AcceptedDataStays : Prop :=
  (∀ s t : State, s.hostMoves = [] → step s = .next t →
    (s.seenSof = true → t.fh = s.fh ∧ t.regs = s.regs ∧ t.seq.cols = s.seq.cols ∧ t.seq.rows = s.seq.rows) ∧
    (s.scanDone = true → t.qt = s.qt ∧ t.ht = s.ht ∧ t.sh = s.sh ∧ t.scan = s.scan ∧ t.scanLen = s.scanLen)) ∧
  ∀ s t : State, itemStep s = .next t → ∀ c : Fin 3, c ≠ component s.item.blk → t.pred[c] = s.pred[c]

/-- PHASE moves only from PARSE to DECODE, from DECODE to DONE, and from both to ERROR by engine steps; in the other phases
the engine has no step; the host moves it only by reset, and by START while not BUSY (10 R102, 48 R700, R709, R752, 60
R807). -/
def Obligations.PhaseMoves : Prop :=
  ∀ s t : State, step s = .next t →
    (s.hostMoves = [] →
      (s.phase = .parse → t.phase = .parse ∨ t.phase = .decode ∨ t.phase = .error) ∧
      (s.phase = .decode → t.phase = .decode ∨ t.phase = .done ∨ t.phase = .error) ∧
      s.busy = true) ∧
    ∀ (mv : HostMove) (rest : List HostMove), s.hostMoves = mv :: rest → mv ≠ .engine →
      t.phase = s.phase ∨ mv = .reset ∧ t.phase = .idle ∨
        ∃ v : Word, mv = .writeReg 0x00 v ∧ v.getLsbD 0 = true ∧ s.busy = false ∧ (t.phase = .parse ∨ t.phase = .error)

/-- Engine steps and host moves interleave (70 R927): where the host yields and the engine has a step, the step is the
engine's of the same state with no move pending, a whole marker or macroblock, and the host's later moves are pending after
it; where the engine has none, the yield passes. And the host's register moves while BUSY do not affect the running decode:
such a move changes only the host's side, and an engine step is the same whatever that side holds (70 R923, R927, R931).
That the moves and the yields stand in a list is the model's choice (log 5). -/
def Obligations.HostMovesDoNotDisturbDecode : Prop :=
  ∀ s : State,
    (∀ rest : List HostMove, s.hostMoves = .engine :: rest →
      (s.busy = true → step s = mapNext (fun t => { t with hostMoves := rest }) (step { s with hostMoves := [] })) ∧
      (s.busy = false → step s = .next { s with hostMoves := rest })) ∧
    (s.busy = true →
      (∀ (mv : HostMove) (rest : List HostMove) (off : Nat) (v : Word), s.hostMoves = mv :: rest →
        mv = .writeReg off v ∨ mv = .readReg off → off % 4 = 0 → off < 0x100 →
        ∃ n bgr r, step s = .next (hostSide n bgr r { s with hostMoves := rest })) ∧
      (s.hostMoves = [] → ∀ n bgr r, step (hostSide n bgr r s) = mapNext (hostSide n bgr r) (step s)))

/-- Every decode ends: from a busy state that meets the invariant, with no host move pending, some number of steps reaches
DONE or ERROR (48 R708). -/
def Obligations.EveryDecodeEnds : Prop :=
  ∀ s : State, s.Inv → s.busy = true → s.hostMoves = [] →
    ∃ (n : Nat) (t : State), Sys2Proof.core.run n s = .next t ∧ (t.phase = .done ∨ t.phase = .error)

/-- A DECODE step is one macroblock (48 R709 (d), (e)): it goes on to the next macroblock in raster order, or is the last one's
and ends in DONE, or ends in ERROR with OUT as it was (48 R705); between steps no macroblock is in progress. -/
def Obligations.MacroStepEndsAtBoundary : Prop :=
  ∀ s : State, s.Inv → s.hostMoves = [] → s.phase = .decode →
    let place (t : State) : Nat := t.seq.y.toNat * s.seq.cols.toNat + t.seq.x.toNat
    ∃ t, step s = .next t ∧ t.item = ⟨0, 0⟩ ∧
      (t.phase = .decode ∧ place t = place s + 1 ∨
        t.phase = .done ∧ place s + 1 = s.seq.cols.toNat * s.seq.rows.toNat ∨
        t.phase = .error ∧ t.outMem = s.outMem)
end

