-- ==== Sys2Proof/Laws/Memory.lean ====
section
/-! SUPPORT. The byte memory: a read after a write, the canonical form kept by every write, and the form being canonical
(equal reads, equal memories). -/

namespace Sys2Proof.Machine

@[simp] theorem Memory.read_nil (a : Nat) : Memory.read [] a = unlistedByte := rfl

theorem Memory.read_cons (k : Nat) (v : Byte) (m : Memory) (a : Nat) :
    Memory.read ((k, v) :: m) a = if k = a then v else m.read a := rfl

theorem Memory.wf_nil : Memory.wf [] := ⟨List.Pairwise.nil, by simp⟩

theorem Memory.wf_tail {c : Host.Cell} {m : Memory} (h : Memory.wf (c :: m)) : m.wf :=
  ⟨(List.pairwise_cons.1 h.1).2, fun d hd => h.2 d (List.mem_cons_of_mem _ hd)⟩

/-- A memory reads as unlisted below all its offsets. -/
theorem Memory.read_absent : ∀ (m : Memory) (a : Nat), (∀ c ∈ m, c.1 ≠ a) → m.read a = unlistedByte
  | [], _, _ => rfl
  | (k, v) :: m, a, h => by
    have hk : k ≠ a := h (k, v) (by simp)
    rw [Memory.read_cons, if_neg hk]
    exact Memory.read_absent m a fun c hc => h c (List.mem_cons_of_mem _ hc)

theorem Memory.read_put_same {a : Nat} {v : Byte} {m : Memory} (h : ∀ c ∈ m, c.1 ≠ a) :
    (Memory.put a v m).read a = v := by
  unfold Memory.put
  split
  · next hv => rw [Memory.read_absent m a h, hv]
  · simp [Memory.read_cons]

theorem Memory.read_put_other {a b : Nat} (v : Byte) (m : Memory) (h : a ≠ b) :
    (Memory.put a v m).read b = m.read b := by
  unfold Memory.put
  split
  · rfl
  · rw [Memory.read_cons, if_neg h]

/-- A write leaves every other offset alone. -/
theorem Memory.read_write_other : ∀ (m : Memory) {a b : Nat} (v : Byte), a ≠ b → (m.write a v).read b = m.read b
  | [], a, b, v, h => Memory.read_put_other v [] h
  | (k, x) :: m, a, b, v, h => by
    unfold Memory.write
    split
    · exact Memory.read_put_other v _ h
    · split
      · next _ hk => rw [Memory.read_put_other v m h, Memory.read_cons, if_neg (by omega)]
      · rw [Memory.read_cons, Memory.read_cons, Memory.read_write_other m v h]

/-- A read after a write of the same offset gives the byte written. -/
theorem Memory.read_write_same : ∀ (m : Memory) (a : Nat) (v : Byte), m.wf → (m.write a v).read a = v
  | [], a, v, _ => Memory.read_put_same (by simp)
  | (k, x) :: m, a, v, h => by
    have hp := (List.pairwise_cons.1 h.1).1
    unfold Memory.write
    split
    · next hk =>
      refine Memory.read_put_same fun c hc => ?_
      rcases List.mem_cons.1 hc with rfl | hc
      · simp only; omega
      · have := hp c hc; simp only at this; omega
    · split
      · next _ hk =>
        refine Memory.read_put_same fun c hc => ?_
        have := hp c hc; simp only at this; omega
      · rw [Memory.read_cons, if_neg (by omega)]
        exact Memory.read_write_same m a v (Memory.wf_tail h)

theorem Memory.mem_put {c : Host.Cell} {a : Nat} {v : Byte} {m : Memory} (h : c ∈ Memory.put a v m) :
    c = (a, v) ∧ v ≠ unlistedByte ∨ c ∈ m := by
  unfold Memory.put at h
  split at h
  · exact .inr h
  · next hv =>
    rcases List.mem_cons.1 h with h | h
    · exact .inl ⟨h, hv⟩
    · exact .inr h

/-- Every cell after a write is the one written or an older one. -/
theorem Memory.mem_write : ∀ {m : Memory} {c : Host.Cell} {a : Nat} {v : Byte},
    c ∈ m.write a v → c = (a, v) ∧ v ≠ unlistedByte ∨ c ∈ m
  | [], c, a, v, h => Memory.mem_put h
  | (k, x) :: m, c, a, v, h => by
    unfold Memory.write at h
    split at h
    · exact Memory.mem_put h
    · split at h
      · rcases Memory.mem_put h with h | h
        · exact .inl h
        · exact .inr (List.mem_cons_of_mem _ h)
      · rcases List.mem_cons.1 h with h | h
        · exact .inr (by simp [h])
        · rcases Memory.mem_write h with h | h
          · exact .inl h
          · exact .inr (List.mem_cons_of_mem _ h)

theorem Memory.put_wf {a : Nat} {v : Byte} {m : Memory} (h : m.wf) (ha : ∀ c ∈ m, a < c.1) :
    (Memory.put a v m).wf := by
  unfold Memory.put
  split
  · exact h
  · next hv =>
    refine ⟨List.pairwise_cons.2 ⟨fun c hc => ha c hc, h.1⟩, fun c hc => ?_⟩
    rcases List.mem_cons.1 hc with rfl | hc
    · exact hv
    · exact h.2 c hc

/-- A write keeps the canonical form. -/
theorem Memory.write_wf : ∀ (m : Memory) (a : Nat) (v : Byte), m.wf → (m.write a v).wf
  | [], a, v, h => Memory.put_wf h (by simp)
  | (k, x) :: m, a, v, h => by
    have hp := (List.pairwise_cons.1 h.1).1
    unfold Memory.write
    split
    · next hk =>
      refine Memory.put_wf h fun c hc => ?_
      rcases List.mem_cons.1 hc with rfl | hc
      · exact hk
      · have := hp c hc; simp only at this; omega
    · split
      · next _ hk =>
        refine Memory.put_wf (Memory.wf_tail h) fun c hc => ?_
        have := hp c hc; simp only at this; omega
      · have ih := Memory.write_wf m a v (Memory.wf_tail h)
        refine ⟨List.pairwise_cons.2 ⟨fun c hc => ?_, ih.1⟩, fun c hc => ?_⟩
        · rcases Memory.mem_write hc with ⟨rfl, _⟩ | hc
          · simp only; omega
          · exact hp c hc
        · rcases List.mem_cons.1 hc with rfl | hc
          · exact h.2 (k, x) (by simp)
          · exact ih.2 c hc

/-- A write below the capacity keeps every cell below it. -/
theorem Memory.write_below {m : Memory} {n a : Nat} (v : Byte) (h : m.below n) (ha : a < n) :
    (m.write a v).below n := fun c hc => by
  rcases Memory.mem_write hc with ⟨rfl, _⟩ | hc
  · exact ha
  · exact h c hc

/-- The form is canonical: memories that read alike are equal. -/
theorem Memory.eq_of_read : ∀ {m n : Memory}, m.wf → n.wf → (∀ a, m.read a = n.read a) → m = n
  | [], [], _, _, _ => rfl
  | [], (k, v) :: n, _, hn, h => by
    have := h k
    rw [Memory.read_nil, Memory.read_cons, if_pos rfl] at this
    exact absurd this.symm (hn.2 (k, v) (by simp))
  | (k, v) :: m, [], hm, _, h => by
    have := h k
    rw [Memory.read_nil, Memory.read_cons, if_pos rfl] at this
    exact absurd this (hm.2 (k, v) (by simp))
  | (k, v) :: m, (l, w) :: n, hm, hn, h => by
    have pm := (List.pairwise_cons.1 hm.1).1
    have pn := (List.pairwise_cons.1 hn.1).1
    have hkl : k = l := by
      rcases Nat.lt_trichotomy k l with hlt | he | hlt
      · exfalso
        have hk := h k
        rw [Memory.read_cons, if_pos rfl, Memory.read_absent] at hk
        · exact hm.2 (k, v) (by simp) hk
        · intro c hc
          rcases List.mem_cons.1 hc with rfl | hc
          · simp only; omega
          · have := pn c hc; simp only at this; omega
      · exact he
      · exfalso
        have hk := h l
        rw [Memory.read_cons (k := l), if_pos rfl, Memory.read_absent] at hk
        · exact hn.2 (l, w) (by simp) hk.symm
        · intro c hc
          rcases List.mem_cons.1 hc with rfl | hc
          · simp only; omega
          · have := pm c hc; simp only at this; omega
    subst hkl
    have hv : v = w := by
      have := h k
      rwa [Memory.read_cons, if_pos rfl, Memory.read_cons, if_pos rfl] at this
    subst hv
    have ht : m = n := by
      refine Memory.eq_of_read (Memory.wf_tail hm) (Memory.wf_tail hn) fun a => ?_
      have ha := h a
      rw [Memory.read_cons, Memory.read_cons] at ha
      split at ha
      · next e =>
        subst e
        rw [Memory.read_absent m k fun c hc => by have := pm c hc; simp only at this; omega,
          Memory.read_absent n k fun c hc => by have := pn c hc; simp only at this; omega]
      · exact ha
    rw [ht]

/-- The bytes `bs` written from offset `a` on. -/
def Memory.writeList : Memory → Nat → List Byte → Memory
  | m, _, [] => m
  | m, a, b :: bs => (m.write a b).writeList (a + 1) bs

theorem Memory.writeList_wf : ∀ (bs : List Byte) (m : Memory) (a : Nat), m.wf → (m.writeList a bs).wf
  | [], _, _, h => h
  | b :: bs, m, a, h => Memory.writeList_wf bs _ _ (m.write_wf a b h)

theorem Memory.writeList_below {n : Nat} : ∀ (bs : List Byte) (m : Memory) (a : Nat), m.below n → a + bs.length ≤ n →
    (m.writeList a bs).below n
  | [], _, _, h, _ => h
  | b :: bs, m, a, h, ha => by
    rw [List.length_cons] at ha
    exact Memory.writeList_below bs _ _ (Memory.write_below b h (by omega)) (by omega)

/-- Outside the run a byte is as before. -/
theorem Memory.read_writeList_other {c : Nat} : ∀ (bs : List Byte) (m : Memory) (a : Nat), c < a ∨ a + bs.length ≤ c →
    (m.writeList a bs).read c = m.read c
  | [], _, _, _ => rfl
  | b :: bs, m, a, h => by
    rw [List.length_cons] at h
    exact (Memory.read_writeList_other bs _ (a + 1) (by omega)).trans (m.read_write_other b (by omega))

/-- Inside the run a byte is the one written. -/
theorem Memory.read_writeList_same : ∀ (bs : List Byte) (m : Memory) (a j : Nat) (b : Byte), m.wf → bs[j]? = some b →
    (m.writeList a bs).read (a + j) = b
  | x :: bs, m, a, 0, b, h, hb => by
    rw [List.getElem?_cons_zero, Option.some.injEq] at hb
    exact (Memory.read_writeList_other bs _ (a + 1) (by omega)).trans (hb ▸ m.read_write_same a x h)
  | x :: bs, m, a, j + 1, b, h, hb => by
    rw [List.getElem?_cons_succ] at hb
    have := Memory.read_writeList_same bs (m.write a x) (a + 1) j b (m.write_wf a x h) hb
    rwa [show a + 1 + j = a + (j + 1) by omega] at this

theorem Memory.writeList_append : ∀ (bs cs : List Byte) (m : Memory) (a : Nat),
    m.writeList a (bs ++ cs) = (m.writeList a bs).writeList (a + bs.length) cs
  | [], _, _, _ => rfl
  | b :: bs, cs, m, a => by
    rw [List.cons_append, Memory.writeList, Memory.writeList, Memory.writeList_append bs cs, List.length_cons,
      show a + 1 + bs.length = a + (bs.length + 1) by omega]

end Sys2Proof.Machine
end

