-- ==== Sys2Proof/Laws/State.lean ====
section
/-! SUPPORT. For each named update of the state, what every field is after it (each true by rfl), so that no proof unfolds a
record update; and the reads of the two-level stores after a write. -/

namespace Sys2Proof.Machine

variable (s : State)

/-! ### State.raise -/

@[simp] theorem State.raise_params (k : ErrKind) (o : Nat) (m : Byte) (t : Option Byte) : (s.raise k o m t).params = s.params := rfl
@[simp] theorem State.raise_regs (k : ErrKind) (o : Nat) (m : Byte) (t : Option Byte) : (s.raise k o m t).regs = s.regs := rfl
@[simp] theorem State.raise_err (k : ErrKind) (o : Nat) (m : Byte) (t : Option Byte) : (s.raise k o m t).err = { code := k.code, offset := BitVec.ofNat 32 o, marker := m, table := errTable t } := rfl
@[simp] theorem State.raise_phase (k : ErrKind) (o : Nat) (m : Byte) (t : Option Byte) : (s.raise k o m t).phase = .error := rfl
@[simp] theorem State.raise_pc (k : ErrKind) (o : Nat) (m : Byte) (t : Option Byte) : (s.raise k o m t).pc = s.pc := rfl
@[simp] theorem State.raise_seenSoi (k : ErrKind) (o : Nat) (m : Byte) (t : Option Byte) : (s.raise k o m t).seenSoi = s.seenSoi := rfl
@[simp] theorem State.raise_seenSof (k : ErrKind) (o : Nat) (m : Byte) (t : Option Byte) : (s.raise k o m t).seenSof = s.seenSof := rfl
@[simp] theorem State.raise_scanDone (k : ErrKind) (o : Nat) (m : Byte) (t : Option Byte) : (s.raise k o m t).scanDone = s.scanDone := rfl
@[simp] theorem State.raise_inLenL (k : ErrKind) (o : Nat) (m : Byte) (t : Option Byte) : (s.raise k o m t).inLenL = s.inLenL := rfl
@[simp] theorem State.raise_bgrL (k : ErrKind) (o : Nat) (m : Byte) (t : Option Byte) : (s.raise k o m t).bgrL = s.bgrL := rfl
@[simp] theorem State.raise_fh (k : ErrKind) (o : Nat) (m : Byte) (t : Option Byte) : (s.raise k o m t).fh = s.fh := rfl
@[simp] theorem State.raise_sh (k : ErrKind) (o : Nat) (m : Byte) (t : Option Byte) : (s.raise k o m t).sh = s.sh := rfl
@[simp] theorem State.raise_qt (k : ErrKind) (o : Nat) (m : Byte) (t : Option Byte) : (s.raise k o m t).qt = s.qt := rfl
@[simp] theorem State.raise_ht (k : ErrKind) (o : Nat) (m : Byte) (t : Option Byte) : (s.raise k o m t).ht = s.ht := rfl
@[simp] theorem State.raise_scan (k : ErrKind) (o : Nat) (m : Byte) (t : Option Byte) : (s.raise k o m t).scan = s.scan := rfl
@[simp] theorem State.raise_scanLen (k : ErrKind) (o : Nat) (m : Byte) (t : Option Byte) : (s.raise k o m t).scanLen = s.scanLen := rfl
@[simp] theorem State.raise_br (k : ErrKind) (o : Nat) (m : Byte) (t : Option Byte) : (s.raise k o m t).br = s.br := rfl
@[simp] theorem State.raise_pred (k : ErrKind) (o : Nat) (m : Byte) (t : Option Byte) : (s.raise k o m t).pred = s.pred := rfl
@[simp] theorem State.raise_blk (k : ErrKind) (o : Nat) (m : Byte) (t : Option Byte) : (s.raise k o m t).blk = s.blk := rfl
@[simp] theorem State.raise_seq (k : ErrKind) (o : Nat) (m : Byte) (t : Option Byte) : (s.raise k o m t).seq = s.seq := rfl
@[simp] theorem State.raise_inMem (k : ErrKind) (o : Nat) (m : Byte) (t : Option Byte) : (s.raise k o m t).inMem = s.inMem := rfl
@[simp] theorem State.raise_outMem (k : ErrKind) (o : Nat) (m : Byte) (t : Option Byte) : (s.raise k o m t).outMem = s.outMem := rfl
@[simp] theorem State.raise_item (k : ErrKind) (o : Nat) (m : Byte) (t : Option Byte) : (s.raise k o m t).item = .start := rfl
@[simp] theorem State.raise_hostMoves (k : ErrKind) (o : Nat) (m : Byte) (t : Option Byte) : (s.raise k o m t).hostMoves = s.hostMoves := rfl
@[simp] theorem State.raise_rdata (k : ErrKind) (o : Nat) (m : Byte) (t : Option Byte) : (s.raise k o m t).rdata = s.rdata := rfl

/-! ### State.cleared -/

@[simp] theorem State.cleared_params : (s.cleared).params = s.params := rfl
@[simp] theorem State.cleared_regs : (s.cleared).regs = { s.regs with width := 0, height := 0, stride := 0, outLen := 0 } := rfl
@[simp] theorem State.cleared_err : (s.cleared).err = .zero := rfl
@[simp] theorem State.cleared_phase : (s.cleared).phase = .parse := rfl
@[simp] theorem State.cleared_pc : (s.cleared).pc = 0 := rfl
@[simp] theorem State.cleared_seenSoi : (s.cleared).seenSoi = false := rfl
@[simp] theorem State.cleared_seenSof : (s.cleared).seenSof = false := rfl
@[simp] theorem State.cleared_scanDone : (s.cleared).scanDone = false := rfl
@[simp] theorem State.cleared_inLenL : (s.cleared).inLenL = s.regs.inLen := rfl
@[simp] theorem State.cleared_bgrL : (s.cleared).bgrL = s.regs.ctrlBgr := rfl
@[simp] theorem State.cleared_fh : (s.cleared).fh = .zero := rfl
@[simp] theorem State.cleared_sh : (s.cleared).sh = .zero := rfl
@[simp] theorem State.cleared_qt : (s.cleared).qt = .zero := rfl
@[simp] theorem State.cleared_ht : (s.cleared).ht = .zero := rfl
@[simp] theorem State.cleared_scan : (s.cleared).scan = s.scan := rfl
@[simp] theorem State.cleared_scanLen : (s.cleared).scanLen = 0 := rfl
@[simp] theorem State.cleared_br : (s.cleared).br = .zero := rfl
@[simp] theorem State.cleared_pred : (s.cleared).pred = predZero := rfl
@[simp] theorem State.cleared_blk : (s.cleared).blk = s.blk := rfl
@[simp] theorem State.cleared_seq : (s.cleared).seq = .zero := rfl
@[simp] theorem State.cleared_inMem : (s.cleared).inMem = s.inMem := rfl
@[simp] theorem State.cleared_outMem : (s.cleared).outMem = s.outMem := rfl
@[simp] theorem State.cleared_item : (s.cleared).item = .start := rfl
@[simp] theorem State.cleared_hostMoves : (s.cleared).hostMoves = s.hostMoves := rfl
@[simp] theorem State.cleared_rdata : (s.cleared).rdata = s.rdata := rfl

/-! ### enterDecode -/

@[simp] theorem enterDecode_params : (enterDecode s).params = s.params := rfl
@[simp] theorem enterDecode_regs : (enterDecode s).regs = s.regs := rfl
@[simp] theorem enterDecode_err : (enterDecode s).err = s.err := rfl
@[simp] theorem enterDecode_phase : (enterDecode s).phase = .decode := rfl
@[simp] theorem enterDecode_pc : (enterDecode s).pc = s.pc := rfl
@[simp] theorem enterDecode_seenSoi : (enterDecode s).seenSoi = s.seenSoi := rfl
@[simp] theorem enterDecode_seenSof : (enterDecode s).seenSof = s.seenSof := rfl
@[simp] theorem enterDecode_scanDone : (enterDecode s).scanDone = s.scanDone := rfl
@[simp] theorem enterDecode_inLenL : (enterDecode s).inLenL = s.inLenL := rfl
@[simp] theorem enterDecode_bgrL : (enterDecode s).bgrL = s.bgrL := rfl
@[simp] theorem enterDecode_fh : (enterDecode s).fh = s.fh := rfl
@[simp] theorem enterDecode_sh : (enterDecode s).sh = s.sh := rfl
@[simp] theorem enterDecode_qt : (enterDecode s).qt = s.qt := rfl
@[simp] theorem enterDecode_ht : (enterDecode s).ht = s.ht := rfl
@[simp] theorem enterDecode_scan : (enterDecode s).scan = s.scan := rfl
@[simp] theorem enterDecode_scanLen : (enterDecode s).scanLen = s.scanLen := rfl
@[simp] theorem enterDecode_br : (enterDecode s).br = .zero := rfl
@[simp] theorem enterDecode_pred : (enterDecode s).pred = predZero := rfl
@[simp] theorem enterDecode_blk : (enterDecode s).blk = s.blk := rfl
@[simp] theorem enterDecode_seq : (enterDecode s).seq = { s.seq with x := 0, y := 0 } := rfl
@[simp] theorem enterDecode_inMem : (enterDecode s).inMem = s.inMem := rfl
@[simp] theorem enterDecode_outMem : (enterDecode s).outMem = s.outMem := rfl
@[simp] theorem enterDecode_item : (enterDecode s).item = .start := rfl
@[simp] theorem enterDecode_hostMoves : (enterDecode s).hostMoves = s.hostMoves := rfl
@[simp] theorem enterDecode_rdata : (enterDecode s).rdata = s.rdata := rfl

/-! ### dropBits -/

@[simp] theorem dropBits_params (n : Nat) : (dropBits n s).params = s.params := rfl
@[simp] theorem dropBits_regs (n : Nat) : (dropBits n s).regs = s.regs := rfl
@[simp] theorem dropBits_err (n : Nat) : (dropBits n s).err = s.err := rfl
@[simp] theorem dropBits_phase (n : Nat) : (dropBits n s).phase = s.phase := rfl
@[simp] theorem dropBits_pc (n : Nat) : (dropBits n s).pc = s.pc := rfl
@[simp] theorem dropBits_seenSoi (n : Nat) : (dropBits n s).seenSoi = s.seenSoi := rfl
@[simp] theorem dropBits_seenSof (n : Nat) : (dropBits n s).seenSof = s.seenSof := rfl
@[simp] theorem dropBits_scanDone (n : Nat) : (dropBits n s).scanDone = s.scanDone := rfl
@[simp] theorem dropBits_inLenL (n : Nat) : (dropBits n s).inLenL = s.inLenL := rfl
@[simp] theorem dropBits_bgrL (n : Nat) : (dropBits n s).bgrL = s.bgrL := rfl
@[simp] theorem dropBits_fh (n : Nat) : (dropBits n s).fh = s.fh := rfl
@[simp] theorem dropBits_sh (n : Nat) : (dropBits n s).sh = s.sh := rfl
@[simp] theorem dropBits_qt (n : Nat) : (dropBits n s).qt = s.qt := rfl
@[simp] theorem dropBits_ht (n : Nat) : (dropBits n s).ht = s.ht := rfl
@[simp] theorem dropBits_scan (n : Nat) : (dropBits n s).scan = s.scan := rfl
@[simp] theorem dropBits_scanLen (n : Nat) : (dropBits n s).scanLen = s.scanLen := rfl
@[simp] theorem dropBits_br (n : Nat) : (dropBits n s).br = { s.br with cnt := s.br.cnt - n, acc := BitVec.ofNat 32 (s.br.acc.toNat % 2 ^ (s.br.cnt - n)) } := rfl
@[simp] theorem dropBits_pred (n : Nat) : (dropBits n s).pred = s.pred := rfl
@[simp] theorem dropBits_blk (n : Nat) : (dropBits n s).blk = s.blk := rfl
@[simp] theorem dropBits_seq (n : Nat) : (dropBits n s).seq = s.seq := rfl
@[simp] theorem dropBits_inMem (n : Nat) : (dropBits n s).inMem = s.inMem := rfl
@[simp] theorem dropBits_outMem (n : Nat) : (dropBits n s).outMem = s.outMem := rfl
@[simp] theorem dropBits_item (n : Nat) : (dropBits n s).item = s.item := rfl
@[simp] theorem dropBits_hostMoves (n : Nat) : (dropBits n s).hostMoves = s.hostMoves := rfl
@[simp] theorem dropBits_rdata (n : Nat) : (dropBits n s).rdata = s.rdata := rfl

/-! ### commitFrame -/

@[simp] theorem commitFrame_params (fh : FrameHeader) : (commitFrame fh s).params = s.params := rfl
@[simp] theorem commitFrame_regs (fh : FrameHeader) : (commitFrame fh s).regs = { s.regs with width := fh.x, height := fh.y, stride := BitVec.ofNat 32 (strideOf (ceil16 fh.x.toNat)), outLen := BitVec.ofNat 64 (outLenOf (ceil16 fh.x.toNat) (ceil16 fh.y.toNat)) } := rfl
@[simp] theorem commitFrame_err (fh : FrameHeader) : (commitFrame fh s).err = s.err := rfl
@[simp] theorem commitFrame_phase (fh : FrameHeader) : (commitFrame fh s).phase = s.phase := rfl
@[simp] theorem commitFrame_pc (fh : FrameHeader) : (commitFrame fh s).pc = s.pc := rfl
@[simp] theorem commitFrame_seenSoi (fh : FrameHeader) : (commitFrame fh s).seenSoi = s.seenSoi := rfl
@[simp] theorem commitFrame_seenSof (fh : FrameHeader) : (commitFrame fh s).seenSof = true := rfl
@[simp] theorem commitFrame_scanDone (fh : FrameHeader) : (commitFrame fh s).scanDone = s.scanDone := rfl
@[simp] theorem commitFrame_inLenL (fh : FrameHeader) : (commitFrame fh s).inLenL = s.inLenL := rfl
@[simp] theorem commitFrame_bgrL (fh : FrameHeader) : (commitFrame fh s).bgrL = s.bgrL := rfl
@[simp] theorem commitFrame_fh (fh : FrameHeader) : (commitFrame fh s).fh = fh := rfl
@[simp] theorem commitFrame_sh (fh : FrameHeader) : (commitFrame fh s).sh = s.sh := rfl
@[simp] theorem commitFrame_qt (fh : FrameHeader) : (commitFrame fh s).qt = s.qt := rfl
@[simp] theorem commitFrame_ht (fh : FrameHeader) : (commitFrame fh s).ht = s.ht := rfl
@[simp] theorem commitFrame_scan (fh : FrameHeader) : (commitFrame fh s).scan = s.scan := rfl
@[simp] theorem commitFrame_scanLen (fh : FrameHeader) : (commitFrame fh s).scanLen = s.scanLen := rfl
@[simp] theorem commitFrame_br (fh : FrameHeader) : (commitFrame fh s).br = s.br := rfl
@[simp] theorem commitFrame_pred (fh : FrameHeader) : (commitFrame fh s).pred = s.pred := rfl
@[simp] theorem commitFrame_blk (fh : FrameHeader) : (commitFrame fh s).blk = s.blk := rfl
@[simp] theorem commitFrame_seq (fh : FrameHeader) : (commitFrame fh s).seq = { s.seq with cols := BitVec.ofNat 16 (ceil16 fh.x.toNat), rows := BitVec.ofNat 16 (ceil16 fh.y.toNat) } := rfl
@[simp] theorem commitFrame_inMem (fh : FrameHeader) : (commitFrame fh s).inMem = s.inMem := rfl
@[simp] theorem commitFrame_outMem (fh : FrameHeader) : (commitFrame fh s).outMem = s.outMem := rfl
@[simp] theorem commitFrame_item (fh : FrameHeader) : (commitFrame fh s).item = s.item := rfl
@[simp] theorem commitFrame_hostMoves (fh : FrameHeader) : (commitFrame fh s).hostMoves = s.hostMoves := rfl
@[simp] theorem commitFrame_rdata (fh : FrameHeader) : (commitFrame fh s).rdata = s.rdata := rfl

/-! ### commitDc -/

@[simp] theorem commitDc_params (d : Int) : (commitDc d s).params = s.params := rfl
@[simp] theorem commitDc_regs (d : Int) : (commitDc d s).regs = s.regs := rfl
@[simp] theorem commitDc_err (d : Int) : (commitDc d s).err = s.err := rfl
@[simp] theorem commitDc_phase (d : Int) : (commitDc d s).phase = s.phase := rfl
@[simp] theorem commitDc_pc (d : Int) : (commitDc d s).pc = s.pc := rfl
@[simp] theorem commitDc_seenSoi (d : Int) : (commitDc d s).seenSoi = s.seenSoi := rfl
@[simp] theorem commitDc_seenSof (d : Int) : (commitDc d s).seenSof = s.seenSof := rfl
@[simp] theorem commitDc_scanDone (d : Int) : (commitDc d s).scanDone = s.scanDone := rfl
@[simp] theorem commitDc_inLenL (d : Int) : (commitDc d s).inLenL = s.inLenL := rfl
@[simp] theorem commitDc_bgrL (d : Int) : (commitDc d s).bgrL = s.bgrL := rfl
@[simp] theorem commitDc_fh (d : Int) : (commitDc d s).fh = s.fh := rfl
@[simp] theorem commitDc_sh (d : Int) : (commitDc d s).sh = s.sh := rfl
@[simp] theorem commitDc_qt (d : Int) : (commitDc d s).qt = s.qt := rfl
@[simp] theorem commitDc_ht (d : Int) : (commitDc d s).ht = s.ht := rfl
@[simp] theorem commitDc_scan (d : Int) : (commitDc d s).scan = s.scan := rfl
@[simp] theorem commitDc_scanLen (d : Int) : (commitDc d s).scanLen = s.scanLen := rfl
@[simp] theorem commitDc_br (d : Int) : (commitDc d s).br = s.br := rfl
@[simp] theorem commitDc_pred (d : Int) : (commitDc d s).pred = s.pred.set (comp s.item.blk) (s.pred[comp s.item.blk] + BitVec.ofInt 64 d) := rfl
@[simp] theorem commitDc_blk (d : Int) : (commitDc d s).blk = s.blk.set s.item.blk (dcBlock (s.pred[comp s.item.blk] + BitVec.ofInt 64 d)) := rfl
@[simp] theorem commitDc_seq (d : Int) : (commitDc d s).seq = s.seq := rfl
@[simp] theorem commitDc_inMem (d : Int) : (commitDc d s).inMem = s.inMem := rfl
@[simp] theorem commitDc_outMem (d : Int) : (commitDc d s).outMem = s.outMem := rfl
@[simp] theorem commitDc_item (d : Int) : (commitDc d s).item = { s.item with k := 1 } := rfl
@[simp] theorem commitDc_hostMoves (d : Int) : (commitDc d s).hostMoves = s.hostMoves := rfl
@[simp] theorem commitDc_rdata (d : Int) : (commitDc d s).rdata = s.rdata := rfl

/-! ### State.withK -/

@[simp] theorem State.withK_params (k : Nat) : (s.withK k).params = s.params := rfl
@[simp] theorem State.withK_regs (k : Nat) : (s.withK k).regs = s.regs := rfl
@[simp] theorem State.withK_err (k : Nat) : (s.withK k).err = s.err := rfl
@[simp] theorem State.withK_phase (k : Nat) : (s.withK k).phase = s.phase := rfl
@[simp] theorem State.withK_pc (k : Nat) : (s.withK k).pc = s.pc := rfl
@[simp] theorem State.withK_seenSoi (k : Nat) : (s.withK k).seenSoi = s.seenSoi := rfl
@[simp] theorem State.withK_seenSof (k : Nat) : (s.withK k).seenSof = s.seenSof := rfl
@[simp] theorem State.withK_scanDone (k : Nat) : (s.withK k).scanDone = s.scanDone := rfl
@[simp] theorem State.withK_inLenL (k : Nat) : (s.withK k).inLenL = s.inLenL := rfl
@[simp] theorem State.withK_bgrL (k : Nat) : (s.withK k).bgrL = s.bgrL := rfl
@[simp] theorem State.withK_fh (k : Nat) : (s.withK k).fh = s.fh := rfl
@[simp] theorem State.withK_sh (k : Nat) : (s.withK k).sh = s.sh := rfl
@[simp] theorem State.withK_qt (k : Nat) : (s.withK k).qt = s.qt := rfl
@[simp] theorem State.withK_ht (k : Nat) : (s.withK k).ht = s.ht := rfl
@[simp] theorem State.withK_scan (k : Nat) : (s.withK k).scan = s.scan := rfl
@[simp] theorem State.withK_scanLen (k : Nat) : (s.withK k).scanLen = s.scanLen := rfl
@[simp] theorem State.withK_br (k : Nat) : (s.withK k).br = s.br := rfl
@[simp] theorem State.withK_pred (k : Nat) : (s.withK k).pred = s.pred := rfl
@[simp] theorem State.withK_blk (k : Nat) : (s.withK k).blk = s.blk := rfl
@[simp] theorem State.withK_seq (k : Nat) : (s.withK k).seq = s.seq := rfl
@[simp] theorem State.withK_inMem (k : Nat) : (s.withK k).inMem = s.inMem := rfl
@[simp] theorem State.withK_outMem (k : Nat) : (s.withK k).outMem = s.outMem := rfl
@[simp] theorem State.withK_item (k : Nat) : (s.withK k).item = { s.item with k := k } := rfl
@[simp] theorem State.withK_hostMoves (k : Nat) : (s.withK k).hostMoves = s.hostMoves := rfl
@[simp] theorem State.withK_rdata (k : Nat) : (s.withK k).rdata = s.rdata := rfl

/-! ### State.setCoef -/

@[simp] theorem State.setCoef_params (i : Fin 64) (v : Int) : (s.setCoef i v).params = s.params := rfl
@[simp] theorem State.setCoef_regs (i : Fin 64) (v : Int) : (s.setCoef i v).regs = s.regs := rfl
@[simp] theorem State.setCoef_err (i : Fin 64) (v : Int) : (s.setCoef i v).err = s.err := rfl
@[simp] theorem State.setCoef_phase (i : Fin 64) (v : Int) : (s.setCoef i v).phase = s.phase := rfl
@[simp] theorem State.setCoef_pc (i : Fin 64) (v : Int) : (s.setCoef i v).pc = s.pc := rfl
@[simp] theorem State.setCoef_seenSoi (i : Fin 64) (v : Int) : (s.setCoef i v).seenSoi = s.seenSoi := rfl
@[simp] theorem State.setCoef_seenSof (i : Fin 64) (v : Int) : (s.setCoef i v).seenSof = s.seenSof := rfl
@[simp] theorem State.setCoef_scanDone (i : Fin 64) (v : Int) : (s.setCoef i v).scanDone = s.scanDone := rfl
@[simp] theorem State.setCoef_inLenL (i : Fin 64) (v : Int) : (s.setCoef i v).inLenL = s.inLenL := rfl
@[simp] theorem State.setCoef_bgrL (i : Fin 64) (v : Int) : (s.setCoef i v).bgrL = s.bgrL := rfl
@[simp] theorem State.setCoef_fh (i : Fin 64) (v : Int) : (s.setCoef i v).fh = s.fh := rfl
@[simp] theorem State.setCoef_sh (i : Fin 64) (v : Int) : (s.setCoef i v).sh = s.sh := rfl
@[simp] theorem State.setCoef_qt (i : Fin 64) (v : Int) : (s.setCoef i v).qt = s.qt := rfl
@[simp] theorem State.setCoef_ht (i : Fin 64) (v : Int) : (s.setCoef i v).ht = s.ht := rfl
@[simp] theorem State.setCoef_scan (i : Fin 64) (v : Int) : (s.setCoef i v).scan = s.scan := rfl
@[simp] theorem State.setCoef_scanLen (i : Fin 64) (v : Int) : (s.setCoef i v).scanLen = s.scanLen := rfl
@[simp] theorem State.setCoef_br (i : Fin 64) (v : Int) : (s.setCoef i v).br = s.br := rfl
@[simp] theorem State.setCoef_pred (i : Fin 64) (v : Int) : (s.setCoef i v).pred = s.pred := rfl
@[simp] theorem State.setCoef_blk (i : Fin 64) (v : Int) : (s.setCoef i v).blk = s.blk.set s.item.blk (s.blk[s.item.blk].set i (BitVec.ofInt 64 v)) := rfl
@[simp] theorem State.setCoef_seq (i : Fin 64) (v : Int) : (s.setCoef i v).seq = s.seq := rfl
@[simp] theorem State.setCoef_inMem (i : Fin 64) (v : Int) : (s.setCoef i v).inMem = s.inMem := rfl
@[simp] theorem State.setCoef_outMem (i : Fin 64) (v : Int) : (s.setCoef i v).outMem = s.outMem := rfl
@[simp] theorem State.setCoef_item (i : Fin 64) (v : Int) : (s.setCoef i v).item = s.item := rfl
@[simp] theorem State.setCoef_hostMoves (i : Fin 64) (v : Int) : (s.setCoef i v).hostMoves = s.hostMoves := rfl
@[simp] theorem State.setCoef_rdata (i : Fin 64) (v : Int) : (s.setCoef i v).rdata = s.rdata := rfl

/-! ### State.answer -/

@[simp] theorem State.answer_params (v : Word) : (s.answer v).params = s.params := rfl
@[simp] theorem State.answer_regs (v : Word) : (s.answer v).regs = s.regs := rfl
@[simp] theorem State.answer_err (v : Word) : (s.answer v).err = s.err := rfl
@[simp] theorem State.answer_phase (v : Word) : (s.answer v).phase = s.phase := rfl
@[simp] theorem State.answer_pc (v : Word) : (s.answer v).pc = s.pc := rfl
@[simp] theorem State.answer_seenSoi (v : Word) : (s.answer v).seenSoi = s.seenSoi := rfl
@[simp] theorem State.answer_seenSof (v : Word) : (s.answer v).seenSof = s.seenSof := rfl
@[simp] theorem State.answer_scanDone (v : Word) : (s.answer v).scanDone = s.scanDone := rfl
@[simp] theorem State.answer_inLenL (v : Word) : (s.answer v).inLenL = s.inLenL := rfl
@[simp] theorem State.answer_bgrL (v : Word) : (s.answer v).bgrL = s.bgrL := rfl
@[simp] theorem State.answer_fh (v : Word) : (s.answer v).fh = s.fh := rfl
@[simp] theorem State.answer_sh (v : Word) : (s.answer v).sh = s.sh := rfl
@[simp] theorem State.answer_qt (v : Word) : (s.answer v).qt = s.qt := rfl
@[simp] theorem State.answer_ht (v : Word) : (s.answer v).ht = s.ht := rfl
@[simp] theorem State.answer_scan (v : Word) : (s.answer v).scan = s.scan := rfl
@[simp] theorem State.answer_scanLen (v : Word) : (s.answer v).scanLen = s.scanLen := rfl
@[simp] theorem State.answer_br (v : Word) : (s.answer v).br = s.br := rfl
@[simp] theorem State.answer_pred (v : Word) : (s.answer v).pred = s.pred := rfl
@[simp] theorem State.answer_blk (v : Word) : (s.answer v).blk = s.blk := rfl
@[simp] theorem State.answer_seq (v : Word) : (s.answer v).seq = s.seq := rfl
@[simp] theorem State.answer_inMem (v : Word) : (s.answer v).inMem = s.inMem := rfl
@[simp] theorem State.answer_outMem (v : Word) : (s.answer v).outMem = s.outMem := rfl
@[simp] theorem State.answer_item (v : Word) : (s.answer v).item = s.item := rfl
@[simp] theorem State.answer_hostMoves (v : Word) : (s.answer v).hostMoves = s.hostMoves := rfl
@[simp] theorem State.answer_rdata (v : Word) : (s.answer v).rdata = v := rfl

/-! ### The stores -/

@[simp] theorem HuffStore.get_set (h : HuffStore) (tc th : Bool) (t : HuffTable) : (h.set tc th t).get tc th = t := by
  cases tc <;> cases th <;> rfl

theorem HuffStore.get_set_other (h : HuffStore) (tc th tc' th' : Bool) (t : HuffTable) (hne : (tc, th) ≠ (tc', th')) :
    (h.set tc th t).get tc' th' = h.get tc' th' := by
  cases tc <;> cases th <;> cases tc' <;> cases th' <;> first | rfl | exact absurd rfl hne

@[simp] theorem HuffStore.get_zero (tc th : Bool) : HuffStore.zero.get tc th = [] := by
  cases tc <;> cases th <;> rfl

theorem QuantStore.setVal_same (q : QuantStore) (t : Fin 4) (i : Fin 64) (v : Byte) :
    ((q.setVal t i v).vals[t])[i] = v := by
  simp [QuantStore.setVal]

theorem QuantStore.setVal_other (q : QuantStore) (t : Fin 4) (i j : Fin 64) (v : Byte) (h : i ≠ j) :
    ((q.setVal t i v).vals[t])[j] = q.vals[t][j] := by
  have : i.val ≠ j.val := fun e => h (Fin.ext e)
  simp [QuantStore.setVal, this]

theorem QuantStore.setVal_otherSlot (q : QuantStore) (t u : Fin 4) (i : Fin 64) (v : Byte) (h : t ≠ u) :
    (q.setVal t i v).vals[u] = q.vals[u] := by
  have : t.val ≠ u.val := fun e => h (Fin.ext e)
  simp [QuantStore.setVal, this]

@[simp] theorem QuantStore.setVal_valid (q : QuantStore) (t : Fin 4) (i : Fin 64) (v : Byte) :
    (q.setVal t i v).valid = q.valid := rfl

@[simp] theorem QuantStore.setValid_vals (q : QuantStore) (t : Fin 4) : (q.setValid t).vals = q.vals := rfl

/-! ### STATUS and BUSY -/

theorem State.busy_iff : s.busy = true ↔ s.phase = .parse ∨ s.phase = .decode := by
  unfold State.busy; cases s.phase <;> simp

/-- At most one of BUSY, DONE and ERROR is 1, and STATUS is 0 exactly in IDLE (10 R127). -/
theorem State.status_eq : s.status =
    if s.busy then 1 else if s.phase = .done then 2 else if s.phase = .error then 4 else 0 := by
  unfold State.status State.busy; cases s.phase <;> simp

end Sys2Proof.Machine
end

