-- ==== Sys2Proof/Laws/Ops.lean ====
section
/-! SUPPORT. One lemma for each thing a shared operation of Machine/Ops.lean can do, and the rule for sequencing them:
what holds after each part holds after the whole. -/

namespace Sys2Proof.Machine

/-! ## Sequencing -/

variable {α β : Type}

@[simp] theorem Eff.bind_ok (a : α) (s : State) (f : α → State → Eff β) : (Eff.ok a s).bind f = f a s := rfl

@[simp] theorem Eff.bind_raised (s : State) (f : α → State → Eff β) : (Eff.raised s).bind f = .raised s := rfl

@[simp] theorem Eff.bind_stop (r : Fault) (f : α → State → Eff β) : (Eff.stop r).bind f = .stop r := rfl

@[simp] theorem Eff.outcome_ok (s : State) : (Eff.ok () s).outcome = .next s := rfl

@[simp] theorem Eff.outcome_raised (s : State) : (Eff.raised s).outcome = .next s := rfl

@[simp] theorem Eff.outcome_stop (r : Fault) : (Eff.stop r).outcome = .fault r := rfl

theorem Eff.bind_assoc {γ : Type} (e : Eff α) (f : α → State → Eff β) (g : β → State → Eff γ) :
    (e.bind f).bind g = e.bind fun a s => (f a s).bind g := by
  cases e <;> rfl

/-- Where a sequence ends well, each part ended well. -/
theorem Eff.bind_eq_ok {e : Eff α} {f : α → State → Eff β} {b : β} {t : State} :
    e.bind f = .ok b t ↔ ∃ a s, e = .ok a s ∧ f a s = .ok b t := by
  cases e <;> simp

/-- An instruction never refuses; it answers a next state unless an access stopped it. -/
theorem Eff.outcome_eq_next {e : Eff Unit} {t : State} : e.outcome = .next t ↔ e = .ok () t ∨ e = .raised t := by
  cases e <;> simp [Eff.outcome]

/-! ## What holds after a part -/

/-- `e` stops at no access, and `Q` holds where it goes on, `R` where it raises. -/
def Eff.Holds (e : Eff α) (Q : α → State → Prop) (R : State → Prop) : Prop :=
  match e with
  | .ok a s => Q a s
  | .raised s => R s
  | .stop _ => False

@[simp] theorem Eff.holds_ok (a : α) (s : State) (Q : α → State → Prop) (R : State → Prop) :
    (Eff.ok a s).Holds Q R ↔ Q a s := Iff.rfl

@[simp] theorem Eff.holds_raised (s : State) (Q : α → State → Prop) (R : State → Prop) :
    (Eff.raised s : Eff α).Holds Q R ↔ R s := Iff.rfl

theorem Eff.Holds.bind {e : Eff α} {f : α → State → Eff β} {Q : α → State → Prop} {Q' : β → State → Prop}
    {R : State → Prop} (h : e.Holds Q R) (hf : ∀ a s, Q a s → (f a s).Holds Q' R) : (e.bind f).Holds Q' R := by
  cases e with
  | ok a s => exact hf a s h
  | raised s => exact h
  | stop r => exact h

theorem Eff.Holds.mono {e : Eff α} {Q Q' : α → State → Prop} {R R' : State → Prop} (h : e.Holds Q R)
    (hQ : ∀ a s, Q a s → Q' a s) (hR : ∀ s, R s → R' s) : e.Holds Q' R' := by
  cases e with
  | ok a s => exact hQ a s h
  | raised s => exact hR s h
  | stop r => exact h

theorem Eff.Holds.outcome {e : Eff Unit} {P : State → Prop} (h : e.Holds (fun _ => P) P) :
    ∃ t, e.outcome = .next t ∧ P t := by
  cases e with
  | ok a s => exact ⟨s, rfl, h⟩
  | raised s => exact ⟨s, rfl, h⟩
  | stop r => exact h.elim

/-- A loop over a list keeps what its body keeps. -/
theorem Eff.holds_forEach {ι : Type} {body : ι → State → Eff Unit} {P R : State → Prop} :
    ∀ (xs : List ι), (∀ x ∈ xs, ∀ s, P s → (body x s).Holds (fun _ => P) R) →
      ∀ s, P s → (Eff.forEach body xs s).Holds (fun _ => P) R
  | [], _, _, hs => hs
  | x :: xs, hb, s, hs =>
    (hb x (by simp) s hs).bind fun _ t ht =>
      Eff.holds_forEach xs (fun y hy => hb y (List.mem_cons_of_mem _ hy)) t ht

@[simp] theorem Eff.forEach_nil {ι : Type} (body : ι → State → Eff Unit) (s : State) :
    Eff.forEach body [] s = .ok () s := rfl

@[simp] theorem Eff.forEach_cons {ι : Type} (body : ι → State → Eff Unit) (x : ι) (xs : List ι) (s : State) :
    Eff.forEach body (x :: xs) s = (body x s).bind fun _ s => Eff.forEach body xs s := rfl

theorem Eff.forEach_append {ι : Type} (body : ι → State → Eff Unit) :
    ∀ (xs ys : List ι) (s : State),
      Eff.forEach body (xs ++ ys) s = (Eff.forEach body xs s).bind fun _ s => Eff.forEach body ys s
  | [], _, _ => rfl
  | x :: xs, ys, s => by
    rw [List.cons_append, Eff.forEach_cons, Eff.forEach_cons, Eff.bind_assoc]
    congr 1; funext _ t; exact Eff.forEach_append body xs ys t

/-! ## Raising -/

theorem raise_eq (k : ErrKind) (o : Nat) (m : Byte) (t : Option Byte) (s : State) :
    (raise k o m t s : Eff α) = .raised (s.raise k o m t) := rfl

theorem raiseIf_true {c : Prop} [Decidable c] (h : c) (k : ErrKind) (o : Nat) (m : Byte) (t : Option Byte) (s : State) :
    raiseIf c k o m t s = .raised (s.raise k o m t) := by
  simp [raiseIf, h, raise]

theorem raiseIf_false {c : Prop} [Decidable c] (h : ¬c) (k : ErrKind) (o : Nat) (m : Byte) (t : Option Byte) (s : State) :
    raiseIf c k o m t s = .ok () s := by
  simp [raiseIf, h]

theorem holds_raiseIf {c : Prop} [Decidable c] {k : ErrKind} {o : Nat} {m : Byte} {t : Option Byte} {s : State}
    {Q : Unit → State → Prop} {R : State → Prop} (hR : c → R (s.raise k o m t)) (hQ : ¬c → Q () s) :
    (raiseIf c k o m t s).Holds Q R := by
  by_cases h : c
  · rw [raiseIf_true h]; exact hR h
  · rw [raiseIf_false h]; exact hQ h

theorem ErrKind.code_range (k : ErrKind) : 1 ≤ k.code.toNat ∧ k.code.toNat ≤ 5 := by
  cases k <;> decide

/-! ## Big-endian reads -/

@[simp] theorem Memory.readBE_zero (m : Memory) (a : Nat) : m.readBE a 0 = 0 := rfl

theorem Memory.readBE_succ (m : Memory) (a n : Nat) :
    m.readBE a (n + 1) = m.readBE a n * 256 + (m.read (a + n)).toNat := rfl

@[simp] theorem Memory.readBE_one (m : Memory) (a : Nat) : m.readBE a 1 = (m.read a).toNat := by
  simp [Memory.readBE]

theorem Memory.readBE_two (m : Memory) (a : Nat) :
    m.readBE a 2 = (m.read a).toNat * 256 + (m.read (a + 1)).toNat := by
  simp [Memory.readBE]

theorem Memory.readBE_lt (m : Memory) (a : Nat) : ∀ n, m.readBE a n < 256 ^ n
  | 0 => by simp
  | n + 1 => by
    have := Memory.readBE_lt m a n
    have hb := (m.read (a + n)).isLt
    rw [Memory.readBE_succ, Nat.pow_succ]; omega

theorem Memory.readBE_congr {m m' : Memory} {a : Nat} :
    ∀ n, (∀ j < n, m.read (a + j) = m'.read (a + j)) → m.readBE a n = m'.readBE a n
  | 0, _ => rfl
  | n + 1, h => by
    rw [Memory.readBE_succ, Memory.readBE_succ, Memory.readBE_congr n fun j hj => h j (by omega), h n (by omega)]

/-- The bytes of two adjacent runs. -/
theorem Memory.readBE_add (m : Memory) (a n : Nat) :
    ∀ k, m.readBE a (n + k) = m.readBE a n * 256 ^ k + m.readBE (a + n) k
  | 0 => by simp
  | k + 1 => by
    rw [← Nat.add_assoc, Memory.readBE_succ, Memory.readBE_add m a n k, Memory.readBE_succ, Nat.pow_succ,
      Nat.add_mul, Nat.mul_assoc, Nat.add_assoc, Nat.add_assoc a n k]

/-! ## The memory primitives -/

theorem memRead_ok {a n : Nat} {s : State} (h : a + n ≤ s.inLenL.toNat) :
    memRead a n s = .ok (s.inMem.readBE a n) s := by
  simp [memRead, h]

theorem memWrite_ok {a : Nat} {v : Byte} {s : State} (h : a < s.regs.outLen.toNat) (hc : a < s.params.outMemBytes) :
    memWrite a v s = .ok () { s with outMem := s.outMem.write a v } := by
  simp [memWrite, h, hc]

theorem scanAppend_ok {b : Byte} {s : State} (h : s.scanLen.toNat < s.params.scanMemBytes) :
    scanAppend b s = .ok () { s with scan := s.scan.write s.scanLen.toNat b, scanLen := s.scanLen + 1 } := by
  simp [scanAppend, h]

theorem scanRead_ok {i : Nat} {s : State} (h : i < s.scanLen.toNat) : scanRead i s = .ok (s.scan.read i) s := by
  simp [scanRead, h]

/-! ## START -/

theorem start_eq (s : State) : start s =
    if s.params.inMemBytes < s.regs.inLen.toNat then .raised (s.cleared.raise .resourceLimit 0 0 none)
    else .ok () s.cleared := by
  by_cases h : s.params.inMemBytes < s.regs.inLen.toNat <;> simp [start, raiseIf, raise, h]

end Sys2Proof.Machine
end

