-- ==== Sys2Proof/Laws/Operands.lean ====
section
/-! SUPPORT. What each operand form does: the fields of a segment, and the bits of the scan. Every lemma says the whole
answer of its operation under the conditions it needs. -/

namespace Sys2Proof.Machine

/-! ## The parser cursor -/

section atPc
variable (s : State) (p q : Nat)

theorem State.atPc_pc_toNat (h : p < 2 ^ 32) : (s.atPc p).pc.toNat = p := by
  simp only [State.atPc, BitVec.toNat_ofNat]; exact Nat.mod_eq_of_lt h

@[simp] theorem State.atPc_atPc : (s.atPc p).atPc q = s.atPc q := rfl

theorem State.atPc_self : s.atPc s.pc.toNat = s := by simp [State.atPc]

@[simp] theorem State.atPc_inMem : (s.atPc p).inMem = s.inMem := rfl
@[simp] theorem State.atPc_inLenL : (s.atPc p).inLenL = s.inLenL := rfl
@[simp] theorem State.atPc_fh : (s.atPc p).fh = s.fh := rfl
@[simp] theorem State.atPc_qt : (s.atPc p).qt = s.qt := rfl
@[simp] theorem State.atPc_ht : (s.atPc p).ht = s.ht := rfl
@[simp] theorem State.atPc_params : (s.atPc p).params = s.params := rfl
@[simp] theorem State.atPc_regs : (s.atPc p).regs = s.regs := rfl
end atPc

theorem State.pc_toNat_lt (s : State) : s.pc.toNat < 2 ^ 32 := s.pc.isLt

theorem State.inLenL_toNat_lt (s : State) : s.inLenL.toNat < 2 ^ 32 := s.inLenL.isLt

/-- A word plus a literal that does not carry out of it. -/
theorem Word.toNat_add_lit {x : Word} {n : Nat} (h : x.toNat + n < 2 ^ 32) :
    (x + BitVec.ofNat 32 n).toNat = x.toNat + n := by
  have hn : n < 2 ^ 32 := by omega
  rw [BitVec.toNat_add, BitVec.toNat_ofNat, Nat.mod_eq_of_lt hn, Nat.mod_eq_of_lt h]

theorem Word.toNat_add_one {x : Word} (h : x.toNat + 1 < 2 ^ 32) : (x + 1).toNat = x.toNat + 1 :=
  Word.toNat_add_lit (n := 1) h

theorem Word.toNat_add_two {x : Word} (h : x.toNat + 2 < 2 ^ 32) : (x + 2).toNat = x.toNat + 2 :=
  Word.toNat_add_lit (n := 2) h

/-! ## Segment fields -/

/-- `seg_header()` when its three checks pass (42 R425). -/
theorem segHeader_ok {m : Byte} {s : State} (h4 : s.pc.toNat + 4 ≤ s.inLenL.toNat)
    (h2 : 2 ≤ s.inMem.readBE (s.pc.toNat + 2) 2)
    (he : s.pc.toNat + 2 + s.inMem.readBE (s.pc.toNat + 2) 2 ≤ s.inLenL.toNat) :
    segHeader m s = .ok ⟨m, s.pc.toNat, s.inMem.readBE (s.pc.toNat + 2) 2,
      s.pc.toNat + 2 + s.inMem.readBE (s.pc.toNat + 2) 2⟩ (s.atPc (s.pc.toNat + 4)) := by
  unfold segHeader; dsimp only
  rw [raiseIf_false (by omega), Eff.bind_ok, memRead_ok (by omega), Eff.bind_ok, raiseIf_false (by omega), Eff.bind_ok,
    raiseIf_false (by omega), Eff.bind_ok]
  rfl

/-- `seg_header()` when one of its checks fails (42 R425). -/
theorem segHeader_bad {m : Byte} {s : State} (h : s.inLenL.toNat < s.pc.toNat + 4 ∨
    s.inMem.readBE (s.pc.toNat + 2) 2 < 2 ∨
    s.inLenL.toNat < s.pc.toNat + 2 + s.inMem.readBE (s.pc.toNat + 2) 2) :
    segHeader m s = .raised (s.raise .malformedContainer (s.pc.toNat + 2) m none) := by
  unfold segHeader; dsimp only
  by_cases h4 : s.inLenL.toNat < s.pc.toNat + 4
  · rw [raiseIf_true h4]; rfl
  · rw [raiseIf_false h4, Eff.bind_ok, memRead_ok (by omega), Eff.bind_ok]
    by_cases h2 : s.inMem.readBE (s.pc.toNat + 2) 2 < 2
    · rw [raiseIf_true h2]; rfl
    · rw [raiseIf_false h2, Eff.bind_ok, raiseIf_true (by omega)]; rfl

section fields
variable {g : Seg} {s : State} {p : Nat}

/-- A field inside its segment (42 R425). -/
theorem segField_ok {n : Nat} (hg : g.segEnd ≤ s.inLenL.toNat) (h : p + n ≤ g.segEnd) :
    segField g n (s.atPc p) = .ok (s.inMem.readBE p n) (s.atPc (p + n)) := by
  have hl := s.inLenL_toNat_lt
  have hp : (s.atPc p).pc.toNat = p := s.atPc_pc_toNat p (by omega)
  unfold segField
  rw [raiseIf_false (by omega), Eff.bind_ok, memRead_ok (by rw [hp, State.atPc_inLenL]; omega), Eff.bind_ok, hp]
  rfl

/-- A field outside its segment (42 R425). -/
theorem segField_short {n : Nat} (hp : p < 2 ^ 32) (h : g.segEnd < p + n) :
    segField g n (s.atPc p) = .raised ((s.atPc p).raise .malformedContainer p g.m none) := by
  have hp : (s.atPc p).pc.toNat = p := s.atPc_pc_toNat p hp
  unfold segField
  rw [raiseIf_true (by omega), hp]; rfl

theorem Memory.ofNat_read (m : Memory) (a : Nat) : BitVec.ofNat 8 (m.readBE a 1) = m.read a := by simp

theorem segByte_ok (hg : g.segEnd ≤ s.inLenL.toNat) (h : p + 1 ≤ g.segEnd) :
    segByte g (s.atPc p) = .ok (s.inMem.read p) (s.atPc (p + 1)) := by
  unfold segByte; rw [segField_ok hg h, Eff.bind_ok, Memory.ofNat_read]

theorem segByte_short (hp : p < 2 ^ 32) (h : g.segEnd ≤ p) :
    segByte g (s.atPc p) = .raised ((s.atPc p).raise .malformedContainer p g.m none) := by
  unfold segByte; rw [segField_short hp (by omega), Eff.bind_raised]

theorem segHalf_ok (hg : g.segEnd ≤ s.inLenL.toNat) (h : p + 2 ≤ g.segEnd) :
    segHalf g (s.atPc p) = .ok (BitVec.ofNat 16 (s.inMem.readBE p 2)) (s.atPc (p + 2)) := by
  unfold segHalf; rw [segField_ok hg h, Eff.bind_ok]

theorem segHalf_short (hp : p < 2 ^ 32) (h : g.segEnd < p + 2) :
    segHalf g (s.atPc p) = .raised ((s.atPc p).raise .malformedContainer p g.m none) := by
  unfold segHalf; rw [segField_short hp h, Eff.bind_raised]

theorem State.inBytes_succ (a n : Nat) : s.inBytes a (n + 1) = s.inMem.read a :: s.inBytes (a + 1) n := by
  simp only [State.inBytes, List.range_succ_eq_map, List.map_cons, List.map_map, Nat.add_zero]
  congr 1
  apply List.map_congr_left
  intro j _
  simp only [Function.comp, Nat.succ_eq_add_one]
  congr 1; omega

@[simp] theorem State.inBytes_zero (a : Nat) : s.inBytes a 0 = [] := rfl

@[simp] theorem State.inBytes_length (a n : Nat) : (s.inBytes a n).length = n := by simp [State.inBytes]

@[simp] theorem State.atPc_inBytes (a n q : Nat) : (s.atPc q).inBytes a n = s.inBytes a n := rfl

theorem segBytes_ok (hg : g.segEnd ≤ s.inLenL.toNat) :
    ∀ (n p : Nat), p + n ≤ g.segEnd → segBytes g n (s.atPc p) = .ok (s.inBytes p n) (s.atPc (p + n))
  | 0, _, _ => rfl
  | n + 1, p, h => by
    rw [segBytes, segByte_ok hg (by omega), Eff.bind_ok, segBytes_ok hg n (p + 1) (by omega), Eff.bind_ok,
      State.inBytes_succ, show p + 1 + n = p + (n + 1) by omega]

/-- A run of fields that leaves its segment raises at the segment's end. -/
theorem segBytes_short (hg : g.segEnd ≤ s.inLenL.toNat) :
    ∀ (n p : Nat), p ≤ g.segEnd → g.segEnd < p + n →
      segBytes g n (s.atPc p) = .raised ((s.atPc g.segEnd).raise .malformedContainer g.segEnd g.m none)
  | 0, _, _, h => by omega
  | n + 1, p, hp, h => by
    have hl := s.inLenL_toNat_lt
    rw [segBytes]
    by_cases hb : p = g.segEnd
    · rw [segByte_short (by omega) (by omega), Eff.bind_raised, hb]
    · rw [segByte_ok hg (by omega), Eff.bind_ok, segBytes_short hg n (p + 1) (by omega) (by omega), Eff.bind_raised]

end fields

/-! ## The bits of SCAN -/

theorem Memory.bit_lt (m : Memory) (i : Nat) : m.bit i < 2 := Nat.mod_lt _ (by decide)

theorem Memory.bits_lt (m : Memory) (p : Nat) : ∀ n, m.bits p n < 2 ^ n
  | 0 => by simp [Memory.bits]
  | n + 1 => by
    have := Memory.bits_lt m p n
    have := m.bit_lt (p + n)
    rw [Memory.bits, Nat.pow_succ]; omega

theorem Memory.bits_add (m : Memory) (p n : Nat) :
    ∀ k, m.bits p (n + k) = m.bits p n * 2 ^ k + m.bits (p + n) k
  | 0 => by simp [Memory.bits]
  | k + 1 => by
    rw [← Nat.add_assoc, Memory.bits, Memory.bits_add m p n k, Memory.bits, Nat.pow_succ, Nat.add_assoc p n k]
    ring

/-- The bits of one byte are the byte. -/
theorem Memory.bits_byte (m : Memory) (a : Nat) : m.bits (8 * a) 8 = (m.read a).toNat := by
  have hd : ∀ j < 8, (8 * a + j) / 8 = a ∧ (8 * a + j) % 8 = j := by omega
  have hb : ∀ j < 8, m.bit (8 * a + j) = (m.read a).toNat / 2 ^ (7 - j) % 2 := by
    intro j hj; rw [Memory.bit, (hd j hj).1, (hd j hj).2]
  have hlt := (m.read a).isLt
  simp only [Memory.bits, hb 0 (by omega), hb 1 (by omega), hb 2 (by omega), hb 3 (by omega), hb 4 (by omega),
    hb 5 (by omega), hb 6 (by omega), hb 7 (by omega)]
  omega

/-- A run of bytes as a number is its run of bits. -/
theorem Memory.readBE_bits (m : Memory) : ∀ n, m.readBE 0 n = m.bits 0 (8 * n)
  | 0 => rfl
  | n + 1 => by
    rw [Memory.readBE_succ, Memory.readBE_bits m n, Nat.mul_add, Memory.bits_add, Nat.zero_add, Nat.zero_add,
      Nat.mul_one, Memory.bits_byte]
    norm_num

/-- The last `k` of a run of bits. -/
theorem Memory.bits_mod (m : Memory) (p n k : Nat) : m.bits p (n + k) % 2 ^ k = m.bits (p + n) k := by
  rw [Memory.bits_add, Nat.mul_add_mod_self_right, Nat.mod_eq_of_lt (m.bits_lt _ _)]

/-- The bits before the last `k` of a run. -/
theorem Memory.bits_div (m : Memory) (p n k : Nat) : m.bits p (n + k) / 2 ^ k = m.bits p n := by
  rw [Memory.bits_add, Nat.mul_comm, Nat.mul_add_div (Nat.two_pow_pos k), Nat.div_eq_of_lt (m.bits_lt _ _), Nat.add_zero]

theorem Memory.bits_congr {m m' : Memory} {p : Nat} :
    ∀ n, (∀ j, p / 8 ≤ j → j < (p + n + 7) / 8 → m.read j = m'.read j) → m.bits p n = m'.bits p n
  | 0, _ => rfl
  | n + 1, h => by
    rw [Memory.bits, Memory.bits, Memory.bits_congr n fun j h1 h2 => h j h1 (by omega), Memory.bit, Memory.bit,
      h ((p + n) / 8) (by omega) (by omega)]

/-! ## The BitReader -/

@[simp] theorem readerAt_cnt (m : Memory) (pos cnt : Nat) : (readerAt m pos cnt).cnt = cnt := rfl

theorem readerAt_acc_toNat (m : Memory) {pos cnt : Nat} (h : cnt ≤ 32) :
    (readerAt m pos cnt).acc.toNat = m.readBE 0 pos % 2 ^ cnt := by
  simp only [readerAt, BitVec.toNat_ofNat]
  exact Nat.mod_eq_of_lt (lt_of_lt_of_le (Nat.mod_lt _ (Nat.two_pow_pos _)) (Nat.pow_le_pow_right (by decide) h))

theorem readerAt_pos_toNat (m : Memory) {pos : Nat} (cnt : Nat) (h : pos < 2 ^ 32) :
    (readerAt m pos cnt).pos.toNat = pos := by
  simp only [readerAt, BitVec.toNat_ofNat]; exact Nat.mod_eq_of_lt h

theorem State.scanLen_toNat_lt (s : State) : s.scanLen.toNat < 2 ^ 32 := s.scanLen.isLt

/-- The invariant fixes the reader by the bytes loaded and the bits held. -/
theorem State.ReaderOk.br_eq {s : State} (h : s.ReaderOk) : s.br = readerAt s.scan s.br.pos.toNat s.br.cnt := by
  rw [readerAt, ← h.bits]; simp

theorem State.ReaderOk.eq {s : State} (h : s.ReaderOk) :
    s = { s with br := readerAt s.scan s.br.pos.toNat s.br.cnt } := by
  rw [← h.br_eq]

/-- One more byte in the accumulator. -/
theorem readerAt_load (m : Memory) {pos cnt : Nat} (hc : cnt ≤ 15) :
    ({ acc := BitVec.ofNat 32 ((readerAt m pos cnt).acc.toNat * 256 + (m.read pos).toNat)
       cnt := cnt + 8, pos := (readerAt m pos cnt).pos + 1 } : BitReader) = readerAt m (pos + 1) (cnt + 8) := by
  rw [readerAt_acc_toNat m (by omega)]
  have hb := (m.read pos).isLt
  have e : m.readBE 0 (pos + 1) % 2 ^ (cnt + 8) = m.readBE 0 pos % 2 ^ cnt * 256 + (m.read pos).toNat := by
    rw [Memory.readBE_succ, Nat.zero_add, Nat.pow_add, Nat.mul_comm (2 ^ cnt), Nat.mod_mul]
    have h1 : (m.readBE 0 pos * 256 + (m.read pos).toNat) % 2 ^ 8 = (m.read pos).toNat := by omega
    have h2 : (m.readBE 0 pos * 256 + (m.read pos).toNat) / 2 ^ 8 = m.readBE 0 pos := by omega
    rw [h1, h2]; omega
  simp only [readerAt, e, BitReader.mk.injEq, true_and]
  exact (BitVec.ofNat_add pos 1).symm

/-- The refill loop when SCAN has the bytes (41 R401). -/
theorem refill_ok {n : Nat} (hn : n ≤ 16) (s : State) :
    ∀ (fuel pos cnt : Nat), (n - cnt + 7) / 8 ≤ fuel → pos + (n - cnt + 7) / 8 ≤ s.scanLen.toNat →
      refill n fuel { s with br := readerAt s.scan pos cnt } =
        .ok () { s with br := readerAt s.scan (pos + (n - cnt + 7) / 8) (cnt + 8 * ((n - cnt + 7) / 8)) }
  | 0, pos, cnt, hf, _ => by
    have : (n - cnt + 7) / 8 = 0 := by omega
    rw [this]; rfl
  | fuel + 1, pos, cnt, hf, hs => by
    have hl := s.scanLen_toNat_lt
    unfold refill
    by_cases hc : cnt < n
    · have hr : (n - cnt + 7) / 8 = (n - (cnt + 8) + 7) / 8 + 1 := by omega
      have hp : (readerAt s.scan pos cnt).pos.toNat = pos := readerAt_pos_toNat _ _ (by omega)
      rw [if_pos (by exact hc), if_neg (by simp only [hp]; omega), scanRead_ok (by simp only [hp]; omega), Eff.bind_ok]
      simp only [hp, readerAt_cnt]
      rw [readerAt_load _ (by omega), refill_ok hn s fuel (pos + 1) (cnt + 8) (by omega) (by omega), hr]
      congr 3 <;> omega
    · have : (n - cnt + 7) / 8 = 0 := by omega
      rw [if_neg (by exact hc), this]; rfl

/-- The table of the item in progress does not depend on the reader. -/
@[simp] theorem State.itemTable_br (s : State) (r : BitReader) : ({ s with br := r } : State).itemTable = s.itemTable := rfl

/-- The refill loop when SCAN is exhausted (41 R401). -/
theorem refill_short {n : Nat} (hn : n ≤ 16) (s : State) :
    ∀ (fuel pos cnt : Nat), (n - cnt + 7) / 8 ≤ fuel → pos ≤ s.scanLen.toNat →
      s.scanLen.toNat < pos + (n - cnt + 7) / 8 →
      refill n fuel { s with br := readerAt s.scan pos cnt } =
        .raised (State.raise .corruptBitstream s.scanLen.toNat 0 (some s.itemTable)
          { s with br := readerAt s.scan s.scanLen.toNat (cnt + 8 * (s.scanLen.toNat - pos)) })
  | 0, pos, cnt, hf, _, _ => by omega
  | fuel + 1, pos, cnt, hf, hp, hs => by
    have hl := s.scanLen_toNat_lt
    have hpos : (readerAt s.scan pos cnt).pos.toNat = pos := readerAt_pos_toNat _ _ (by omega)
    unfold refill
    rw [if_pos (by simp only [readerAt_cnt]; omega)]
    by_cases he : pos = s.scanLen.toNat
    · rw [if_pos (by simp only [hpos]; omega), raiseCorrupt, raise_eq]
      subst he
      simp only [hpos, State.itemTable_br, Nat.sub_self, Nat.mul_zero, Nat.add_zero]
    · rw [if_neg (by simp only [hpos]; omega), scanRead_ok (by simp only [hpos]; omega), Eff.bind_ok]
      simp only [hpos, readerAt_cnt]
      rw [readerAt_load _ (by omega), refill_short hn s fuel (pos + 1) (cnt + 8) (by omega) (by omega) (by omega)]
      congr 4; omega

section reader
variable {s : State} {n : Nat}

/-- `peek(n)` when SCAN has the bits: the next `n` bits, none consumed (41 R401). -/
theorem peek_ok (h : s.ReaderOk) (hn : n ≤ 16) (hb : s.hasBits n) :
    peek n s = .ok (s.scan.bits s.consumed n) { s with br := s.readerAfter (s.refills n) 0 } := by
  have hl := s.scanLen_toNat_lt
  have hc := h.cnt
  have hh := h.held
  unfold State.hasBits at hb
  have hr : n ≤ s.br.cnt + 8 * s.refills n := by unfold State.refills; omega
  have h24 : s.br.cnt + 8 * s.refills n ≤ 24 := by unfold State.refills; omega
  have hf : refill n n s = .ok () { s with br := s.readerAfter (s.refills n) 0 } := by
    conv_lhs => rw [h.eq]
    exact refill_ok hn s n s.br.pos.toNat s.br.cnt (by omega) hb
  unfold peek
  rw [hf, Eff.bind_ok]
  simp only [State.readerAfter, Nat.sub_zero, readerAt_cnt]
  rw [readerAt_acc_toNat _ (by omega), Memory.readBE_bits]
  congr 1
  obtain ⟨k, hk⟩ : ∃ k, s.br.cnt + 8 * s.refills n = n + k := ⟨_, (Nat.add_sub_of_le hr).symm⟩
  have hp : 8 * (s.br.pos.toNat + s.refills n) = s.consumed + (n + k) := by unfold State.consumed; omega
  rw [hk, hp, Memory.bits_mod, Nat.zero_add, Nat.add_sub_cancel_left, Memory.bits_div,
    Nat.mod_eq_of_lt (Memory.bits_lt _ _ _)]

/-- `peek(n)` when SCAN is exhausted (41 R401). -/
theorem peek_short (h : s.ReaderOk) (hn : n ≤ 16) (hb : ¬s.hasBits n) :
    peek n s = .raised (State.raise .corruptBitstream s.scanLen.toNat 0 (some s.itemTable)
      { s with br := s.readerAfter (s.scanLen.toNat - s.br.pos.toNat) 0 }) := by
  have hp := h.pos
  unfold State.hasBits at hb
  have hf : refill n n s = .raised (State.raise .corruptBitstream s.scanLen.toNat 0 (some s.itemTable)
      { s with br := s.readerAfter (s.scanLen.toNat - s.br.pos.toNat) 0 }) := by
    conv_lhs => rw [h.eq]
    rw [refill_short hn s n s.br.pos.toNat s.br.cnt (by omega) hp (by unfold State.refills at hb; omega),
      State.readerAfter, Nat.add_sub_of_le hp, Nat.sub_zero]
  unfold peek
  rw [hf, Eff.bind_raised]

theorem dropBits_readerAt {pos cnt k : Nat} (hc : cnt ≤ 32) :
    dropBits k { s with br := readerAt s.scan pos cnt } = { s with br := readerAt s.scan pos (cnt - k) } := by
  simp only [dropBits, readerAt_cnt]
  rw [readerAt_acc_toNat _ hc]
  simp only [readerAt]
  rw [Nat.mod_mod_of_dvd _ (Nat.pow_dvd_pow 2 (Nat.sub_le cnt k))]

/-- `read(n)` when SCAN has the bits: the next `n` bits, consumed (41 R402). -/
theorem readBits_ok (h : s.ReaderOk) (hn : n ≤ 16) (hb : s.hasBits n) :
    readBits n s = .ok (s.scan.bits s.consumed n) { s with br := s.readerAfter (s.refills n) n } := by
  have hc := h.cnt
  have hr : n ≤ s.br.cnt + 8 * s.refills n := by unfold State.refills; omega
  have h24 : s.br.cnt + 8 * s.refills n ≤ 24 := by unfold State.refills; omega
  unfold readBits
  rw [peek_ok h hn hb, Eff.bind_ok]
  simp only [State.readerAfter, Nat.sub_zero]
  rw [dropBits_readerAt (by omega)]

theorem readBits_short (h : s.ReaderOk) (hn : n ≤ 16) (hb : ¬s.hasBits n) :
    readBits n s = .raised (State.raise .corruptBitstream s.scanLen.toNat 0 (some s.itemTable)
      { s with br := s.readerAfter (s.scanLen.toNat - s.br.pos.toNat) 0 }) := by
  unfold readBits; rw [peek_short h hn hb, Eff.bind_raised]

/-- A reader that has loaded `pos` bytes and holds `cnt` of their bits meets the invariant. -/
theorem readerOk_readerAt {pos cnt : Nat} (hc : cnt ≤ 23) (hp : pos ≤ s.scanLen.toNat) (hh : cnt ≤ 8 * pos) :
    ({ s with br := readerAt s.scan pos cnt } : State).ReaderOk := by
  have hl := s.scanLen_toNat_lt
  have hpos : (readerAt s.scan pos cnt).pos.toNat = pos := readerAt_pos_toNat _ _ (by omega)
  refine ⟨hc, ?_, ?_, ?_⟩
  · simpa only [hpos] using hp
  · simpa only [hpos, readerAt_cnt] using hh
  · simp only [hpos, readerAt_cnt, readerAt_acc_toNat _ (show cnt ≤ 32 by omega)]

/-- The reader meets its invariant after the loads of `peek(n)` and consuming up to `n` bits. -/
theorem readerOk_after {k : Nat} (h : s.ReaderOk) (hn : n ≤ 16) (hb : s.hasBits n) :
    ({ s with br := s.readerAfter (s.refills n) k } : State).ReaderOk := by
  have hc := h.cnt
  have hh := h.held
  unfold State.hasBits at hb
  exact readerOk_readerAt (by unfold State.refills; omega) hb (by omega)

/-- Consuming `k` bits that the reader already holds (41 R403). -/
theorem skip_held {pos cnt k : Nat} (hc : cnt ≤ 23) (hp : pos ≤ s.scanLen.toNat) (hh : cnt ≤ 8 * pos) (hk : k ≤ cnt)
    (hk16 : k ≤ 16) :
    skip k { s with br := readerAt s.scan pos cnt } = .ok () { s with br := readerAt s.scan pos (cnt - k) } := by
  have hl := s.scanLen_toNat_lt
  have hpos : (readerAt s.scan pos cnt).pos.toNat = pos := readerAt_pos_toNat _ _ (by omega)
  have h0 : State.refills k { s with br := readerAt s.scan pos cnt } = 0 := by
    simp only [State.refills, readerAt_cnt]; omega
  unfold skip
  rw [readBits_ok (readerOk_readerAt hc hp hh) hk16 (by simp only [State.hasBits, h0, hpos]; omega), Eff.bind_ok]
  simp only [h0, State.readerAfter, hpos, readerAt_cnt, Nat.mul_zero, Nat.add_zero]

end reader

end Sys2Proof.Machine
end

