-- ==== Sys2Proof/Laws/Huffman.lean ====
section
/-! SUPPORT. The Huffman lookup: what `decode_symbol` does, and what the construction leaves in a table. -/

namespace Sys2Proof.Machine

/-! ## Lookup -/

section lookup
variable {s : State}

/-- A lookup that finds a code consumes it (43 R510). -/
theorem decodeSymbol_ok (h : s.ReaderOk) (hb : s.hasBits 16)
    (h1 : ((s.ht.get s.acNext s.th).entry (s.scan.bits s.consumed 16)).1 ≠ 0)
    (h16 : ((s.ht.get s.acNext s.th).entry (s.scan.bits s.consumed 16)).1 ≤ 16) :
    decodeSymbol s = .ok ((s.ht.get s.acNext s.th).entry (s.scan.bits s.consumed 16)).2
      { s with br := s.readerAfter (s.refills 16) ((s.ht.get s.acNext s.th).entry (s.scan.bits s.consumed 16)).1 } := by
  have hc := h.cnt
  have hh := h.held
  have hb' := hb
  unfold State.hasBits at hb'
  have hr : 16 ≤ s.br.cnt + 8 * s.refills 16 ∧ s.br.cnt + 8 * s.refills 16 ≤ 23 := by unfold State.refills; omega
  unfold decodeSymbol
  rw [peek_ok h (by omega) hb, Eff.bind_ok]
  dsimp only
  change (if ((s.ht.get s.acNext s.th).entry (s.scan.bits s.consumed 16)).1 = 0 then _ else _) = _
  rw [if_neg h1]
  simp only [State.readerAfter, Nat.sub_zero]
  change (skip ((s.ht.get s.acNext s.th).entry (s.scan.bits s.consumed 16)).1 _).bind
    (fun _ s' => Eff.ok ((s.ht.get s.acNext s.th).entry (s.scan.bits s.consumed 16)).2 s') = _
  rw [skip_held hr.2 hb' (by omega) (by omega) h16, Eff.bind_ok]

/-- A lookup that lands on an unpopulated entry is corrupt, nothing being consumed (43 R510). -/
theorem decodeSymbol_unpopulated (h : s.ReaderOk) (hb : s.hasBits 16)
    (h0 : ((s.ht.get s.acNext s.th).entry (s.scan.bits s.consumed 16)).1 = 0) :
    decodeSymbol s = .raised (State.raise .corruptBitstream (s.br.pos.toNat + s.refills 16) 0 (some s.itemTable)
      { s with br := s.readerAfter (s.refills 16) 0 }) := by
  have hl := s.scanLen_toNat_lt
  have hb' := hb
  unfold State.hasBits at hb'
  have hp : (s.readerAfter (s.refills 16) 0).pos.toNat = s.br.pos.toNat + s.refills 16 :=
    readerAt_pos_toNat _ _ (by omega)
  unfold decodeSymbol
  rw [peek_ok h (by omega) hb, Eff.bind_ok]
  dsimp only
  change (if ((s.ht.get s.acNext s.th).entry (s.scan.bits s.consumed 16)).1 = 0 then _ else _) = _
  rw [if_pos h0, raiseCorrupt, raise_eq, State.itemTable_br]
  simp only [hp]

/-- A lookup with SCAN exhausted is corrupt (41 R401). -/
theorem decodeSymbol_short (h : s.ReaderOk) (hb : ¬s.hasBits 16) :
    decodeSymbol s = .raised (State.raise .corruptBitstream s.scanLen.toNat 0 (some s.itemTable)
      { s with br := s.readerAfter (s.scanLen.toNat - s.br.pos.toNat) 0 }) := by
  unfold decodeSymbol
  rw [peek_short h (by omega) hb, Eff.bind_raised]

end lookup

/-! ## Entries -/

theorem HuffTable.entry_nil (idx : Nat) : HuffTable.entry [] idx = (0, 0) := rfl

theorem HuffTable.entry_cons (f : Fill) (t : HuffTable) (idx : Nat) :
    HuffTable.entry (f :: t) idx = if f.covers idx then (f.len, f.sym) else HuffTable.entry t idx := rfl

theorem Fill.covers_iff (f : Fill) (idx : Nat) :
    f.covers idx = true ↔ f.base ≤ idx ∧ idx < f.base + 2 ^ (16 - f.len) := by
  simp [Fill.covers]

/-- The entry is that of the first fill that covers it. -/
theorem HuffTable.entry_cases : ∀ (t : HuffTable) (idx : Nat),
    ((∀ f ∈ t, ¬f.covers idx) ∧ t.entry idx = (0, 0)) ∨ ∃ f ∈ t, f.covers idx ∧ t.entry idx = (f.len, f.sym)
  | [], _ => .inl ⟨by simp, rfl⟩
  | f :: t, idx => by
    rw [HuffTable.entry_cons]
    by_cases hf : f.covers idx = true
    · exact .inr ⟨f, by simp, hf, by rw [if_pos hf]⟩
    · rcases HuffTable.entry_cases t idx with ⟨h, he⟩ | ⟨g, hg, hc, he⟩
      · refine .inl ⟨fun g hg => ?_, by rw [if_neg hf, he]⟩
        rcases List.mem_cons.1 hg with rfl | hg
        · exact hf
        · exact h g hg
      · exact .inr ⟨g, List.mem_cons_of_mem _ hg, hc, by rw [if_neg hf, he]⟩

/-- A code of a well-formed table has 1 to 16 bits. -/
theorem HuffTable.entry_len_le {t : HuffTable} (h : ∀ f ∈ t, 1 ≤ f.len ∧ f.len ≤ 16) (idx : Nat) :
    (t.entry idx).1 ≤ 16 := by
  rcases HuffTable.entry_cases t idx with ⟨_, he⟩ | ⟨f, hf, _, he⟩
  · rw [he]; simp
  · rw [he]; exact (h f hf).2

/-- In a well-formed table the fills are disjoint: a fill that covers an entry is the entry. -/
theorem HuffTable.entry_of_covers : ∀ {t : HuffTable} {f : Fill} {idx : Nat}, t.wf → f ∈ t → f.covers idx = true →
    t.entry idx = (f.len, f.sym)
  | g :: t, f, idx, h, hf, hc => by
    rw [HuffTable.entry_cons]
    rcases List.mem_cons.1 hf with rfl | hf
    · rw [if_pos hc]
    · have hd := (List.pairwise_cons.1 h.2).1 f hf
      have hg : ¬g.covers idx = true := by
        rw [Fill.covers_iff] at hc ⊢; omega
      rw [if_neg hg]
      exact HuffTable.entry_of_covers
        ⟨fun x hx => h.1 x (List.mem_cons_of_mem _ hx), (List.pairwise_cons.1 h.2).2⟩ hf hc

/-! ## Construction -/

/-- The fills of the symbols `vs` with lengths `ls`, oldest first, the codes running from `c` at length `l` (43 R500). -/
def fillsFrom (c l : Nat) : List Nat → List Byte → HuffTable
  | l' :: ls, v :: vs =>
    { base := c * 2 ^ (l' - l) * 2 ^ (16 - l'), len := l', sym := v } :: fillsFrom (c * 2 ^ (l' - l) + 1) l' ls vs
  | _, _ => []

/-- Every code fits its length (43 R503). -/
abbrev codesFit (c l : Nat) (ls : List Nat) : Prop := ∀ p ∈ (codesFrom c l ls).zip ls, p.1 < 2 ^ p.2

theorem codesFit_cons (c l l' : Nat) (ls : List Nat) :
    codesFit c l (l' :: ls) ↔ c * 2 ^ (l' - l) < 2 ^ l' ∧ codesFit (c * 2 ^ (l' - l) + 1) l' ls := by
  simp [codesFit, codesFrom]

theorem codesFrom_length : ∀ (ls : List Nat) (c l : Nat), (codesFrom c l ls).length = ls.length
  | [], _, _ => rfl
  | l' :: ls, c, l => by simp [codesFrom, codesFrom_length ls]

/-- Starting later in the lengths, with the running value doubled as often. -/
theorem codesFrom_shift {l m : Nat} (hlm : l ≤ m) (c : Nat) :
    ∀ ls : List Nat, (∀ x ∈ ls, m ≤ x) → codesFrom c l ls = codesFrom (c * 2 ^ (m - l)) m ls
  | [], _ => rfl
  | x :: ls, h => by
    have hx := h x (by simp)
    have e : c * 2 ^ (m - l) * 2 ^ (x - m) = c * 2 ^ (x - l) := by
      rw [Nat.mul_assoc, ← Nat.pow_add]; congr 2; omega
    rw [codesFrom, codesFrom, e]

theorem fillsFrom_shift {l m : Nat} (hlm : l ≤ m) (c : Nat) :
    ∀ (ls : List Nat) (vs : List Byte), (∀ x ∈ ls, m ≤ x) → fillsFrom c l ls vs = fillsFrom (c * 2 ^ (m - l)) m ls vs
  | [], _, _ => rfl
  | x :: ls, [], _ => rfl
  | x :: ls, v :: vs, h => by
    have hx := h x (by simp)
    have e : c * 2 ^ (m - l) * 2 ^ (x - m) = c * 2 ^ (x - l) := by
      rw [Nat.mul_assoc, ← Nat.pow_add]; congr 2; omega
    rw [fillsFrom, fillsFrom, e]

theorem codesFit_shift {l m : Nat} (hlm : l ≤ m) (c : Nat) {ls : List Nat} (h : ∀ x ∈ ls, m ≤ x) :
    codesFit c l ls ↔ codesFit (c * 2 ^ (m - l)) m ls := by
  rw [codesFit, codesFit, codesFrom_shift hlm c ls h]

theorem mem_lengthsFrom : ∀ (cs : List Byte) (l x : Nat), x ∈ lengthsFrom l cs → l ≤ x ∧ x < l + cs.length
  | [], _, _, h => by simp [lengthsFrom] at h
  | c :: cs, l, x, h => by
    rw [lengthsFrom, List.mem_append] at h
    rcases h with h | h
    · have := List.eq_of_mem_replicate h; simp only [List.length_cons]; omega
    · have := mem_lengthsFrom cs (l + 1) x h; simp only [List.length_cons]; omega

theorem lengthsFrom_length : ∀ (cs : List Byte) (l : Nat), (lengthsFrom l cs).length = (cs.map (·.toNat)).sum
  | [], _ => rfl
  | c :: cs, l => by simp [lengthsFrom, lengthsFrom_length cs]

/-- The codes of one length, one after the other (43 R500). -/
theorem assignCodes_fit (l : Nat) : ∀ (n : Nat) (b : Build) (ls : List Nat), n + ls.length ≤ b.syms.length →
    b.code + n ≤ 2 ^ l →
    ∃ b' : Build, assignCodes l n b = b' ∧ b'.overflow = b.overflow ∧ b'.code = b.code + n ∧
      b'.syms = b.syms.drop n ∧
      ∀ t, (fillsFrom b.code l (List.replicate n l ++ ls) b.syms).reverse ++ t =
        (fillsFrom b'.code l ls b'.syms).reverse ++
          ((fillsFrom b.code l (List.replicate n l) b.syms).reverse ++ t) ∧
      b'.tbl = (fillsFrom b.code l (List.replicate n l) b.syms).reverse ++ b.tbl
  | 0, b, ls, _, _ => ⟨b, rfl, rfl, rfl, rfl, fun t => ⟨by simp [fillsFrom], by simp [fillsFrom]⟩⟩
  | n + 1, b, ls, hs, hc => by
    unfold assignCodes
    rw [if_neg (by omega)]
    rcases hv : b.syms with _ | ⟨v, vs⟩
    · rw [hv] at hs; simp at hs
    · rw [hv, List.length_cons] at hs
      obtain ⟨b', he, ho, hcode, hsyms, ht⟩ := assignCodes_fit l n
        { tbl := { base := b.code * 2 ^ (16 - l), len := l, sym := v } :: b.tbl, code := b.code + 1, syms := vs,
          overflow := b.overflow } ls (by simp only; omega) (by simp only; omega)
      refine ⟨b', he, ho, by rw [hcode]; simp only; omega, by rw [hsyms]; rfl, fun t => ⟨?_, ?_⟩⟩
      · simp only [List.replicate_succ, List.cons_append, fillsFrom, Nat.sub_self, Nat.pow_zero, Nat.mul_one,
          List.reverse_cons, List.append_assoc]
        exact (ht _).1
      · simp only [List.replicate_succ, fillsFrom, Nat.sub_self, Nat.pow_zero, Nat.mul_one, List.reverse_cons,
          List.append_assoc]
        exact (ht t).2

/-- More codes than the length holds (43 R503). -/
theorem assignCodes_overflow (l : Nat) : ∀ (n : Nat) (b : Build), n ≤ b.syms.length → 2 ^ l < b.code + n → 0 < n →
    (assignCodes l n b).overflow = true
  | n + 1, b, hs, hc, _ => by
    unfold assignCodes
    by_cases h : 2 ^ l ≤ b.code
    · rw [if_pos h]
    · rw [if_neg h]
      rcases hv : b.syms with _ | ⟨v, vs⟩
      · rw [hv] at hs; simp at hs
      · rw [hv, List.length_cons] at hs
        exact assignCodes_overflow l n _ (by simp only; omega) (by simp only; omega) (by omega)

theorem codesFit_replicate (l : Nat) : ∀ (n c : Nat) (ls : List Nat),
    codesFit c l (List.replicate n l ++ ls) ↔ (n = 0 ∨ c + n ≤ 2 ^ l) ∧ codesFit (c + n) l ls
  | 0, c, ls => by simp
  | n + 1, c, ls => by
    rw [List.replicate_succ, List.cons_append, codesFit_cons, Nat.sub_self, Nat.pow_zero, Nat.mul_one,
      codesFit_replicate l n (c + 1) ls, show c + 1 + n = c + (n + 1) by omega]
    constructor
    · rintro ⟨h1, h2 | h2, h3⟩
      · subst h2; exact ⟨.inr (by omega), h3⟩
      · exact ⟨.inr h2, h3⟩
    · rintro ⟨h2 | h2, h3⟩
      · omega
      · exact ⟨by omega, .inr h2, h3⟩

/-- The counts from length `l` on, as `build_table` walks them. -/
def pairsFrom (l : Nat) (cs : List Byte) : List (Nat × Nat) := (List.range' l cs.length).zip (cs.map (·.toNat))

theorem pairsFrom_cons (l : Nat) (c : Byte) (cs : List Byte) :
    pairsFrom l (c :: cs) = (l, c.toNat) :: pairsFrom (l + 1) cs := by
  simp [pairsFrom, List.range'_succ]

/-- `build_table`'s loops: with codes that fit, the fills of the canonical codes; otherwise an overflow (43 R500 to R503). -/
theorem assignLengths_eq : ∀ (cs : List Byte) (l : Nat) (b : Build), b.overflow = false →
    b.syms.length = (lengthsFrom l cs).length →
    (codesFit b.code l (lengthsFrom l cs) →
      (assignLengths (pairsFrom l cs) b).overflow = false ∧
        (assignLengths (pairsFrom l cs) b).tbl = (fillsFrom b.code l (lengthsFrom l cs) b.syms).reverse ++ b.tbl) ∧
    (¬codesFit b.code l (lengthsFrom l cs) → (assignLengths (pairsFrom l cs) b).overflow = true)
  | [], l, b, ho, hs => by
    refine ⟨fun _ => ⟨ho, ?_⟩, fun h => absurd (by simp [lengthsFrom, codesFrom, codesFit]) h⟩
    simp [assignLengths, pairsFrom, lengthsFrom, fillsFrom]
  | c :: cs, l, b, ho, hs => by
    rw [lengthsFrom, List.length_append, List.length_replicate] at hs
    rw [pairsFrom_cons, lengthsFrom, codesFit_replicate]
    have hge : ∀ x ∈ lengthsFrom (l + 1) cs, l + 1 ≤ x := fun x hx => (mem_lengthsFrom cs (l + 1) x hx).1
    by_cases hfit : c.toNat = 0 ∨ b.code + c.toNat ≤ 2 ^ l
    · obtain ⟨b', he, ho', hcode, hsyms, ht⟩ : ∃ b' : Build, assignCodes l c.toNat b = b' ∧ b'.overflow = b.overflow ∧
          b'.code = b.code + c.toNat ∧ b'.syms = b.syms.drop c.toNat ∧
          ∀ t, (fillsFrom b.code l (List.replicate c.toNat l ++ lengthsFrom (l + 1) cs) b.syms).reverse ++ t =
            (fillsFrom b'.code l (lengthsFrom (l + 1) cs) b'.syms).reverse ++
              ((fillsFrom b.code l (List.replicate c.toNat l) b.syms).reverse ++ t) ∧
            b'.tbl = (fillsFrom b.code l (List.replicate c.toNat l) b.syms).reverse ++ b.tbl := by
        rcases hfit with h0 | hfit
        · refine ⟨b, by rw [h0]; rfl, rfl, by omega, by simp [h0], fun t => ⟨?_, ?_⟩⟩ <;> simp [h0, fillsFrom]
        · exact assignCodes_fit l c.toNat b _ (by omega) hfit
      have hrec := assignLengths_eq cs (l + 1) { b' with code := b'.code * 2 } (by rw [ho', ho])
        (by simp only [hsyms, List.length_drop]; omega)
      have e1 : b'.code * 2 = b'.code * 2 ^ (l + 1 - l) := by simp
      simp only [e1] at hrec
      rw [← codesFit_shift (Nat.le_succ l) b'.code hge, ← fillsFrom_shift (Nat.le_succ l) b'.code _ _ hge] at hrec
      have hunf : assignLengths ((l, c.toNat) :: pairsFrom (l + 1) cs) b =
          assignLengths (pairsFrom (l + 1) cs) { b' with code := b'.code * 2 ^ (l + 1 - l) } := by
        rw [assignLengths]
        simp only [he, ho', ho]
        simp
      rw [← hcode] at hfit
      rw [hunf, ← hcode]
      refine ⟨fun h => ⟨(hrec.1 h.2).1, ?_⟩, fun h => hrec.2 fun h' => h ⟨hfit, h'⟩⟩
      rw [(hrec.1 h.2).2, (ht b.tbl).1, (ht b.tbl).2]
    · have hov : (assignCodes l c.toNat b).overflow = true :=
        assignCodes_overflow l _ _ (by omega) (by omega) (by omega)
      refine ⟨fun h => absurd h.1 hfit, fun _ => ?_⟩
      rw [assignLengths]
      simp only [hov, if_true]

theorem lengthCounts_eq {cnt : List Byte} (h : cnt.length = 16) : lengthCounts cnt = pairsFrom 1 cnt := by
  rw [lengthCounts, pairsFrom, h]

/-- What `build_table` leaves: the fills of the canonical codes when every code fits, else an overflow (43 R500 to R503). -/
theorem buildFrom_eq {cnt v : List Byte} (hc : cnt.length = 16) (hv : v.length = (cnt.map (·.toNat)).sum) :
    (codesFit 0 0 (lengthsFrom 1 cnt) → (buildFrom cnt v).overflow = false ∧
      (buildFrom cnt v).tbl = (fillsFrom 0 0 (lengthsFrom 1 cnt) v).reverse) ∧
    (¬codesFit 0 0 (lengthsFrom 1 cnt) → (buildFrom cnt v).overflow = true) := by
  have hge : ∀ x ∈ lengthsFrom 1 cnt, 1 ≤ x := fun x hx => (mem_lengthsFrom cnt 1 x hx).1
  have h := assignLengths_eq cnt 1 { tbl := [], code := 0, syms := v, overflow := false } rfl
    (by rw [lengthsFrom_length]; exact hv)
  rw [buildFrom, lengthCounts_eq hc, codesFit_shift (Nat.zero_le 1) 0 hge, fillsFrom_shift (Nat.zero_le 1) 0 _ _ hge]
  simpa using h

/-! ## The tables stay well-formed -/

/-- A table in the making: well-formed, below the next code of length `l`. -/
structure Build.Ok (l : Nat) (b : Build) : Prop where
  wf : b.tbl.wf
  below : ∀ f ∈ b.tbl, f.base + 2 ^ (16 - f.len) ≤ b.code * 2 ^ (16 - l)

theorem Build.Ok.assign {l : Nat} (hl : 1 ≤ l ∧ l ≤ 16) : ∀ (n : Nat) {b : Build}, b.Ok l → (assignCodes l n b).Ok l
  | 0, _, h => h
  | n + 1, b, h => by
    unfold assignCodes
    by_cases hc : 2 ^ l ≤ b.code
    · rw [if_pos hc]; exact ⟨h.wf, h.below⟩
    · rw [if_neg hc]
      rcases hv : b.syms with _ | ⟨v, vs⟩
      · exact h
      · refine Build.Ok.assign hl n ⟨⟨?_, ?_⟩, ?_⟩
        · intro f hf
          rcases List.mem_cons.1 hf with rfl | hf
          · refine ⟨hl.1, hl.2, Nat.mul_mod_left _ _, ?_⟩
            have : (b.code + 1) * 2 ^ (16 - l) ≤ 2 ^ l * 2 ^ (16 - l) := Nat.mul_le_mul_right _ (by omega)
            rw [← Nat.pow_add, show l + (16 - l) = 16 by omega, Nat.add_mul, Nat.one_mul] at this
            exact this
          · exact h.wf.1 f hf
        · exact List.pairwise_cons.2 ⟨fun f hf => h.below f hf, h.wf.2⟩
        · intro f hf
          simp only [Nat.add_mul, Nat.one_mul]
          rcases List.mem_cons.1 hf with rfl | hf
          · exact le_refl _
          · exact Nat.le_add_right_of_le (h.below f hf)

theorem Build.Ok.next {l : Nat} (hl : l < 16) {b : Build} (h : b.Ok l) : ({ b with code := b.code * 2 } : Build).Ok (l + 1) := by
  refine ⟨h.wf, fun f hf => ?_⟩
  have : 2 ^ (16 - l) = 2 * 2 ^ (16 - (l + 1)) := by
    rw [← Nat.pow_succ']; congr 1; omega
  have := h.below f hf
  simp only [Nat.mul_assoc]
  rwa [‹2 ^ (16 - l) = 2 * 2 ^ (16 - (l + 1))›] at this

theorem assignLengths_wf : ∀ (n l : Nat) (cs : List Nat) {b : Build}, 1 ≤ l → l + n ≤ 17 → b.Ok l →
    (assignLengths ((List.range' l n).zip cs) b).tbl.wf
  | 0, _, _, _, _, _, h => h.wf
  | n + 1, l, [], _, _, _, h => by simpa [assignLengths] using h.wf
  | n + 1, l, c :: cs, b, hl, hn, h => by
    rw [List.range'_succ, List.zip_cons_cons, assignLengths]
    have h1 := h.assign ⟨hl, by omega⟩ c
    split
    · exact h1.wf
    · by_cases hn0 : n = 0
      · subst hn0; simpa [assignLengths] using h1.wf
      · exact assignLengths_wf n (l + 1) cs (by omega) (by omega) (h1.next (by omega))

/-- `build_table` leaves a well-formed table, an overflow included (43 R500, R505). -/
theorem buildFrom_wf (cnt v : List Byte) : (buildFrom cnt v).tbl.wf :=
  assignLengths_wf 16 1 _ (by omega) (by omega) ⟨⟨by simp, List.Pairwise.nil⟩, by simp⟩

/-- The fills are those of the codes, one by one. -/
theorem fillsFrom_getElem? : ∀ (ls : List Nat) (vs : List Byte) (c l j : Nat) (f : Fill),
    (fillsFrom c l ls vs)[j]? = some f ↔
      ∃ l' c' v, ls[j]? = some l' ∧ (codesFrom c l ls)[j]? = some c' ∧ vs[j]? = some v ∧
        f = { base := c' * 2 ^ (16 - l'), len := l', sym := v }
  | [], vs, c, l, j, f => by simp [fillsFrom]
  | x :: ls, [], c, l, j, f => by simp [fillsFrom]
  | x :: ls, v :: vs, c, l, 0, f => by simp [fillsFrom, codesFrom, eq_comm]
  | x :: ls, v :: vs, c, l, j + 1, f => by
    simp only [fillsFrom, codesFrom, List.getElem?_cons_succ]
    exact fillsFrom_getElem? ls vs _ _ j f

/-- The table content law: the entry of a pattern is the code that prefixes it, and unpopulated where none does (43 R505). -/
theorem buildFrom_entry {cnt v : List Byte} (hc : cnt.length = 16) (hv : v.length = (cnt.map (·.toNat)).sum)
    (hf : codesFit 0 0 (lengthsFrom 1 cnt)) (idx : Nat) :
    (∀ (j l c : Nat) (x : Byte), (lengthsFrom 1 cnt)[j]? = some l → (codesFrom 0 0 (lengthsFrom 1 cnt))[j]? = some c →
      v[j]? = some x → idx / 2 ^ (16 - l) = c → (buildFrom cnt v).tbl.entry idx = (l, x)) ∧
    ((∀ (j l c : Nat), (lengthsFrom 1 cnt)[j]? = some l → (codesFrom 0 0 (lengthsFrom 1 cnt))[j]? = some c →
      idx / 2 ^ (16 - l) ≠ c) → (buildFrom cnt v).tbl.entry idx = (0, 0)) := by
  have ht := ((buildFrom_eq hc hv).1 hf).2
  have hcov : ∀ (c l : Nat) (x : Byte), ({ base := c * 2 ^ (16 - l), len := l, sym := x } : Fill).covers idx = true ↔
      idx / 2 ^ (16 - l) = c := by
    intro c l x
    rw [Fill.covers_iff]
    have hpos := Nat.two_pow_pos (16 - l)
    rw [Nat.div_eq_iff hpos]
    simp only
    omega
  constructor
  · intro j l c x h1 h2 h3 h4
    have hm : ({ base := c * 2 ^ (16 - l), len := l, sym := x } : Fill) ∈ (buildFrom cnt v).tbl := by
      rw [ht, List.mem_reverse]
      exact List.mem_of_getElem? ((fillsFrom_getElem? _ _ _ _ j _).2 ⟨l, c, x, h1, h2, h3, rfl⟩)
    exact HuffTable.entry_of_covers (buildFrom_wf cnt v) hm ((hcov c l x).2 h4)
  · intro h
    rcases HuffTable.entry_cases (buildFrom cnt v).tbl idx with ⟨_, he⟩ | ⟨f, hm, hcv, _⟩
    · exact he
    · rw [ht, List.mem_reverse] at hm
      obtain ⟨j, hj⟩ := List.getElem?_of_mem hm
      obtain ⟨l, c, x, h1, h2, _, rfl⟩ := (fillsFrom_getElem? _ _ _ _ j f).1 hj
      exact absurd ((hcov c l x).1 hcv) (h j l c h1 h2)

end Sys2Proof.Machine
end

