-- ==== Sys2Proof/Laws/Container.lean ====
section
/-! SUPPORT. The Container Parser's shared operations: the marker order check, the table segments specification by
specification, and the extraction of the scan. -/

namespace Sys2Proof.Machine

/-! ## The order check -/

theorem checkOrder_ok {m : Byte} {s : State} (h : orderError m s = none) : checkOrder m s = .ok () s := by
  simp [checkOrder, h]

theorem checkOrder_bad {m : Byte} {s : State} {k : ErrKind} (h : orderError m s = some k) :
    checkOrder m s = .raised (s.raise k s.pc.toNat m none) := by
  simp [checkOrder, h, raise]

/-- What a marker needs to pass the order check (42 R430). -/
theorem orderError_eq_none {m : Byte} {s : State} : orderError m s = none ↔
    (s.seenSoi = true ↔ m ≠ 0xD8) ∧ isUnsupported m = false ∧ isUnknown m = false ∧
    (m = 0xC0 → s.seenSof = false) ∧ (m = 0xDA → s.seenSof = true ∧ s.scanDone = false) ∧
    (m = 0xDB ∨ m = 0xC4 → s.scanDone = false) ∧ (m = 0xD9 → s.scanDone = true) := by
  unfold orderError
  generalize s.seenSoi = a, s.seenSof = b, s.scanDone = c
  revert m a b c; decide +kernel

theorem orderError_soi {s : State} (h : s.seenSoi = false) : orderError 0xD8 s = none := by
  rw [orderError_eq_none, h]
  generalize s.seenSof = b, s.scanDone = c
  revert b c; decide

theorem orderError_skipped {m : Byte} {s : State} (h : s.seenSoi = true) (hm : 0xE0#8 ≤ m ∧ m ≤ 0xEF#8 ∨ m = 0xFE) :
    orderError m s = none := by
  rw [orderError_eq_none, h]
  generalize s.seenSof = b, s.scanDone = c
  revert m b c; decide +kernel

theorem orderError_table {m : Byte} {s : State} (h : s.seenSoi = true) (hs : s.scanDone = false)
    (hm : m = 0xDB ∨ m = 0xC4) : orderError m s = none := by
  rw [orderError_eq_none, h, hs]
  generalize s.seenSof = b
  rcases hm with rfl | rfl <;> revert b <;> decide

theorem orderError_sof0 {s : State} (h : s.seenSoi = true) (hs : s.seenSof = false) : orderError 0xC0 s = none := by
  rw [orderError_eq_none, h, hs]
  generalize s.scanDone = c
  revert c; decide

theorem orderError_sos {s : State} (h : s.seenSoi = true) (hs : s.seenSof = true) (hd : s.scanDone = false) :
    orderError 0xDA s = none := by
  rw [orderError_eq_none, h, hs, hd]; decide

theorem orderError_eoi {s : State} (h : s.seenSoi = true) (hd : s.scanDone = true) : orderError 0xD9 s = none := by
  rw [orderError_eq_none, h, hd]
  generalize s.seenSof = b
  revert b; decide

/-! ## Segments of several specifications -/

/-- A loop that runs its body on the states `st 0, st 1, ..., st n`. -/
theorem segWhile_steps {g : Seg} {body : State → Eff Unit} (st : Nat → State) :
    ∀ (n fuel : Nat), n ≤ fuel → (∀ i < n, (st i).pc.toNat < g.segEnd ∧ body (st i) = .ok () (st (i + 1))) →
      segWhile g body fuel (st 0) = segWhile g body (fuel - n) (st n)
  | 0, _, _, _ => rfl
  | n + 1, fuel, hf, h => by
    rw [segWhile_steps st n fuel (by omega) fun i hi => h i (by omega)]
    obtain ⟨k, hk⟩ : ∃ k, fuel - n = k + 1 := ⟨fuel - n - 1, by omega⟩
    have hn := h n (by omega)
    rw [hk, segWhile, if_pos hn.1, hn.2, Eff.bind_ok, show fuel - (n + 1) = k by omega]

theorem segWhile_end {g : Seg} {body : State → Eff Unit} {s : State} (h : g.segEnd ≤ s.pc.toNat) (fuel : Nat) :
    segWhile g body fuel s = .ok () s := by
  cases fuel with
  | zero => rfl
  | succ n => rw [segWhile, if_neg (by omega)]

theorem segWhile_raised {g : Seg} {body : State → Eff Unit} {s t : State} (h : s.pc.toNat < g.segEnd)
    (hb : body s = .raised t) {fuel : Nat} (hf : 0 < fuel) : segWhile g body fuel s = .raised t := by
  obtain ⟨k, rfl⟩ : ∃ k, fuel = k + 1 := ⟨fuel - 1, by omega⟩
  rw [segWhile, if_pos h, hb, Eff.bind_raised]

/-- A loop keeps what its body keeps. -/
theorem holds_segWhile {g : Seg} {body : State → Eff Unit} {P R : State → Prop}
    (h : ∀ s, P s → s.pc.toNat < g.segEnd → (body s).Holds (fun _ => P) R) :
    ∀ fuel s, P s → (segWhile g body fuel s).Holds (fun _ => P) R
  | 0, _, hs => hs
  | fuel + 1, s, hs => by
    rw [segWhile]
    by_cases hp : s.pc.toNat < g.segEnd
    · rw [if_pos hp]
      exact (h s hs hp).bind fun _ t ht => holds_segWhile h fuel t ht
    · rw [if_neg hp]; exact hs

/-! ## DQT -/

theorem zz_injective : ∀ j k : Fin 64, zz j = zz k → j = k := by decide +kernel

/-- The values of one specification, from IN offset `a`, into slot `t`. -/
def QuantStore.load (q : QuantStore) (t : Fin 4) (m : Memory) (a : Nat) (ks : List (Fin 64)) : QuantStore :=
  ks.foldl (fun q k => q.setVal t (zz k) (m.read (a + k.val))) q

section load
variable (t : Fin 4) (m : Memory) (a : Nat)

@[simp] theorem QuantStore.load_valid : ∀ (ks : List (Fin 64)) (q : QuantStore), (q.load t m a ks).valid = q.valid
  | [], _ => rfl
  | k :: ks, q => QuantStore.load_valid ks (q.setVal t (zz k) (m.read (a + k.val)))

theorem QuantStore.load_otherSlot {u : Fin 4} (h : t ≠ u) :
    ∀ (ks : List (Fin 64)) (q : QuantStore), (q.load t m a ks).vals[u] = q.vals[u]
  | [], _ => rfl
  | _ :: ks, q => (QuantStore.load_otherSlot h ks _).trans (q.setVal_otherSlot t u _ _ h)

theorem QuantStore.load_absent : ∀ (ks : List (Fin 64)) (q : QuantStore) (k : Fin 64), k ∉ ks →
    ((q.load t m a ks).vals[t])[zz k] = (q.vals[t])[zz k]
  | [], _, _, _ => rfl
  | k' :: ks, q, k, h => by
    rw [List.mem_cons, not_or] at h
    refine (QuantStore.load_absent ks _ k h.2).trans (q.setVal_other t _ _ _ ?_)
    exact fun e => h.1 (zz_injective _ _ e).symm

theorem QuantStore.load_present : ∀ (ks : List (Fin 64)) (q : QuantStore) (k : Fin 64), ks.Nodup → k ∈ ks →
    ((q.load t m a ks).vals[t])[zz k] = m.read (a + k.val)
  | k' :: ks, q, k, hn, h => by
    rcases List.mem_cons.1 h with rfl | h
    · exact (QuantStore.load_absent t m a ks _ k (List.nodup_cons.1 hn).1).trans (q.setVal_same t _ _)
    · exact QuantStore.load_present ks _ k (List.nodup_cons.1 hn).2 h
end load

section dqt
variable {g : Seg} {s : State}

/-- The values of a specification inside its segment (42 R434, R435). -/
theorem dqtValues_run (hg : g.segEnd ≤ s.inLenL.toNat) (t : Fin 4) (a : Nat) :
    ∀ (ks : List (Fin 64)) (k0 : Nat) (q : QuantStore), ks.map Fin.val = List.range' k0 ks.length →
      a + k0 + ks.length ≤ g.segEnd →
      Eff.forEach (fun k s => (segByte g s).bind fun v s => .ok () { s with qt := s.qt.setVal t (zz k) v }) ks
          (({ s with qt := q } : State).atPc (a + k0)) =
        .ok () (({ s with qt := q.load t s.inMem a ks } : State).atPc (a + k0 + ks.length))
  | [], k0, q, _, _ => rfl
  | k :: ks, k0, q, hk, h => by
    simp only [List.map_cons, List.length_cons, List.range'_succ, List.cons.injEq] at hk
    rw [List.length_cons] at h
    rw [Eff.forEach_cons, segByte_ok (s := { s with qt := q }) (by exact hg) (by omega), Eff.bind_ok, Eff.bind_ok]
    have := dqtValues_run hg t a ks (k0 + 1) (q.setVal t (zz k) (s.inMem.read (a + k.val))) hk.2 (by omega)
    rw [List.length_cons, show a + k0 + (ks.length + 1) = a + (k0 + 1) + ks.length by omega,
      show q.load t s.inMem a (k :: ks) = (q.setVal t (zz k) (s.inMem.read (a + k.val))).load t s.inMem a ks from rfl,
      ← this, ← hk.1]
    rfl

/-- The values of a specification cut short by the segment's end (42 R434). -/
theorem dqtValues_cut (hg : g.segEnd ≤ s.inLenL.toNat) (t : Fin 4) (a : Nat) :
    ∀ (ks : List (Fin 64)) (k0 : Nat) (q : QuantStore), ks.map Fin.val = List.range' k0 ks.length →
      a + k0 ≤ g.segEnd → g.segEnd < a + k0 + ks.length →
      ∃ q' : QuantStore, q'.valid = q.valid ∧ (∀ u : Fin 4, t ≠ u → q'.vals[u] = q.vals[u]) ∧
        Eff.forEach (fun k s => (segByte g s).bind fun v s => .ok () { s with qt := s.qt.setVal t (zz k) v }) ks
            (({ s with qt := q } : State).atPc (a + k0)) =
          .raised ((({ s with qt := q' } : State).atPc g.segEnd).raise .malformedContainer g.segEnd g.m none)
  | [], k0, q, _, _, h => by simp at h; omega
  | k :: ks, k0, q, hk, hp, h => by
    have hl := s.inLenL_toNat_lt
    simp only [List.map_cons, List.length_cons, List.range'_succ, List.cons.injEq] at hk
    rw [List.length_cons] at h
    by_cases he : a + k0 = g.segEnd
    · refine ⟨q, rfl, fun _ _ => rfl, ?_⟩
      rw [Eff.forEach_cons, segByte_short (by omega) (by omega), Eff.bind_raised, Eff.bind_raised, he]
    · obtain ⟨q', hv, hs, hr⟩ := dqtValues_cut hg t a ks (k0 + 1) (q.setVal t (zz k) (s.inMem.read (a + k.val))) hk.2
        (by omega) (by omega)
      refine ⟨q', hv, fun u hu => (hs u hu).trans (q.setVal_otherSlot t u _ _ hu), ?_⟩
      rw [Eff.forEach_cons, segByte_ok (s := { s with qt := q }) (by exact hg) (by omega), Eff.bind_ok, Eff.bind_ok,
        ← hr, ← hk.1]
      rfl

theorem finRange64_vals : (List.finRange 64).map Fin.val = List.range' 0 (List.finRange 64).length := by decide

/-- The slot of a specification whose PqTq byte is `b` (42 R434). -/
theorem slotOf_val {b : Byte} (h : b.toNat < 4) : (slotOf b).val = b.toNat := by
  revert b; decide

/-- The store after one specification at IN offset `a`. -/
def QuantStore.loadSpec (q : QuantStore) (m : Memory) (a : Nat) : QuantStore :=
  (q.load (slotOf (m.read a)) m (a + 1) (List.finRange 64)).setValid (slotOf (m.read a))

/-- An accepted specification (42 R434). -/
theorem dqtSpec_ok (hg : g.segEnd ≤ s.inLenL.toNat) {p : Nat} (q : QuantStore) (hb : (s.inMem.read p).toNat < 4)
    (h : p + 65 ≤ g.segEnd) :
    dqtSpec g (({ s with qt := q } : State).atPc p) =
      .ok () (({ s with qt := q.loadSpec s.inMem p } : State).atPc (p + 65)) := by
  have hl := s.inLenL_toNat_lt
  have hn : highNibble (s.inMem.read p) = 0 ∧ (lowNibble (s.inMem.read p)).toNat ≤ 3 := by
    revert hb; generalize s.inMem.read p = b; revert b; decide
  unfold dqtSpec
  rw [segByte_ok (s := { s with qt := q }) (by exact hg) (by omega), Eff.bind_ok, raiseIf_false (by simp [hn.1]),
    Eff.bind_ok, raiseIf_false (by simp only; omega), Eff.bind_ok, dqtValues]
  have := dqtValues_run hg (slotOf (s.inMem.read p)) (p + 1) (List.finRange 64) 0 q finRange64_vals
    (by rw [List.length_finRange]; omega)
  simp only [Nat.add_zero, List.length_finRange] at this
  rw [this, Eff.bind_ok]
  rfl

/-- A specification whose precision nibble is not 0, or whose slot does not exist (42 R434). -/
theorem dqtSpec_bad (hg : g.segEnd ≤ s.inLenL.toNat) {p : Nat} (q : QuantStore) (h : p < g.segEnd)
    (hb : 4 ≤ (s.inMem.read p).toNat) :
    dqtSpec g (({ s with qt := q } : State).atPc p) =
      .raised ((({ s with qt := q } : State).atPc (p + 1)).raise
        (if 16 ≤ (s.inMem.read p).toNat then .unsupportedFeature else .malformedContainer) p g.m
        (some (s.inMem.read p))) := by
  have hl := s.inLenL_toNat_lt
  have hp : (({ s with qt := q } : State).atPc p).pc.toNat = p := State.atPc_pc_toNat _ _ (by omega)
  unfold dqtSpec
  rw [segByte_ok (s := { s with qt := q }) (by exact hg) (by omega), Eff.bind_ok, hp]
  by_cases h16 : 16 ≤ (s.inMem.read p).toNat
  · have hn : highNibble (s.inMem.read p) ≠ 0 := by
      revert h16; generalize s.inMem.read p = b; revert b; decide
    rw [raiseIf_true (by exact hn), if_pos h16]; rfl
  · have hn : highNibble (s.inMem.read p) = 0 ∧ 3 < (lowNibble (s.inMem.read p)).toNat := by
      revert h16 hb; generalize s.inMem.read p = b; revert b; decide
    rw [raiseIf_false (by simp [hn.1]), Eff.bind_ok, raiseIf_true (by exact hn.2), if_neg h16]; rfl

/-- A specification cut short by the segment's end (42 R434). -/
theorem dqtSpec_cut (hg : g.segEnd ≤ s.inLenL.toNat) {p : Nat} (q : QuantStore) (hb : (s.inMem.read p).toNat < 4)
    (hp : p < g.segEnd) (h : g.segEnd < p + 65) :
    ∃ q' : QuantStore, q'.valid = q.valid ∧ (∀ u : Fin 4, slotOf (s.inMem.read p) ≠ u → q'.vals[u] = q.vals[u]) ∧
      dqtSpec g (({ s with qt := q } : State).atPc p) =
        .raised ((({ s with qt := q' } : State).atPc g.segEnd).raise .malformedContainer g.segEnd g.m none) := by
  have hl := s.inLenL_toNat_lt
  have hn : highNibble (s.inMem.read p) = 0 ∧ (lowNibble (s.inMem.read p)).toNat ≤ 3 := by
    revert hb; generalize s.inMem.read p = b; revert b; decide
  obtain ⟨q', hv, hs, hr⟩ := dqtValues_cut hg (slotOf (s.inMem.read p)) (p + 1) (List.finRange 64) 0 q finRange64_vals
    (by omega) (by rw [List.length_finRange]; omega)
  refine ⟨q', hv, hs, ?_⟩
  unfold dqtSpec
  rw [segByte_ok (s := { s with qt := q }) (by exact hg) (by omega), Eff.bind_ok, raiseIf_false (by simp [hn.1]),
    Eff.bind_ok, raiseIf_false (by simp only; omega), Eff.bind_ok, dqtValues]
  simp only [Nat.add_zero] at hr
  rw [hr, Eff.bind_raised]

/-- The store after `n` specifications from IN offset `a`. -/
def QuantStore.loadSpecs (q : QuantStore) (m : Memory) (a : Nat) : Nat → QuantStore
  | 0 => q
  | n + 1 => (q.loadSpecs m a n).loadSpec m (a + 65 * n)

/-- The loop of DQT over `n` accepted specifications (42 R434). -/
theorem dqtLoop_run (hg : g.segEnd ≤ s.inLenL.toNat) {a n fuel : Nat}
    (hb : ∀ j < n, (s.inMem.read (a + 65 * j)).toNat < 4) (h : a + 65 * n ≤ g.segEnd) (hf : n ≤ fuel) :
    segWhile g (dqtSpec g) fuel (s.atPc a) =
      segWhile g (dqtSpec g) (fuel - n) (({ s with qt := s.qt.loadSpecs s.inMem a n } : State).atPc (a + 65 * n)) := by
  have hl := s.inLenL_toNat_lt
  refine segWhile_steps (fun i => ({ s with qt := s.qt.loadSpecs s.inMem a i } : State).atPc (a + 65 * i)) n fuel hf
    fun i hi => ⟨?_, ?_⟩
  · rw [State.atPc_pc_toNat _ _ (by omega)]; omega
  · exact dqtSpec_ok hg _ (hb i hi) (by omega)

end dqt

/-- What a specification leaves in its own slot and in the others (42 R434 to R436). -/
theorem QuantStore.loadSpec_same (q : QuantStore) (m : Memory) (a : Nat) :
    (q.loadSpec m a).valid[slotOf (m.read a)] = true ∧
      ∀ k : Fin 64, ((q.loadSpec m a).vals[slotOf (m.read a)])[zz k] = m.read (a + 1 + k.val) := by
  refine ⟨by simp [QuantStore.loadSpec, QuantStore.setValid], fun k => ?_⟩
  exact QuantStore.load_present _ m (a + 1) _ q k (List.nodup_finRange 64) (List.mem_finRange k)

theorem QuantStore.loadSpec_other (q : QuantStore) (m : Memory) (a : Nat) {u : Fin 4} (h : slotOf (m.read a) ≠ u) :
    (q.loadSpec m a).valid[u] = q.valid[u] ∧ (q.loadSpec m a).vals[u] = q.vals[u] := by
  refine ⟨?_, QuantStore.load_otherSlot _ m (a + 1) h _ q⟩
  have : (slotOf (m.read a)).val ≠ u.val := fun e => h (Fin.ext e)
  simp [QuantStore.loadSpec, QuantStore.setValid, this]

/-! ## DHT -/

section dht
variable {g : Seg} {s : State}

theorem countSum_eq (cnt : List Byte) : countSum cnt = (cnt.map (·.toNat)).sum := rfl

/-- A specification whose fields are inside the segment: its table, or the overflow (42 R437, 43 R500). -/
theorem dhtSpec_run (hg : g.segEnd ≤ s.inLenL.toNat) {p : Nat} (h : HuffStore) (hb : (s.inMem.read p).toNat < 32)
    (hn : (s.inMem.read p).toNat % 16 < 2) (he : p + 17 + countSum (s.inBytes (p + 1) 16) ≤ g.segEnd) :
    dhtSpec g (({ s with ht := h } : State).atPc p) =
      buildTable ((s.inMem.read p).getLsbD 4) ((s.inMem.read p).getLsbD 0) (s.inBytes (p + 1) 16)
        (s.inBytes (p + 17) (countSum (s.inBytes (p + 1) 16))) p
        (({ s with ht := h } : State).atPc (p + 17 + countSum (s.inBytes (p + 1) 16))) := by
  have hl := s.inLenL_toNat_lt
  have hp : (({ s with ht := h } : State).atPc p).pc.toNat = p := State.atPc_pc_toNat _ _ (by omega)
  have hx : (s.inMem.read p).extractLsb' 5 3 = 0 ∧ (lowNibble (s.inMem.read p)).toNat ≤ 1 := by
    revert hb hn; generalize s.inMem.read p = b; revert b; decide
  unfold dhtSpec
  rw [segByte_ok (s := { s with ht := h }) (by exact hg) (by omega), Eff.bind_ok, hp, raiseIf_false (by simp [hx.1]),
    Eff.bind_ok, raiseIf_false (by simp only; omega), Eff.bind_ok,
    segBytes_ok (s := { s with ht := h }) (by exact hg) 16 (p + 1) (by omega), Eff.bind_ok,
    show p + 1 + 16 = p + 17 by omega]
  change (segBytes g (countSum (s.inBytes (p + 1) 16)) _).bind _ = _
  rw [segBytes_ok (s := { s with ht := h }) (by exact hg) _ (p + 17) he, Eff.bind_ok]
  rfl

/-- A specification whose bits 7:5 are not 0, or whose class is above 1 (42 R437). -/
theorem dhtSpec_bad (hg : g.segEnd ≤ s.inLenL.toNat) {p : Nat} (h : HuffStore) (hp : p < g.segEnd)
    (hb : 32 ≤ (s.inMem.read p).toNat ∨ 2 ≤ (s.inMem.read p).toNat % 16) :
    dhtSpec g (({ s with ht := h } : State).atPc p) =
      .raised ((({ s with ht := h } : State).atPc (p + 1)).raise
        (if 32 ≤ (s.inMem.read p).toNat then .malformedContainer else .unsupportedFeature) p g.m
        (some (s.inMem.read p))) := by
  have hl := s.inLenL_toNat_lt
  have hpc : (({ s with ht := h } : State).atPc p).pc.toNat = p := State.atPc_pc_toNat _ _ (by omega)
  unfold dhtSpec
  rw [segByte_ok (s := { s with ht := h }) (by exact hg) (by omega), Eff.bind_ok, hpc]
  by_cases h32 : 32 ≤ (s.inMem.read p).toNat
  · have hx : (s.inMem.read p).extractLsb' 5 3 ≠ 0 := by
      revert h32; generalize s.inMem.read p = b; revert b; decide
    rw [raiseIf_true (by exact hx), if_pos h32]; rfl
  · have hx : (s.inMem.read p).extractLsb' 5 3 = 0 ∧ 1 < (lowNibble (s.inMem.read p)).toNat := by
      revert h32 hb; generalize s.inMem.read p = b; revert b; decide
    rw [raiseIf_false (by simp [hx.1]), Eff.bind_ok, raiseIf_true (by exact hx.2), if_neg h32]; rfl

/-- A specification cut short by the segment's end (42 R437). -/
theorem dhtSpec_cut (hg : g.segEnd ≤ s.inLenL.toNat) {p : Nat} (h : HuffStore) (hp : p < g.segEnd)
    (hb : (s.inMem.read p).toNat < 32) (hn : (s.inMem.read p).toNat % 16 < 2)
    (he : g.segEnd < p + 17 ∨ g.segEnd < p + 17 + countSum (s.inBytes (p + 1) 16)) :
    dhtSpec g (({ s with ht := h } : State).atPc p) =
      .raised ((({ s with ht := h } : State).atPc g.segEnd).raise .malformedContainer g.segEnd g.m none) := by
  have hl := s.inLenL_toNat_lt
  have hx : (s.inMem.read p).extractLsb' 5 3 = 0 ∧ (lowNibble (s.inMem.read p)).toNat ≤ 1 := by
    revert hb hn; generalize s.inMem.read p = b; revert b; decide
  unfold dhtSpec
  rw [segByte_ok (s := { s with ht := h }) (by exact hg) (by omega), Eff.bind_ok, raiseIf_false (by simp [hx.1]),
    Eff.bind_ok, raiseIf_false (by simp only; omega), Eff.bind_ok]
  by_cases h17 : g.segEnd < p + 17
  · rw [segBytes_short (s := { s with ht := h }) (by exact hg) 16 (p + 1) (by omega) (by omega), Eff.bind_raised]
  · rw [segBytes_ok (s := { s with ht := h }) (by exact hg) 16 (p + 1) (by omega), Eff.bind_ok,
      show p + 1 + 16 = p + 17 by omega]
    change (segBytes g (countSum (s.inBytes (p + 1) 16)) _).bind _ = _
    rw [segBytes_short (s := { s with ht := h }) (by exact hg) _ (p + 17) (by omega) (by omega), Eff.bind_raised]

end dht

/-! ## Extraction -/

/-- SCAN with the bytes `bs` appended. -/
def State.scanPlus (bs : List Byte) (s : State) : State :=
  { s with scan := s.scan.writeList s.scanLen.toNat bs, scanLen := BitVec.ofNat 32 (s.scanLen.toNat + bs.length) }

theorem State.scanPlus_nil (s : State) : s.scanPlus [] = s := by
  simp [State.scanPlus, Memory.writeList]

theorem State.scanPlus_cons (b : Byte) (bs : List Byte) (s : State) (h : s.scanLen.toNat + 1 < 2 ^ 32) :
    ({ s with scan := s.scan.write s.scanLen.toNat b, scanLen := s.scanLen + 1 } : State).scanPlus bs =
      s.scanPlus (b :: bs) := by
  have e : (s.scanLen + 1).toNat = s.scanLen.toNat + 1 := Word.toNat_add_one h
  simp only [State.scanPlus, e, List.length_cons, Memory.writeList]
  rw [show s.scanLen.toNat + 1 + bs.length = s.scanLen.toNat + (bs.length + 1) by omega]

theorem destuffed_length : ∀ (bs : List Byte) (data : List Byte) (n : Nat), destuffed bs = some (data, n) →
    data.length ≤ n ∧ n ≤ bs.length
  | [], data, n, h => by simp [destuffed] at h; simp [← h.1, ← h.2]
  | [b], data, n, h => by
    rw [destuffed] at h
    split at h
    · simp at h
    · simp only [Option.some.injEq, Prod.mk.injEq] at h; simp [← h.1, ← h.2]
  | b :: c :: rest, data, n, h => by
    rw [destuffed] at h
    split at h
    · rw [Option.map_eq_some_iff] at h
      obtain ⟨⟨d, k⟩, hd, he⟩ := h
      simp only [Prod.mk.injEq] at he
      have := destuffed_length (c :: rest) d k hd
      simp only [← he.1, ← he.2, List.length_cons] at *; omega
    · split at h
      · rw [Option.map_eq_some_iff] at h
        obtain ⟨⟨d, k⟩, hd, he⟩ := h
        simp only [Prod.mk.injEq] at he
        have := destuffed_length rest d k hd
        simp only [← he.1, ← he.2, List.length_cons] at *; omega
      · simp only [Option.some.injEq, Prod.mk.injEq] at h; simp [← h.1, ← h.2]

theorem BitVec.ofNat8_toNat (b : Byte) : BitVec.ofNat 8 b.toNat = b := by simp

/-- The extraction loop appends the data bytes and stops at the marker or at the end of input; a lone 0xFF raises (42 R450). -/
theorem extractLoop_run : ∀ (n fuel p : Nat) (s : State), s.inLenL.toNat = p + n → n ≤ fuel → s.pc.toNat = p →
    s.inLenL.toNat ≤ s.params.inMemBytes → s.params.inMemBytes + 2 < 2 ^ 32 →
    s.scanLen.toNat + n ≤ s.params.scanMemBytes →
    (∀ data k, destuffed (s.inBytes p n) = some (data, k) →
      extractLoop fuel s = .ok () ((s.scanPlus data).atPc (p + k))) ∧
    (destuffed (s.inBytes p n) = none → ∃ data : List Byte, data.length ≤ n ∧
      extractLoop fuel s = .raised (((s.scanPlus data).atPc (p + n - 1)).raise .malformedContainer (p + n - 1) 0xDA none))
  | 0, fuel, p, s, hn, hf, hp, hi, hm, hs => by
    constructor
    · intro data k h
      simp only [State.inBytes_zero, destuffed, Option.some.injEq, Prod.mk.injEq] at h
      obtain ⟨rfl, rfl⟩ := h
      have e : extractLoop fuel s = .ok () s := by
        cases fuel with
        | zero => rfl
        | succ f => rw [extractLoop, if_pos (by omega)]
      rw [e, State.scanPlus_nil, Nat.add_zero, ← hp, State.atPc_self]
    · intro h; simp [destuffed] at h
  | n + 1, fuel, p, s, hn, hf, hp, hi, hm, hs => by
    obtain ⟨f, rfl⟩ : ∃ f, fuel = f + 1 := ⟨fuel - 1, by omega⟩
    have hl := s.inLenL_toNat_lt
    have hcap : s.params.scanMemBytes = s.params.inMemBytes + 2 := rfl
    have h1 : (s.pc + 1).toNat = p + 1 := hp ▸ Word.toNat_add_one (by omega)
    rw [State.inBytes_succ]
    have hb : s.inMem.readBE p 1 = (s.inMem.read p).toNat := Memory.readBE_one _ _
    by_cases hff : s.inMem.read p = 0xFF
    · by_cases hlast : n = 0
      · subst hlast
        have e : extractLoop (f + 1) s = .raised (s.raise .malformedContainer p 0xDA none) := by
          rw [extractLoop, if_neg (by omega), memRead_ok (by omega), Eff.bind_ok, hp, hb, hff, if_neg (by decide),
            raiseIf_true (by omega), Eff.bind_raised]
        rw [State.inBytes_zero, destuffed, if_pos hff]
        refine ⟨fun _ _ h => by simp at h, fun _ => ⟨[], by simp, ?_⟩⟩
        rw [e, State.scanPlus_nil, show p + (0 + 1) - 1 = p by omega]
        conv_lhs => rw [← State.atPc_self s, hp]
      · obtain ⟨n', rfl⟩ : ∃ n', n = n' + 1 := ⟨n - 1, by omega⟩
        rw [State.inBytes_succ, destuffed, if_neg (by simp [hff])]
        have h2 : (s.pc + 2).toNat = p + 2 := hp ▸ Word.toNat_add_two (by omega)
        have hb2 : s.inMem.readBE (p + 1) 1 = (s.inMem.read (p + 1)).toNat := Memory.readBE_one _ _
        have hstart : ∀ x, extractLoop (f + 1) s = x ↔
            (if (s.inMem.read (p + 1)).toNat = 0 then (stuffedPair s).bind fun _ s => extractLoop f s else .ok () s) = x := by
          intro x
          rw [extractLoop, if_neg (by omega), memRead_ok (by omega), Eff.bind_ok, hp, hb, hff, if_neg (by decide),
            raiseIf_false (by omega), Eff.bind_ok, memRead_ok (by omega), Eff.bind_ok, hp, hb2]
        by_cases hz : s.inMem.read (p + 1) = 0
        · rw [if_pos hz]
          have hst : (stuffedPair s).bind (fun _ s => extractLoop f s) = extractLoop f
              { s with scan := s.scan.write s.scanLen.toNat 0xFF, scanLen := s.scanLen + 1, pc := s.pc + 2 } := by
            rw [stuffedPair, scanAppend_ok (by omega)]; rfl
          have hrec := extractLoop_run n' f (p + 2)
            { s with scan := s.scan.write s.scanLen.toNat 0xFF, scanLen := s.scanLen + 1, pc := s.pc + 2 }
            (by simp only; omega) (by omega) h2 hi hm
            (by
              have e : (s.scanLen + 1).toNat = s.scanLen.toNat + 1 := Word.toNat_add_one (by omega)
              simp only [e]; omega)
          have hin : State.inBytes (p + 2) n'
              { s with scan := s.scan.write s.scanLen.toNat 0xFF, scanLen := s.scanLen + 1, pc := s.pc + 2 } =
              s.inBytes (p + 1 + 1) n' := rfl
          rw [hin] at hrec
          have hpl : ∀ (data : List Byte) (k : Nat), (State.scanPlus data
              { s with scan := s.scan.write s.scanLen.toNat 0xFF, scanLen := s.scanLen + 1, pc := s.pc + 2 }).atPc k =
              (s.scanPlus (0xFF :: data)).atPc k := by
            intro data k
            rw [← State.scanPlus_cons 0xFF data s (by omega)]; rfl
          constructor
          · intro data k h
            rw [Option.map_eq_some_iff] at h
            obtain ⟨⟨d, j⟩, hd, he⟩ := h
            simp only [Prod.mk.injEq] at he
            obtain ⟨rfl, rfl⟩ := he
            rw [hstart, if_pos (by rw [hz]; rfl), hst, hrec.1 d j hd, hpl, show p + 2 + j = p + (j + 2) by omega]
          · intro h
            rw [Option.map_eq_none_iff] at h
            obtain ⟨d, hdl, he⟩ := hrec.2 h
            refine ⟨0xFF :: d, by simp only [List.length_cons]; omega, ?_⟩
            rw [hstart, if_pos (by rw [hz]; rfl), hst, he, hpl, show p + 2 + n' - 1 = p + (n' + 1 + 1) - 1 by omega]
        · rw [if_neg hz]
          refine ⟨fun data k h => ?_, fun h => by simp at h⟩
          simp only [Option.some.injEq, Prod.mk.injEq] at h
          obtain ⟨rfl, rfl⟩ := h
          rw [hstart, if_neg (show ¬(s.inMem.read (p + 1)).toNat = 0 from fun h => hz (BitVec.eq_of_toNat_eq h)), State.scanPlus_nil, Nat.add_zero, ← hp,
            State.atPc_self]
    · have hne : (s.inMem.read p).toNat ≠ 0xFF := fun h => hff (BitVec.eq_of_toNat_eq h)
      have hst : extractLoop (f + 1) s = extractLoop f
          { s with scan := s.scan.write s.scanLen.toNat (s.inMem.read p), scanLen := s.scanLen + 1, pc := s.pc + 1 } := by
        rw [extractLoop, if_neg (by omega), memRead_ok (by omega), Eff.bind_ok, hp, hb, if_pos hne,
          BitVec.ofNat8_toNat, scanAppend_ok (by omega)]; rfl
      have hrec := extractLoop_run n f (p + 1)
        { s with scan := s.scan.write s.scanLen.toNat (s.inMem.read p), scanLen := s.scanLen + 1, pc := s.pc + 1 }
        (by simp only; omega) (by omega) h1 hi hm
        (by
          have e : (s.scanLen + 1).toNat = s.scanLen.toNat + 1 := Word.toNat_add_one (by omega)
          simp only [e]; omega)
      have hin : State.inBytes (p + 1) n
          { s with scan := s.scan.write s.scanLen.toNat (s.inMem.read p), scanLen := s.scanLen + 1, pc := s.pc + 1 } =
          s.inBytes (p + 1) n := rfl
      rw [hin] at hrec
      have hpl : ∀ (data : List Byte) (k : Nat), (State.scanPlus data
          { s with scan := s.scan.write s.scanLen.toNat (s.inMem.read p), scanLen := s.scanLen + 1, pc := s.pc + 1 }).atPc k =
          (s.scanPlus (s.inMem.read p :: data)).atPc k := by
        intro data k
        rw [← State.scanPlus_cons (s.inMem.read p) data s (by omega)]; rfl
      have hdd : destuffed (s.inMem.read p :: s.inBytes (p + 1) n) =
          (destuffed (s.inBytes (p + 1) n)).map fun r => (s.inMem.read p :: r.1, r.2 + 1) := by
        rcases hr : s.inBytes (p + 1) n with _ | ⟨c, rest⟩
        · rw [destuffed]; exact if_neg hff
        · rw [destuffed]; exact if_pos hff
      rw [hdd]
      constructor
      · intro data k h
        rw [Option.map_eq_some_iff] at h
        obtain ⟨⟨d, j⟩, hd, he⟩ := h
        simp only [Prod.mk.injEq] at he
        obtain ⟨rfl, rfl⟩ := he
        rw [hst, hrec.1 d j hd, hpl, show p + 1 + j = p + (j + 1) by omega]
      · intro h
        rw [Option.map_eq_none_iff] at h
        obtain ⟨d, hdl, he⟩ := hrec.2 h
        refine ⟨s.inMem.read p :: d, by simp only [List.length_cons]; omega, ?_⟩
        rw [hst, he, hpl, show p + 1 + n - 1 = p + (n + 1) - 1 by omega]

end Sys2Proof.Machine
end

