-- ==== Sys2Proof/Laws/Decode.lean ====
section
/-! SUPPORT. The decoder's tables: no two rows of a context match one word, and every word of a marker, DC or AC context
decodes. -/

namespace Sys2Proof

/-- The rows of a context that match a word. -/
def rowCount {n : Nat} (rows : List (Row n)) (w : BitVec n) : Nat := (rows.filter (·.hits w)).length

/-- Exactly one row of the container map matches a marker (30 R340). -/
theorem markerRows_disjoint : ∀ m : Byte, rowCount markerRows (markerWord 0xFF m) = 1 := by decide +kernel

/-- Exactly one row of the DC map matches a symbol (30 R341). -/
theorem dcRows_disjoint : ∀ b : Byte, rowCount dcRows b = 1 := by decide +kernel

/-- Exactly one row of the AC map matches a symbol (30 R342). -/
theorem acRows_disjoint : ∀ b : Byte, rowCount acRows b = 1 := by decide +kernel

theorem decode_marker : ∀ m : Byte, (decode (.marker (markerWord 0xFF m))).toOption.isSome = true := by decide +kernel

theorem decode_dcSymbol : ∀ b : Byte, (decode (.dcSymbol b)).toOption.isSome = true := by decide +kernel

theorem decode_acSymbol : ∀ b : Byte, (decode (.acSymbol b)).toOption.isSome = true := by decide +kernel

theorem Except.isSome_toOption {ε α : Type} {e : Except ε α} (h : e.toOption.isSome = true) : ∃ a, e = .ok a := by
  cases e with
  | ok a => exact ⟨a, rfl⟩
  | error r => simp [Except.toOption] at h

/-- The mask of the HOST_START row keeps bit 0 alone. -/
theorem startBit (v : Word) : (v &&& 1#32 == 1#32) = v.getLsbD 0 := by
  have h : v &&& 1#32 = if v.getLsbD 0 then 1#32 else 0#32 := by
    ext i hi
    by_cases h0 : i = 0
    · subst h0; cases h : v.getLsbD 0 <;> simp_all [BitVec.getLsbD_eq_getElem]
    · cases v.getLsbD 0 <;> simp [BitVec.getElem_one, h0]
  rw [h]; cases v.getLsbD 0 <;> rfl

/-- A host write decodes exactly where it writes 1 to CTRL.START (48 R750). -/
theorem decode_hostWrite (off : Nat) (v : Word) :
    decode (.hostWrite off v) = if off = 0 ∧ v.getLsbD 0 = true then .ok (.hostStart v) else .error .notAStart := by
  have hr : readRows hostRows v = if v.getLsbD 0 = true then some (.hostStart v) else none := by
    have := startBit v
    simp only [readRows, hostRows, List.find?, Row.hits]
    rw [show (v &&& 1 == 1) = v.getLsbD 0 from this]
    cases v.getLsbD 0 <;> rfl
  change (if off = ctrlOffset then orReject .notAStart (readRows hostRows v) else .error .notAStart) = _
  rw [hr]
  by_cases h0 : off = 0
  · subst h0
    cases v.getLsbD 0 <;> rfl
  · rw [if_neg (show ¬off = ctrlOffset from h0), if_neg (fun h => h0 h.1)]

end Sys2Proof
end

