-- ==== Sys2Proof/Laws/PerInstr.lean ====
section
/-! SUPPORT. Per instruction: the encoding of each well-formed instruction is matched by exactly one row of its context. -/

namespace Sys2Proof.Laws

/-- How many rows of its context match a code word. -/
def rowsOf : Code → Nat
  | .marker w => rowCount markerRows w
  | .scanPair w => rowCount scanRows w
  | .dcSymbol b => rowCount dcRows b
  | .acSymbol b => rowCount acRows b
  | .hostWrite _ v => rowCount hostRows v

namespace OneRow

/-- The encoding of a well-formed `i` is matched by exactly one row of the opcode table's rows of its context. -/
def Statement (i : Instr) : Prop := i.wf = true → rowsOf (encode i) = 1

theorem soi : Statement .soi := fun _ => markerRows_disjoint _

theorem appn (n : BitVec 4) : Statement (.appn n) := fun _ => markerRows_disjoint _

theorem com : Statement .com := fun _ => markerRows_disjoint _

theorem dqt : Statement .dqt := fun _ => markerRows_disjoint _

theorem dht : Statement .dht := fun _ => markerRows_disjoint _

theorem sof0 : Statement .sof0 := fun _ => markerRows_disjoint _

theorem sos : Statement .sos := fun _ => markerRows_disjoint _

theorem eoi : Statement .eoi := fun _ => markerRows_disjoint _

theorem unsupSof1to3 (m : Byte) : Statement (.unsupSof1to3 m) := fun _ => markerRows_disjoint _

theorem unsupSof5to7 (m : Byte) : Statement (.unsupSof5to7 m) := fun _ => markerRows_disjoint _

theorem unsupSof9to11 (m : Byte) : Statement (.unsupSof9to11 m) := fun _ => markerRows_disjoint _

theorem unsupSof13to15 (m : Byte) : Statement (.unsupSof13to15 m) := fun _ => markerRows_disjoint _

theorem unsupDac : Statement .unsupDac := fun _ => markerRows_disjoint _

theorem unsupRst (n : BitVec 3) : Statement (.unsupRst n) := fun _ => markerRows_disjoint _

theorem unsupDnl : Statement .unsupDnl := fun _ => markerRows_disjoint _

theorem unsupDri : Statement .unsupDri := fun _ => markerRows_disjoint _

theorem unsupDhp : Statement .unsupDhp := fun _ => markerRows_disjoint _

theorem unsupExp : Statement .unsupExp := fun _ => markerRows_disjoint _

theorem unsupTem : Statement .unsupTem := fun _ => markerRows_disjoint _

theorem unknown00 : Statement .unknown00 := fun _ => markerRows_disjoint _

theorem unknownRes (m : Byte) : Statement (.unknownRes m) := fun _ => markerRows_disjoint _

theorem unknownJpg : Statement .unknownJpg := fun _ => markerRows_disjoint _

theorem unknownJpgn (m : Byte) : Statement (.unknownJpgn m) := fun _ => markerRows_disjoint _

theorem unknownFill : Statement .unknownFill := fun _ => markerRows_disjoint _

theorem scanStuff : Statement .scanStuff := fun _ => rfl

theorem dcZero : Statement .dcZero := fun _ => dcRows_disjoint _

theorem dcDiff (s : Byte) : Statement (.dcDiff s) := fun _ => dcRows_disjoint _

theorem dcInvalid (s : Byte) : Statement (.dcInvalid s) := fun _ => dcRows_disjoint _

theorem eob : Statement .eob := fun _ => acRows_disjoint _

theorem zrl : Statement .zrl := fun _ => acRows_disjoint _

theorem acBadzero (r : BitVec 4) : Statement (.acBadzero r) := fun _ => acRows_disjoint _

theorem acCoef (r s : BitVec 4) : Statement (.acCoef r s) := fun _ => acRows_disjoint _

theorem acBadsize (r s : BitVec 4) : Statement (.acBadsize r s) := fun _ => acRows_disjoint _

theorem hostStart (v : Word) : Statement (.hostStart v) := by
  intro h
  have hv : (v &&& 1#32 == 1#32) = true := (startBit v).trans h
  simp only [rowsOf, encode, rowCount, hostRows, List.filter, Row.hits]
  rw [show (v &&& 1 == 1) = true from hv]
  rfl

end OneRow

end Sys2Proof.Laws
end

