-- ==== Sys2Proof/Laws/Step.lean ====
section
/-! SUPPORT. What a step is in each phase and for each host move. -/

namespace Sys2Proof.Machine

variable {s : State}

/-- A fetched marker or symbol is an instruction. -/
theorem decoded_ok {c : Code} (h : (decode c).toOption.isSome = true) (s : State) :
    ∃ i, decode c = .ok i ∧ decoded c s = .ok i s := by
  obtain ⟨i, hi⟩ := Except.isSome_toOption h
  exact ⟨i, hi, by simp [decoded, hi]⟩

theorem symbolCode_decodes (b : Byte) (s : State) : (decode (s.symbolCode b)).toOption.isSome = true := by
  unfold State.symbolCode
  split
  · exact decode_acSymbol b
  · exact decode_dcSymbol b

/-! ## Whose step it is -/

/-- With no host move pending the step is the engine's (log 5). -/
theorem step_engine (h : s.hostMoves = []) : step s = engineStep s := by
  unfold step; rw [h]

theorem step_host {mv : HostMove} {rest : List HostMove} (h : s.hostMoves = mv :: rest) :
    step s = hostStep mv { s with hostMoves := rest } := by
  unfold step; rw [h]

theorem hostStep_yield (h : s.busy = true) : hostStep .engine s = engineStep s := by
  simp [hostStep, h]

/-- A yield for which the engine has no step passes (log 5). -/
theorem hostStep_yield_rest (h : s.busy = false) : hostStep .engine s = .next s := by
  simp [hostStep, h, hostTurn, hostMove, Turn.outcome]

theorem hostStep_move {mv : HostMove} (h : mv ≠ .engine) : hostStep mv s = (hostTurn mv s).outcome := by
  simp [hostStep, h]

/-! ## The engine's step -/

theorem engineStep_parse (h : s.phase = .parse) : engineStep s = (parseTurn s).outcome := by
  unfold engineStep; rw [h]

theorem engineStep_decode (h : s.phase = .decode) : engineStep s = itemsToBoundary macroblockItems s := by
  unfold engineStep; rw [h]

/-- In IDLE, DONE and ERROR the engine has no step (48 R709, log 6). -/
theorem engineStep_rest (h : s.busy = false) : engineStep s = .refused .noStepEnabled := by
  unfold State.busy at h; unfold engineStep
  cases hp : s.phase <;> simp_all

theorem parseTurn_end (h : s.inLenL.toNat ≤ s.pc.toNat) : parseTurn s = .answer (endOfInput s).outcome := by
  simp [parseTurn, h]

theorem parseTurn_marker (h : s.pc.toNat < s.inLenL.toNat) : parseTurn s = .ofFetch (fetchMarker s) := by
  have : ¬s.inLenL.toNat ≤ s.pc.toNat := by omega
  simp [parseTurn, this]

theorem itemTurn_symbol (h : s.item.k < 64) : itemTurn s = .ofFetch (fetchSymbol s) := by
  simp [itemTurn, h]

theorem itemTurn_block (h : 64 ≤ s.item.k) : itemTurn s = .answer (afterBlock s).outcome := by
  have : ¬s.item.k < 64 := by omega
  simp [itemTurn, this]

/-! ## The parts of a macroblock -/

/-- Inside a macroblock the phase is DECODE. -/
theorem State.phase_of_not_atBoundary (h : ¬s.atBoundary = true) : s.phase = .decode := by
  simp [State.atBoundary] at h; exact h.1

/-- One part, then the rest of the macroblock. -/
theorem itemsToBoundary_succ (n : Nat) (s : State) :
    itemsToBoundary (n + 1) s =
      match itemStep s with
      | .next t => if t.atBoundary then .next t else itemsToBoundary n t
      | .fault r => .fault r
      | .refused r => .refused r := rfl

/-- What every part of a macroblock keeps, the macroblock keeps. -/
theorem itemsToBoundary_keeps {P : State → Prop}
    (keeps : ∀ s t, P s → s.phase = .decode → itemStep s = .next t → P t) (n : Nat) {s t : State} (hs : P s)
    (hp : s.phase = .decode) (h : itemsToBoundary n s = .next t) : P t := by
  induction n generalizing s with
  | zero => cases h; exact hs
  | succ n ih =>
    rw [itemsToBoundary_succ] at h
    split at h
    · rename_i u hu
      have hu := keeps s u hs hp hu
      split at h
      · cases h; exact hu
      · exact ih hu (State.phase_of_not_atBoundary ‹_›) h
    · cases h
    · cases h

/-- Where every part of a macroblock answers a next state that keeps `P`, so does the macroblock. -/
theorem itemsToBoundary_next {P : State → Prop}
    (next : ∀ s, P s → s.phase = .decode → ∃ t, itemStep s = .next t ∧ P t) (n : Nat) {s : State} (hs : P s)
    (hp : s.phase = .decode) : ∃ t, itemsToBoundary n s = .next t ∧ P t := by
  induction n generalizing s with
  | zero => exact ⟨s, rfl, hs⟩
  | succ n ih =>
    obtain ⟨u, hu, hP⟩ := next s hs hp
    rw [itemsToBoundary_succ, hu]
    by_cases hb : u.atBoundary = true
    · exact ⟨u, if_pos hb, hP⟩
    · simpa [hb] using ih hP (State.phase_of_not_atBoundary hb)

/-- A measure below `fuel` that every part lowers, until the macroblock is over: the fuel is not what ends it. -/
theorem itemsToBoundary_atBoundary {P : State → Prop} (left : State → Nat)
    (keeps : ∀ s t, P s → s.phase = .decode → itemStep s = .next t → t.atBoundary = true ∨ P t ∧ left t < left s)
    (n : Nat) {s t : State} (hs : P s) (hp : s.phase = .decode) (hn : left s < n) (h : itemsToBoundary n s = .next t) :
    t.atBoundary = true := by
  induction n generalizing s with
  | zero => omega
  | succ n ih =>
    rw [itemsToBoundary_succ] at h
    split at h
    · rename_i u hu
      split at h
      · cases h; assumption
      · obtain hb | ⟨hP, hl⟩ := keeps s u hs hp hu
        · contradiction
        · exact ih hP (State.phase_of_not_atBoundary ‹_›) (by omega) h
    · cases h
    · cases h

/-! ## Fetching -/

/-- The fetch of a marker whose two bytes are in the input (42 R420). -/
theorem fetchMarker_ok (hl : s.pc.toNat + 1 < s.inLenL.toNat) (hff : s.inMem.read s.pc.toNat = 0xFF) :
    ∃ i, decode (.marker (markerWord 0xFF (s.inMem.read (s.pc.toNat + 1)))) = .ok i ∧ fetchMarker s = .ok i s := by
  obtain ⟨i, hi, hd⟩ := decoded_ok (decode_marker (s.inMem.read (s.pc.toNat + 1))) s
  refine ⟨i, hi, ?_⟩
  rw [fetchMarker, memRead_ok (by omega), Eff.bind_ok, Memory.readBE_one, hff, raiseIf_false (by decide), Eff.bind_ok,
    raiseIf_false (by omega), Eff.bind_ok, memRead_ok (by omega), Eff.bind_ok, Memory.ofNat_read]
  exact hd

/-- The fetch of a marker that is not there (42 R420, R429). -/
theorem fetchMarker_bad (hl : s.pc.toNat < s.inLenL.toNat)
    (h : s.inMem.read s.pc.toNat ≠ 0xFF ∨ s.inLenL.toNat ≤ s.pc.toNat + 1) :
    fetchMarker s = .raised (s.raise .malformedContainer s.pc.toNat 0 none) := by
  rw [fetchMarker, memRead_ok (by omega), Eff.bind_ok, Memory.readBE_one]
  by_cases hff : (s.inMem.read s.pc.toNat).toNat ≠ 0xFF
  · rw [raiseIf_true hff, Eff.bind_raised]
  · rw [raiseIf_false hff, Eff.bind_ok, raiseIf_true, Eff.bind_raised]
    rcases h with h | h
    · exact absurd (fun e => h (BitVec.eq_of_toNat_eq e)) hff
    · exact h

/-- A host move that is neither a START nor a yield acts at once. -/
theorem hostTurn_writeReg (off : Nat) (v : Word) (s : State) :
    hostTurn (.writeReg off v) s =
      if off = 0 ∧ v.getLsbD 0 = true then .run (.hostStart v) s else .answer (hostMove (.writeReg off v) s) := by
  change (match decode (.hostWrite off v) with
    | .ok i => Turn.run i s
    | .error _ => .answer (hostMove (.writeReg off v) s)) = _
  rw [decode_hostWrite]
  by_cases h : off = 0 ∧ v.getLsbD 0 = true
  · rw [if_pos h, if_pos h]
  · rw [if_neg h, if_neg h]

end Sys2Proof.Machine
end

