-- ==== Sys2Proof/Tests/Slice0.lean ====
section
/-! SUPPORT. Tests of single steps, with expected values from spec/95_test_vectors.md (named in each docstring) or worked
out by hand from the rule, and for every statement a witness of its hypotheses. -/

namespace Sys2Proof.Tests

-- One theorem at a time: each kernel evaluation waits for the earlier ones, and waiting threads use memory.
set_option Elab.async false

open Sys2Proof.Machine Sys2Proof.Claims

/-! ## States -/

/-- The next state of an outcome. -/
def next? : Host.Outcome State Fault Refusal → Option State
  | .next t => some t
  | .fault _ => none
  | .refused _ => none

/-- The error registers after an outcome: code, offset, marker, table. -/
def err? (o : Host.Outcome State Fault Refusal) : Option (Nat × Nat × Nat × Nat) :=
  (next? o).map fun t => (t.err.code.toNat, t.err.offset.toNat, t.err.marker.toNat, t.err.table.toNat)

/-- A memory of the bytes from offset 0. -/
def listed (bs : List Byte) : Memory :=
  bs.zipIdx.filterMap fun c => if c.1 = 0 then none else some (c.2, c.1)

/-- PARSE after SOI, with the bytes in IN and the cursor at offset 0. -/
def parsing (bs : List Byte) : State :=
  { State.reset with
    phase := .parse
    seenSoi := true
    inMem := listed bs
    inLenL := BitVec.ofNat 32 bs.length }

/-- The frame header of V-C-9, accepted: a 16 by 16 image. -/
def framed (s : State) : State :=
  { s with
    seenSof := true
    fh :=
      { p := 8, y := 16, x := 16, nf := 3, c := #v[1, 2, 3]
        hv := #v[0x22, 0x11, 0x11], tq := #v[0, 1, 1] }
    qt := ⟨Vector.replicate 4 (Vector.replicate 64 1), #v[true, true, false, false]⟩
    seq := ⟨1, 1, 0, 0⟩
    regs := { s.regs with width := 16, height := 16, stride := 48, outLen := 768 } }

/-- DECODE of a 16 by 16 image with the bytes in SCAN, block `b` at spectral index `k`. -/
def decoding (scan : List Byte) (b : Fin 6) (k : Nat) : State :=
  { framed { State.reset with seenSoi := true } with
    phase := .decode
    scanDone := true
    scan := listed scan
    scanLen := BitVec.ofNat 32 scan.length
    item := ⟨b, k⟩ }

/-- A state with the one lookup table (tc, th). -/
def withTable (tc th : Bool) (t : HuffTable) (s : State) : State := { s with ht := s.ht.set tc th t }

/-- The state whose next host move is `mv`. -/
def moving (mv : HostMove) (s : State) : State := { s with hostMoves := [mv] }

/-- Sixteen counts, the first ones given. -/
def counts (cs : List Byte) : List Byte := cs ++ List.replicate (16 - cs.length) 0

/-- The SOF0 segment of V-C-9. -/
def sof16 : List Byte := [0xFF, 0xC0, 0, 0x11, 8, 0, 16, 0, 16, 3, 1, 0x22, 0, 2, 0x11, 1, 3, 0x11, 1]

/-- The SOS segment of V-C-13. -/
def sosSegment : List Byte := [0xFF, 0xDA, 0, 0x0C, 3, 1, 0, 2, 0x11, 3, 0x11, 0, 0x3F, 0]

/-- A DQT segment of the bytes. -/
def dqtSegment (bs : List Byte) : List Byte := [0xFF, 0xDB, 0, BitVec.ofNat 8 (bs.length + 2)] ++ bs

/-- A DHT segment of the bytes. -/
def dhtSegment (bs : List Byte) : List Byte := [0xFF, 0xC4, 0, BitVec.ofNat 8 (bs.length + 2)] ++ bs

/-! ## Ill-formed terms are refused, one for each check of `Instr.wf` -/

theorem test_wf_sof1to3 : (Instr.unsupSof1to3 0xC0).wf = false ∧ (Instr.unsupSof1to3 0xC4).wf = false := by decide
theorem test_wf_sof5to7 : (Instr.unsupSof5to7 0xC4).wf = false ∧ (Instr.unsupSof5to7 0xC8).wf = false := by decide
theorem test_wf_sof9to11 : (Instr.unsupSof9to11 0xC8).wf = false ∧ (Instr.unsupSof9to11 0xCC).wf = false := by decide
theorem test_wf_sof13to15 : (Instr.unsupSof13to15 0xCC).wf = false ∧ (Instr.unsupSof13to15 0xD0).wf = false := by decide
theorem test_wf_unknownRes : (Instr.unknownRes 0x01).wf = false ∧ (Instr.unknownRes 0xC0).wf = false := by decide
theorem test_wf_unknownJpgn : (Instr.unknownJpgn 0xEF).wf = false ∧ (Instr.unknownJpgn 0xFE).wf = false := by decide
theorem test_wf_dcDiff : (Instr.dcDiff 0).wf = false ∧ (Instr.dcDiff 12).wf = false := by decide
theorem test_wf_dcInvalid : (Instr.dcInvalid 11).wf = false := by decide
theorem test_wf_acBadzero : (Instr.acBadzero 0).wf = false ∧ (Instr.acBadzero 15).wf = false := by decide
theorem test_wf_acCoef : (Instr.acCoef 3 0).wf = false ∧ (Instr.acCoef 3 11).wf = false := by decide
theorem test_wf_acBadsize : (Instr.acBadsize 3 10).wf = false := by decide
theorem test_wf_hostStart : (Instr.hostStart 2).wf = false := by decide

/-! ## Decoding, from words written out (30 R300, R307 to R309, R340 to R342, 48 R750) -/

theorem test_decode_soi : (decode (.marker 0b1111111111011000)).toOption = some .soi := by decide
theorem test_decode_appn : (decode (.marker 0b1111111111101111)).toOption = some (.appn 15) := by decide
theorem test_decode_com : (decode (.marker 0b1111111111111110)).toOption = some .com := by decide
theorem test_decode_dqt : (decode (.marker 0b1111111111011011)).toOption = some .dqt := by decide
theorem test_decode_dht : (decode (.marker 0b1111111111000100)).toOption = some .dht := by decide
theorem test_decode_sof0 : (decode (.marker 0b1111111111000000)).toOption = some .sof0 := by decide
theorem test_decode_sos : (decode (.marker 0b1111111111011010)).toOption = some .sos := by decide
theorem test_decode_eoi : (decode (.marker 0b1111111111011001)).toOption = some .eoi := by decide
theorem test_decode_sof2 : (decode (.marker 0b1111111111000010)).toOption = some (.unsupSof1to3 0xC2) := by decide
theorem test_decode_sof5 : (decode (.marker 0b1111111111000101)).toOption = some (.unsupSof5to7 0xC5) := by decide
theorem test_decode_sof11 : (decode (.marker 0b1111111111001011)).toOption = some (.unsupSof9to11 0xCB) := by decide
theorem test_decode_sof14 : (decode (.marker 0b1111111111001110)).toOption = some (.unsupSof13to15 0xCE) := by decide
theorem test_decode_dac : (decode (.marker 0b1111111111001100)).toOption = some .unsupDac := by decide
theorem test_decode_rst5 : (decode (.marker 0b1111111111010101)).toOption = some (.unsupRst 5) := by decide
theorem test_decode_dnl : (decode (.marker 0b1111111111011100)).toOption = some .unsupDnl := by decide
theorem test_decode_dri : (decode (.marker 0b1111111111011101)).toOption = some .unsupDri := by decide
theorem test_decode_dhp : (decode (.marker 0b1111111111011110)).toOption = some .unsupDhp := by decide
theorem test_decode_exp : (decode (.marker 0b1111111111011111)).toOption = some .unsupExp := by decide
theorem test_decode_tem : (decode (.marker 0b1111111100000001)).toOption = some .unsupTem := by decide
theorem test_decode_unknown00 : (decode (.marker 0b1111111100000000)).toOption = some .unknown00 := by decide
theorem test_decode_unknownRes :
    (decode (.marker 0b1111111110111111)).toOption = some (.unknownRes 0xBF) := by decide
theorem test_decode_unknownJpg : (decode (.marker 0b1111111111001000)).toOption = some .unknownJpg := by decide
theorem test_decode_unknownJpgn :
    (decode (.marker 0b1111111111111101)).toOption = some (.unknownJpgn 0xFD) := by decide
theorem test_decode_unknownFill : (decode (.marker 0b1111111111111111)).toOption = some .unknownFill := by decide
theorem test_decode_scanStuff : (decode (.scanPair 0b1111111100000000)).toOption = some .scanStuff := by decide
theorem test_decode_dcZero : (decode (.dcSymbol 0b00000000)).toOption = some .dcZero := by decide
theorem test_decode_dcDiff : (decode (.dcSymbol 0b00001010)).toOption = some (.dcDiff 10) := by decide
theorem test_decode_dcInvalid : (decode (.dcSymbol 0b00001100)).toOption = some (.dcInvalid 12) := by decide
theorem test_decode_eob : (decode (.acSymbol 0b00000000)).toOption = some .eob := by decide
theorem test_decode_zrl : (decode (.acSymbol 0b11110000)).toOption = some .zrl := by decide
theorem test_decode_acBadzero : (decode (.acSymbol 0b00110000)).toOption = some (.acBadzero 3) := by decide
theorem test_decode_acCoef : (decode (.acSymbol 0b10011010)).toOption = some (.acCoef 9 10) := by decide
theorem test_decode_acBadsize : (decode (.acSymbol 0b00001011)).toOption = some (.acBadsize 0 11) := by decide
theorem test_decode_hostStart :
    (decode (.hostWrite 0 0b00000000000000000000000000000011)).toOption = some (.hostStart 3) := by decide
theorem test_decode_leadByte : (decode (.marker 0b0000000011011001)).toOption = none := by decide
theorem test_decode_scanEnd : (decode (.scanPair 0b1111111111011001)).toOption = none := by decide
theorem test_decode_noStart : (decode (.hostWrite 0 0b10)).toOption = none := by decide

/-! ## Markers -/

/-- V-C-1. -/
theorem test_soi : (next? (exec .soi { parsing [0xFF, 0xD8] with seenSoi := false })).map
    (fun t => (t.pc, t.seenSoi)) = some (2, true) := by decide
/-- E37. -/
theorem test_soi_twice :
    err? (exec .soi { parsing [0xFF, 0xD8, 0xFF, 0xD8] with pc := 2 }) = some (1, 2, 0xD8, 0) := by decide
/-- V-C-1: APP0 is skipped, 6 bytes. -/
theorem test_appn : (next? (exec (.appn 0) (parsing [0xFF, 0xE0, 0, 4, 0x4A, 0x46]))).map (·.pc) = some 6 := by decide
/-- E31, its segment moved to offset 0. -/
theorem test_appn_short : err? (exec (.appn 1) (parsing [0xFF, 0xE1, 0, 1])) = some (1, 2, 0xE1, 0) := by decide
/-- V-C-2. -/
theorem test_com : (next? (exec .com (parsing [0xFF, 0xFE, 0, 3, 0xFF]))).map (·.pc) = some 5 := by decide
/-- E30, its segment moved to offset 0. -/
theorem test_com_past_input :
    err? (exec .com (parsing [0xFF, 0xFE, 0, 0x10, 0x41])) = some (1, 2, 0xFE, 0) := by decide
/-- V-C-4. -/
theorem test_dqt :
    (next? (exec .dqt (parsing (dqtSegment (0 :: (List.range 64).map (BitVec.ofNat 8)))))).map (fun t =>
      (t.pc.toNat, t.qt.valid.toList, ([1, 8, 16, 9, 63] : List (Fin 64)).map fun i => (t.qt.vals[0])[i])) =
      some (69, [true, false, false, false], [1, 2, 3, 4, 63]) := by decide +kernel
/-- E9, its segment moved to offset 0. -/
theorem test_dqt_slot :
    err? (exec .dqt (parsing (dqtSegment (4 :: List.replicate 64 1)))) = some (1, 4, 0xDB, 0x104) := by decide
/-- V-HUF-3. -/
theorem test_dht :
    (next? (exec .dht (parsing (dhtSegment (0x10 :: counts [0, 2, 1] ++ [3, 4, 5]))))).map (fun t =>
      (t.pc.toNat, t.ht.ac0.entry 0x3FFF, t.ht.ac0.entry 0x4000, t.ht.ac0.entry 0x8000, t.ht.ac0.entry 0xA000)) =
      some (24, (2, 3), (2, 4), (3, 5), (0, 0)) := by decide +kernel
/-- E11, its segment moved to offset 0. -/
theorem test_dht_overflow :
    err? (exec .dht (parsing (dhtSegment (0 :: counts [3] ++ [0, 1, 2])))) = some (1, 4, 0xC4, 0x100) := by
  decide +kernel
/-- V-C-9. -/
theorem test_sof0 : (next? (exec .sof0 (parsing sof16))).map (fun t =>
    (t.pc, t.seq, t.regs.width, t.regs.height, t.regs.stride, t.regs.outLen)) =
      some (19, ⟨1, 1, 0, 0⟩, 16, 16, 48, 768) := by decide +kernel
/-- E50, its segment moved to offset 0. -/
theorem test_sof0_sampling :
    err? (exec .sof0 (parsing (sof16.set 14 0x22))) = some (2, 14, 0xC0, 0) := by decide +kernel
/-- V-C-13 with the bytes of V-SCAN-1. -/
theorem test_sos :
    (next? (exec .sos (framed (parsing (sosSegment ++ [0x12, 0xFF, 0, 0x34, 0xFF, 0xD9]))))).map (fun t =>
      (t.pc, t.scan, t.scanLen, t.scanDone)) =
      some (18, [(0, 0x12), (1, 0xFF), (2, 0x34)], 5, true) := by decide +kernel
/-- V-SCAN-4. -/
theorem test_sos_loneFF :
    err? (exec .sos (framed (parsing (sosSegment ++ [0, 0xFF])))) = some (1, 15, 0xDA, 0) := by decide +kernel
/-- V-C-15. -/
theorem test_eoi : (next? (exec .eoi { framed (parsing [0xFF, 0xD9, 0xFF, 0xFF]) with scanDone := true })).map
    (fun t => (t.phase, t.pc)) = some (.decode, 2) := by decide
/-- E7, at offset 0. -/
theorem test_eoi_early : err? (exec .eoi (parsing [0xFF, 0xD9])) = some (1, 0, 0xD9, 0) := by decide
/-- E51, at offset 0; SOF5, SOF9 and SOF13 beside it (42 R454). -/
theorem test_unsupSof : err? (exec (.unsupSof1to3 0xC2) (parsing [])) = some (2, 0, 0xC2, 0) ∧
    err? (exec (.unsupSof5to7 0xC5) (parsing [])) = some (2, 0, 0xC5, 0) ∧
    err? (exec (.unsupSof9to11 0xC9) (parsing [])) = some (2, 0, 0xC9, 0) ∧
    err? (exec (.unsupSof13to15 0xCD) (parsing [])) = some (2, 0, 0xCD, 0) := by decide
/-- E3 and E38, at offset 0, and the other codes of 42 R454. -/
theorem test_unsup :
    [.unsupDri, .unsupRst 0, .unsupDac, .unsupDnl, .unsupDhp, .unsupExp, .unsupTem].map
      (fun i => err? (exec i (parsing []))) =
    [0xDD, 0xD0, 0xCC, 0xDC, 0xDE, 0xDF, 0x01].map fun m => some (2, 0, m, 0) := by decide
/-- E4 and E5, at offset 0, and the other codes of 42 R455. -/
theorem test_unknown : err? (exec (.unknownRes 0x02) (parsing [])) = some (3, 0, 0x02, 0) ∧
    err? (exec .unknownFill (parsing [])) = some (3, 0, 0xFF, 0) ∧
    err? (exec .unknown00 (parsing [])) = some (3, 0, 0x00, 0) ∧
    err? (exec .unknownJpg (parsing [])) = some (3, 0, 0xC8, 0) ∧
    err? (exec (.unknownJpgn 0xF7) (parsing [])) = some (3, 0, 0xF7, 0) := by decide
/-- The second byte of V-SCAN-1's SCAN. -/
theorem test_scanStuff : (next? (exec .scanStuff { parsing [] with scan := [(0, 0x12)], scanLen := 1, pc := 15 })).map
    (fun t => (t.pc, t.scan, t.scanLen)) = some (17, [(0, 0x12), (1, 0xFF)], 2) := by decide
/-- E6, a step of the machine. -/
theorem test_step_leadByte : err? (step (parsing [0, 0xD9])) = some (1, 0, 0, 0) := by decide
/-- E40, a step of the machine. -/
theorem test_step_lastFF : err? (step (parsing [0xFF])) = some (1, 0, 0, 0) := by decide

/-! ## The scan -/

/-- V-BR-2. -/
theorem test_readBits :
    (match (readBits 4 (decoding [0xA5, 0x0F] 0 0)).bind fun a s => (readBits 8 s).bind fun b s => .ok (a, b) s with
    | .ok v t => some (v, t.br.cnt, t.br.pos)
    | .raised _ => none
    | .stop _ => none) = some ((10, 0x50), 4, 2) := by decide
/-- V-BR-3: `skip(3)` after `peek(16)` leaves 13 bits, and the next `peek(16)` runs out. -/
theorem test_peek_exhausted : (match peek 16 { decoding [0xA5, 0x0F] 0 0 with br := ⟨0x50F, 13, 2⟩ } with
    | .ok _ _ => none
    | .raised t => some (t.err.code, t.err.offset)
    | .stop _ => none) = some (4, 2) := by decide
/-- V-ZZ-1 and V-ZZ-2. -/
theorem test_zigzag : [0, 1, 2, 3, 10, 14, 39, 63].map (fun k => (zz k).val) = [0, 1, 8, 16, 32, 4, 36, 63] ∧
    [4, 32, 36, 26].map (fun i => (zzInv i).val) = [14, 10, 39, 18] := by decide
/-- V-EXT. -/
theorem test_extend :
    [(0, 1), (1, 1), (0, 2), (3, 2), (0, 11), (2047, 11), (1024, 11), (1023, 11), (511, 10), (512, 10)].map
      (fun p : Nat × Nat => extend p.1 p.2) = [-1, 1, -3, 3, -2047, 2047, 1024, -1024, -512, 512] := by decide
/-- V-DC-3. -/
theorem test_dcZero :
    (next? (exec .dcZero { decoding [] 0 0 with pred := #v[856, 0, 0] })).map (fun t =>
      ((t.blk[0])[0], t.pred.toList, t.item.k)) = some (856, [856, 0, 0], 1) := by decide +kernel
/-- V-DC-1, the code "1" consumed. -/
theorem test_dcDiff :
    (next? (exec (.dcDiff 10) { decoding [0xEB, 0, 3, 0, 0] 0 0 with br := ⟨0x6B, 7, 1⟩ })).map (fun t =>
      ((t.blk[0])[0], t.pred.toList, t.br.cnt)) = some (856, [856, 0, 0], 5) := by decide +kernel
/-- V-DC-4. -/
theorem test_dcInvalid :
    err? (exec (.dcInvalid 12) { decoding [0, 0] 0 0 with br := ⟨0, 15, 2⟩ }) = some (4, 2, 0, 0x100) := by decide
/-- V-AC-1. -/
theorem test_eob : (next? (exec .eob (decoding [] 0 1))).map (·.item) = some ⟨0, 64⟩ := by decide
/-- V-AC-5. -/
theorem test_zrl : (next? (exec .zrl (decoding [] 0 48))).map (·.item) = some ⟨0, 64⟩ := by decide
/-- V-AC-6, on a chroma block. -/
theorem test_zrl_past :
    err? (exec .zrl { decoding [0, 0, 0] 4 49 with br := ⟨0, 16, 3⟩ }) = some (4, 3, 0, 0x111) := by decide
/-- V-AC-8. -/
theorem test_acBadzero :
    err? (exec (.acBadzero 3) { decoding [0, 0, 0] 0 1 with br := ⟨0, 16, 3⟩ }) = some (4, 3, 0, 0x110) := by decide
/-- V-AC-3: the bits 010 are -5 at natural index 16. -/
theorem test_acCoef :
    (next? (exec (.acCoef 2 3) (decoding [0b01000000] 0 1))).map (fun t =>
      (((t.blk[0])[16]).toInt, t.item.k, t.br.cnt)) = some (-5, 4, 5) := by decide +kernel
/-- V-AC-7. -/
theorem test_acCoef_past :
    err? (exec (.acCoef 15 1) { decoding [0, 0, 0] 0 49 with br := ⟨0, 16, 3⟩ }) = some (4, 3, 0, 0x110) := by decide
/-- V-AC-9. -/
theorem test_acBadsize :
    err? (exec (.acBadsize 0 11) { decoding [0, 0, 0] 0 1 with br := ⟨0, 16, 3⟩ }) = some (4, 3, 0, 0x110) := by decide
/-- V-HUF-1 with V-DC-4, a step of the machine: its first symbol ends it. -/
theorem test_step_symbol :
    err? (step (withTable false false [⟨0, 1, 12⟩] (decoding [0, 0] 0 0))) = some (4, 2, 0, 0x100) := by decide +kernel
/-- V-HUF-2, a step of the machine. -/
theorem test_step_unpopulated :
    err? (step (withTable false false [⟨0, 1, 12⟩] (decoding [0x80, 0] 0 0))) = some (4, 2, 0, 0x100) := by
  decide +kernel
/-- V-DQ-1. -/
theorem test_dequant :
    ((dequantBlock (Vector.ofFn fun i => if i.val = 0 then 16 else 11)
      (Vector.ofFn fun i => if i.val = 0 then 856 else if i.val = 1 then -1 else 0)).toList.take 3).map (·.toInt) =
      [13696, -11, 0] := by decide +kernel
/-- V-IDCT-14, its first row. -/
theorem test_idct :
    ((idctBlock ((Vector.replicate 64 0).set 63 1000)).toList.take 8).map (·.toInt) =
      [10, -27, 41, -48, 48, -41, 27, -10] := by decide +kernel
/-- V-IDCT-2 to V-IDCT-5, the ties. -/
theorem test_idct_ties :
    [4, -4, 12, -12].map (fun d : S64 => ((idctBlock ((Vector.replicate 64 0).set 0 d))[9]).toInt) = [1, -1, 2, -2] := by
  decide +kernel
/-- V-CC-3, V-CC-5 and V-CC-6. -/
theorem test_color : toPixel (-28) (-50) 0 = ⟨100, 117, 11⟩ ∧ toPixel (-118) 125 0 = ⟨10, 0, 232⟩ ∧
    toPixel 122 (-125) 0 = ⟨250, 255, 29⟩ := by decide
/-- The placement example of 95 section 3.7: pixel (17, 3) of an image two macroblocks wide. -/
theorem test_placement :
    pixelOffset 96 1 0 1 3 = 339 ∧ lumaBlock 1 3 = 0 ∧ lumaIndex 1 3 = 25 ∧ chromaIndex 1 3 = 8 := by decide

/-- The step of a placed AC symbol runs it: the bits 000 are -7 at natural index 16 (44 R560, log 11). -/
theorem test_withFetchWord_acCoef :
    (next? (step (State.reset.withFetchWord 8 0x23))).map (fun t => ((t.blk[0])[16]).toInt) = some (-7) := by
  decide +kernel

/-! ## The host -/

/-- V-H-6, the START step. -/
theorem test_hostStart : (next? (exec (.hostStart 1) State.reset)).map (fun t => (t.status, t.bgrL)) = some (1, false) := by
  decide
/-- V-H-14. -/
theorem test_hostStart_tooLong :
    err? (exec (.hostStart 1)
      { State.resetWith { Params.reference with inMemBytes := 16 } with regs := { HostRegs.zero with inLen := 17 } }) =
      some (5, 0, 0, 0) := by decide
/-- V-H-5. -/
theorem test_ctrl_bgr : (next? (step (moving (.writeReg 0 2) State.reset))).map (fun t => (t.readReg 0, t.status)) =
    some (2, 0) := by decide
/-- V-H-4. -/
theorem test_status_readOnly :
    (next? (step (moving (.writeReg 4 7) State.reset))).map (·.readReg 4) = some 0 := by decide

/-! ## Witnesses of the statements' hypotheses

Each `witness_<Name>` is a concrete state and operands that meet the hypotheses of `Obligations.<Name>`, one theorem for
each clause; the states sit at the ends of the ranges the clauses split. -/

/-- A reader that has loaded nothing meets the reader's invariant. -/
theorem readerOk_fresh {s : State} (h : s.br = ⟨0, 0, 0⟩) : s.ReaderOk where
  cnt := by simp [h]
  pos := by simp [h]
  held := by simp [h]
  bits := by rw [h]; rfl

theorem witness_DecodeOfEncodeIsIdentity :
    (Instr.unknownRes 0xBF).wf ∧ (Instr.dcDiff 11).wf ∧ (Instr.acCoef 15 10).wf ∧ (Instr.hostStart 0xFFFFFFFF).wf := by
  decide

theorem witness_DecodedInstrEncodesBack : decode (.marker 0xFFBF) = .ok (.unknownRes 0xBF) := by rfl

theorem witness_StepRunsMarkerAtPc : ∃ s : State, s.hostMoves = [] ∧ s.phase = .parse ∧
    s.pc.toNat + 1 < s.inLenL.toNat ∧ at_ s 0 = 0xFF := ⟨parsing [0xFF, 0xD9], by decide⟩

theorem witness_StepRunsSymbolAfterLookup_step : ∃ s t : State, s.phase = .decode ∧ s.hostMoves = [] ∧
    itemStep s = .next t ∧ t.atBoundary = false := ⟨decoding [] 4 64, decoding [] 5 0, rfl, rfl, rfl, rfl⟩

theorem witness_StepRunsSymbolAfterLookup_found : ∃ s : State, s.hostMoves = [] ∧ s.phase = .decode ∧ s.item.k < 64 ∧
    s.ReaderOk ∧ (∀ tc th, ∀ f ∈ s.ht.get tc th, 1 ≤ f.len ∧ f.len ≤ 16) ∧ s.hasBits 16 ∧
    ((s.ht.get true false).entry (s.scan.bits s.consumed 16)).1 ≠ 0 :=
  ⟨withTable true false [⟨0, 1, 1⟩] (decoding [0, 0] 0 63), rfl, rfl, by decide, readerOk_fresh rfl, by decide⟩

theorem witness_StepRunsSymbolAfterLookup_unpopulated : ∃ s : State, s.hostMoves = [] ∧ s.phase = .decode ∧
    s.item.k < 64 ∧ s.ReaderOk ∧ (∀ tc th, ∀ f ∈ s.ht.get tc th, 1 ≤ f.len ∧ f.len ≤ 16) ∧ s.hasBits 16 ∧
    ((s.ht.get false true).entry (s.scan.bits s.consumed 16)).1 = 0 :=
  ⟨withTable false true [⟨0, 1, 1⟩] (decoding [0x80, 0] 4 0), rfl, rfl, by decide, readerOk_fresh rfl, by decide⟩

theorem witness_StepRunsSymbolAfterLookup_exhausted : ∃ s : State, s.hostMoves = [] ∧ s.phase = .decode ∧
    s.item.k < 64 ∧ s.ReaderOk ∧ (∀ tc th, ∀ f ∈ s.ht.get tc th, 1 ≤ f.len ∧ f.len ≤ 16) ∧ ¬s.hasBits 16 :=
  ⟨withTable true true [⟨0, 16, 1⟩] (decoding [0] 5 1), rfl, rfl, by decide, readerOk_fresh rfl, by decide⟩

theorem witness_StepRunsHostStart : ∃ (s : State) (v : Word) (rest : List HostMove),
    s.hostMoves = .writeReg 0x00 v :: rest ∧ v.getLsbD 0 = true := ⟨moving (.writeReg 0 1) State.reset, 1, [], by decide⟩

theorem witness_ParseStepWithoutMarker_end : ∃ s t : State,
    (s.hostMoves = [] ∧ s.phase = .parse ∧ s.inLenL.toNat ≤ s.pc.toNat ∧ s.scanDone = true) ∧
    (t.hostMoves = [] ∧ t.phase = .parse ∧ t.inLenL.toNat ≤ t.pc.toNat ∧ t.scanDone = false) :=
  ⟨{ parsing [] with scanDone := true }, parsing [], by decide⟩

theorem witness_ParseStepWithoutMarker_byte : ∃ s t : State,
    (s.hostMoves = [] ∧ s.phase = .parse ∧ s.pc.toNat < s.inLenL.toNat ∧ at_ s 0 ≠ 0xFF) ∧
    (t.hostMoves = [] ∧ t.phase = .parse ∧ t.pc.toNat + 1 = t.inLenL.toNat ∧ at_ t 0 = 0xFF) :=
  ⟨parsing [0xFE], parsing [0xFF], by decide⟩

theorem witness_HostResetFromAnyState : ∃ (s : State) (rest : List HostMove), s.hostMoves = .reset :: rest :=
  ⟨moving .reset (decoding [0] 0 5), [], rfl⟩

theorem witness_RegisterReads : ∃ (s : State) (off : Nat) (rest : List HostMove),
    s.hostMoves = .readReg off :: rest ∧ off % 4 = 0 ∧ off < 0x100 ∧ 0x30 ≤ off :=
  ⟨moving (.readReg 0xFC) State.reset, 0xFC, [], by decide⟩

theorem witness_RegisterWrites : ∃ (s : State) (off : Nat) (v : Word) (rest : List HostMove),
    s.hostMoves = .writeReg off v :: rest ∧ off % 4 = 0 ∧ off < 0x100 ∧ off = 0 ∧ v.getLsbD 0 = false :=
  ⟨moving (.writeReg 0 2) State.reset, 0, 2, [], by decide⟩

theorem witness_RegisterWrites_others : ∃ (s t : State) (v : Word) (rest : List HostMove),
    s.hostMoves = .writeReg 0x08 v :: rest ∧ t.hostMoves = .writeReg 0xFC v :: rest :=
  ⟨moving (.writeReg 8 2) State.reset, moving (.writeReg 0xFC 2) State.reset, 2, [], by decide⟩

theorem witness_HostMemoryMoves_in : ∃ (s t : State) (rest : List HostMove) (a : Nat) (b : Byte),
    (s.busy = false ∧ s.inMem.wf ∧ s.outMem.wf ∧ s.hostMoves = .writeIn a b :: rest ∧ a < s.params.inMemBytes) ∧
    (t.busy = false ∧ t.inMem.wf ∧ t.outMem.wf ∧ t.hostMoves = .readIn a :: rest ∧ a < t.params.inMemBytes) :=
  ⟨moving (.writeIn 65535 1) State.reset, moving (.readIn 65535) State.reset, [], 65535, 1, by decide⟩

theorem witness_HostMemoryMoves_out : ∃ (s t : State) (rest : List HostMove) (a : Nat) (b : Byte),
    (s.busy = false ∧ s.inMem.wf ∧ s.outMem.wf ∧ s.hostMoves = .writeOut a b :: rest ∧ a < s.params.outMemBytes) ∧
    (t.busy = false ∧ t.inMem.wf ∧ t.outMem.wf ∧ t.hostMoves = .readOut a :: rest ∧ a < t.params.outMemBytes) :=
  ⟨moving (.writeOut 1048575 1) State.reset, moving (.readOut 1048575) State.reset, [], 1048575, 1, by decide⟩

theorem witness_HostAccessOutsideInterfaceStops_busy : ∃ (s : State) (mv : HostMove) (rest : List HostMove) (a : Nat),
    s.hostMoves = mv :: rest ∧ s.busy = true ∧ mv = .readIn a :=
  ⟨moving (.readIn 0) (parsing [1]), .readIn 0, [], 0, by decide⟩

theorem witness_HostAccessOutsideInterfaceStops_capacity : ∃ (s : State) (mv : HostMove) (rest : List HostMove)
    (a : Nat) (b : Byte), s.hostMoves = mv :: rest ∧ s.busy = false ∧ mv = .writeOut a b ∧ s.params.outMemBytes ≤ a :=
  ⟨moving (.writeOut 1048576 0) State.reset, .writeOut 1048576 0, [], 1048576, 0, by decide⟩

theorem witness_HostAccessOutsideInterfaceStops_register : ∃ (s t : State) (mv mv' : HostMove) (rest : List HostMove),
    (s.hostMoves = mv :: rest ∧ mv = .readReg 0x100) ∧ (t.hostMoves = mv' :: rest ∧ mv' = .writeReg 0x0A 0) :=
  ⟨moving (.readReg 0x100) State.reset, moving (.writeReg 0x0A 0) State.reset, .readReg 0x100, .writeReg 0x0A 0, [],
    by decide⟩

theorem witness_StartClearsAndLatches : ∃ (s t : State) (v : Word),
    (s.busy = false ∧ v.getLsbD 0 = true ∧ s.regs.inLen.toNat ≤ s.params.inMemBytes) ∧
    (t.busy = false ∧ v.getLsbD 0 = true ∧ t.params.inMemBytes < t.regs.inLen.toNat) :=
  ⟨{ State.reset with regs := { HostRegs.zero with inLen := 65536 } },
    { State.reset with regs := { HostRegs.zero with inLen := 65537 } }, 3, by decide⟩

theorem witness_StartWhileBusyOnlyStoresBgr : ∃ s : State, s.busy = true := ⟨parsing [], rfl⟩

theorem witness_MarkerOrderCheck_soi : ∃ s t : State, (s.seenSoi = false ∧ hasCode .com 0xFE) ∧
    (t.seenSoi = true ∧ hasCode .soi 0xD8) := ⟨State.reset, parsing [], by decide⟩

theorem witness_MarkerOrderCheck_rejected : ∃ s : State, s.seenSoi = true ∧
    (hasCode (.unsupSof13to15 0xCF) 0xCF ∧ isUnsupported 0xCF = true) ∧
    (hasCode (.unknownRes 0xBF) 0xBF ∧ isUnknown 0xBF = true) := ⟨parsing [], by decide⟩

theorem witness_MarkerOrderCheck_frame : ∃ s t : State,
    (s.seenSoi = true ∧ s.seenSof = true ∧ s.scanDone = true ∧ hasCode .sof0 0xC0 ∧ hasCode .sos 0xDA ∧
      hasCode .dqt 0xDB ∧ hasCode .dht 0xC4) ∧
    (t.seenSoi = true ∧ t.seenSof = false ∧ t.scanDone = false ∧ hasCode .sos 0xDA ∧ hasCode .eoi 0xD9) :=
  ⟨decoding [0, 0] 0 0, parsing [], by decide⟩

theorem witness_SoiCompletes : ∃ s : State, s.seenSoi = false := ⟨State.reset, rfl⟩

theorem witness_SkippedSegmentsComplete : ∃ s : State, s.seenSoi = true ∧ headerFits s ∧ segLen s = 2 :=
  ⟨parsing [0xFF, 0xE0, 0, 2], by decide⟩

theorem witness_SegmentHeaderRejected : ∃ s t u : State,
    (hasCode .com 0xFE ∧ s.seenSoi = true ∧ ¬headerFits s ∧ segLen s = 1) ∧
    (hasCode .sos 0xDA ∧ t.seenSoi = true ∧ ¬headerFits t ∧ t.seenSof = true ∧ t.scanDone = false) ∧
    (hasCode .dqt 0xDB ∧ u.seenSoi = true ∧ ¬headerFits u ∧ u.scanDone = false ∧ u.inLenL = 3) :=
  ⟨parsing [0xFF, 0xFE, 0, 1], framed (parsing [0xFF, 0xDA, 0, 3]), parsing [0xFF, 0xDB, 0], by decide⟩

theorem witness_DqtLoadsTables : ∃ (s : State) (n : Nat), s.seenSoi = true ∧ s.scanDone = false ∧ headerFits s ∧
    segLen s = 2 + 65 * n ∧ (∀ j < n, (s.inMem.read (s.pc.toNat + 4 + 65 * j)).toNat < 4) ∧ n = 2 :=
  ⟨parsing (dqtSegment ((0 :: List.replicate 64 1) ++ 3 :: List.replicate 64 2)), 2, by decide +kernel⟩

theorem witness_DqtRejectsSpecification_precision : ∃ (s : State) (n : Nat), s.seenSoi = true ∧ s.scanDone = false ∧
    headerFits s ∧ s.pc.toNat + 4 + 65 * n < segEnd s ∧
    (∀ j < n, (s.inMem.read (s.pc.toNat + 4 + 65 * j)).toNat < 4) ∧
    (s.inMem.read (s.pc.toNat + 4 + 65 * n)).toNat = 16 ∧ n = 1 :=
  ⟨parsing (dqtSegment ((0 :: List.replicate 64 1) ++ [0x10])), 1, by decide +kernel⟩

theorem witness_DqtRejectsSpecification_slot : ∃ (s : State) (n : Nat), s.seenSoi = true ∧ s.scanDone = false ∧
    headerFits s ∧ s.pc.toNat + 4 + 65 * n < segEnd s ∧
    (∀ j < n, (s.inMem.read (s.pc.toNat + 4 + 65 * j)).toNat < 4) ∧
    (s.inMem.read (s.pc.toNat + 4 + 65 * n)).toNat = 4 ∧ n = 0 :=
  ⟨parsing (dqtSegment [4]), 0, by decide +kernel⟩

theorem witness_DqtRejectsSpecification_cut : ∃ (s : State) (n : Nat), s.seenSoi = true ∧ s.scanDone = false ∧
    headerFits s ∧ s.pc.toNat + 4 + 65 * n < segEnd s ∧
    (∀ j < n, (s.inMem.read (s.pc.toNat + 4 + 65 * j)).toNat < 4) ∧
    (s.inMem.read (s.pc.toNat + 4 + 65 * n)).toNat < 4 ∧ segEnd s < s.pc.toNat + 4 + 65 * n + 65 ∧ n = 0 :=
  ⟨parsing (dqtSegment (3 :: List.replicate 63 1)), 0, by decide +kernel⟩

/-- The specification of V-HUF-3 for the table (AC, 1). -/
def spec3 : DhtSpec := ⟨true, true, counts [0, 2, 1], [3, 4, 5]⟩

/-- The specification of V-HUF-7, whose third code does not fit. -/
def spec7 : DhtSpec := ⟨false, false, counts [3], [0, 1, 2]⟩

theorem spec3_good : ∀ d ∈ [spec3], d.complete ∧ d.fits := by decide +kernel

theorem witness_DhtBuildsTables : ∃ (s : State) (ds : List DhtSpec), s.seenSoi = true ∧ s.scanDone = false ∧
    headerFits s ∧ s.inBytes (s.pc.toNat + 4) (segLen s - 2) = ds.flatMap DhtSpec.bytes ∧
    (∀ d ∈ ds, d.complete ∧ d.fits) ∧ ds ≠ [] :=
  ⟨parsing (dhtSegment spec3.bytes), [spec3], by decide +kernel, by decide +kernel, by decide +kernel,
    by decide +kernel, spec3_good, by simp⟩

theorem witness_DhtRejectsSpecification_class : ∃ (s t : State) (ds : List DhtSpec),
    (s.seenSoi = true ∧ s.scanDone = false ∧ headerFits s ∧
      s.pc.toNat + 4 + (ds.flatMap DhtSpec.bytes).length < segEnd s ∧
      s.inBytes (s.pc.toNat + 4) (ds.flatMap DhtSpec.bytes).length = ds.flatMap DhtSpec.bytes ∧
      (s.inMem.read (s.pc.toNat + 4 + (ds.flatMap DhtSpec.bytes).length)).toNat = 32) ∧
    (t.seenSoi = true ∧ t.scanDone = false ∧ headerFits t ∧
      t.pc.toNat + 4 + (ds.flatMap DhtSpec.bytes).length < segEnd t ∧
      t.inBytes (t.pc.toNat + 4) (ds.flatMap DhtSpec.bytes).length = ds.flatMap DhtSpec.bytes ∧
      (t.inMem.read (t.pc.toNat + 4 + (ds.flatMap DhtSpec.bytes).length)).toNat = 2) ∧
    ∀ d ∈ ds, d.complete ∧ d.fits :=
  ⟨parsing (dhtSegment (spec3.bytes ++ [0x20])), parsing (dhtSegment (spec3.bytes ++ [0x02])), [spec3],
    by decide +kernel, by decide +kernel, spec3_good⟩

theorem witness_DhtRejectsSpecification_cut : ∃ s t : State,
    (s.seenSoi = true ∧ s.scanDone = false ∧ headerFits s ∧ s.pc.toNat + 4 < segEnd s ∧
      (s.inMem.read (s.pc.toNat + 4)).toNat < 32 ∧ (s.inMem.read (s.pc.toNat + 4)).toNat % 16 < 2 ∧
      segEnd s < s.pc.toNat + 4 + 17) ∧
    (t.seenSoi = true ∧ t.scanDone = false ∧ headerFits t ∧ t.pc.toNat + 4 < segEnd t ∧
      (t.inMem.read (t.pc.toNat + 4)).toNat < 32 ∧ (t.inMem.read (t.pc.toNat + 4)).toNat % 16 < 2 ∧
      segEnd t < t.pc.toNat + 4 + 17 + ((t.inBytes (t.pc.toNat + 4 + 1) 16).map (·.toNat)).sum) :=
  ⟨parsing (dhtSegment (0x11 :: List.replicate 15 0)), parsing (dhtSegment (0x11 :: counts [1])),
    by decide +kernel, by decide +kernel⟩

theorem witness_DhtRejectsSpecification_overflow : ∃ (s : State) (d : DhtSpec),
    s.seenSoi = true ∧ s.scanDone = false ∧ headerFits s ∧ s.pc.toNat + 4 < segEnd s ∧
    d.byte = s.inMem.read (s.pc.toNat + 4) ∧ d.complete ∧
    s.inBytes (s.pc.toNat + 4) (17 + d.symbols.length) = d.bytes ∧
    s.pc.toNat + 4 + 17 + d.symbols.length ≤ segEnd s ∧ ¬d.fits :=
  ⟨parsing (dhtSegment spec7.bytes), spec7, by decide +kernel⟩

theorem witness_Sof0CommitsFrame : ∃ s t : State,
    (s.seenSoi = true ∧ s.seenSof = false ∧ headerFits s ∧ firstFailure (sof0Checks s) = none ∧
      (frameCommitted s).regs.outLen.toNat ≤ s.params.outMemBytes) ∧
    (t.seenSoi = true ∧ t.seenSof = false ∧ headerFits t ∧ firstFailure (sof0Checks t) = none ∧
      t.params.outMemBytes < (frameCommitted t).regs.outLen.toNat) :=
  ⟨{ parsing sof16 with params := { Params.reference with outMemBytes := 768 } },
    { parsing sof16 with params := { Params.reference with outMemBytes := 767 } }, by decide +kernel, by decide +kernel⟩

theorem witness_Sof0ReportsFirstFailure : ∃ (s : State) (c : Check), s.seenSoi = true ∧ s.seenSof = false ∧
    headerFits s ∧ firstFailure (sof0Checks s) = some c ∧ c.off = 18 :=
  ⟨parsing (sof16.set 18 4), ⟨true, 1, 18, some 4⟩, by decide +kernel, by decide +kernel, by decide +kernel,
    by decide +kernel, rfl⟩

theorem witness_SosExtractsScan : ∃ (s : State) (data : List Byte) (n : Nat), s.seenSoi = true ∧ s.seenSof = true ∧
    s.scanDone = false ∧ headerFits s ∧ firstFailure (sosChecks s) = none ∧ s.inLenL.toNat ≤ s.params.inMemBytes ∧
    s.params.wf ∧ s.scan.wf ∧ s.scanLen = 0 ∧ destuffed (scanBytes s) = some (data, n) :=
  ⟨framed (parsing (sosSegment ++ [0x12, 0xFF, 0, 0x34, 0xFF, 0xD9])), [0x12, 0xFF, 0x34], 4, rfl, rfl, rfl,
    by decide +kernel, by decide +kernel, by decide +kernel, by decide +kernel, by decide +kernel, rfl, by decide +kernel⟩

theorem witness_SosReportsFirstFailure_field : ∃ (s : State) (c : Check), s.seenSoi = true ∧ s.seenSof = true ∧
    s.scanDone = false ∧ headerFits s ∧ firstFailure (sosChecks s) = some c ∧ c.off = 12 :=
  ⟨framed (parsing (sosSegment.set 12 62)), ⟨true, 2, 12, none⟩, rfl, rfl, rfl, by decide +kernel, by decide +kernel, rfl⟩

theorem witness_SosReportsFirstFailure_loneFF : ∃ s : State, s.seenSoi = true ∧ s.seenSof = true ∧
    s.scanDone = false ∧ headerFits s ∧ firstFailure (sosChecks s) = none ∧ s.inLenL.toNat ≤ s.params.inMemBytes ∧
    s.params.wf ∧ s.scan.wf ∧ s.scanLen = 0 ∧ destuffed (scanBytes s) = none :=
  ⟨framed (parsing (sosSegment ++ [0, 0xFF])), rfl, rfl, rfl, by decide +kernel, by decide +kernel, by decide +kernel,
    by decide +kernel, by decide +kernel, rfl, by decide +kernel⟩

theorem witness_ScanStuffAppendsOneByte : ∃ s : State, s.scanLen.toNat + 1 = s.params.scanMemBytes ∧ s.scan.wf ∧
    s.pc.toNat + 1 < s.inLenL.toNat ∧ at_ s 0 = 0xFF ∧ at_ s 1 = 0x00 :=
  ⟨{ parsing [0xFF, 0] with scanLen := 65537 }, by decide⟩

theorem witness_EoiBeginsPhase2 : ∃ s : State, s.seenSoi = true ∧ s.scanDone = true := ⟨decoding [] 0 0, by decide⟩

theorem witness_RejectedMarkersRaise : ∃ s : State, s.seenSoi = true := ⟨parsing [], rfl⟩

theorem witness_PeekGivesNextBits : ∃ s t : State, (s.ReaderOk ∧ s.hasBits 16) ∧ (t.ReaderOk ∧ ¬t.hasBits 1) :=
  ⟨decoding [0xA5, 0x0F] 0 0, decoding [] 0 0, ⟨readerOk_fresh rfl, by decide⟩, ⟨readerOk_fresh rfl, by decide⟩⟩

theorem witness_ReadAfterPeekAgrees : ∃ (s t : State) (v : Nat), s.ReaderOk ∧ peek 16 s = .ok v t :=
  ⟨decoding [0xA5, 0x0F] 0 0, _, _, readerOk_fresh rfl, rfl⟩

theorem witness_DcDiffAddsDifference : ∃ s t : State, (s.ReaderOk ∧ s.hasBits 11) ∧ (t.ReaderOk ∧ ¬t.hasBits 11) :=
  ⟨decoding [0xA5, 0x0F] 0 0, decoding [0xA5] 0 0, ⟨readerOk_fresh rfl, by decide⟩, ⟨readerOk_fresh rfl, by decide⟩⟩

theorem witness_AcCoefStoresAtZigzag : ∃ (s t u : State) (r : BitVec 4),
    (1 ≤ s.item.k ∧ s.ReaderOk ∧ s.item.k + r.toNat = 63 ∧ s.hasBits 10) ∧
    (1 ≤ t.item.k ∧ t.ReaderOk ∧ t.item.k + r.toNat = 63 ∧ ¬t.hasBits 10) ∧
    (1 ≤ u.item.k ∧ u.ReaderOk ∧ 63 < u.item.k + r.toNat) :=
  ⟨decoding [0xA5, 0x0F] 0 48, decoding [0xA5] 0 48, decoding [0xA5] 0 49, 15,
    ⟨by decide, readerOk_fresh rfl, by decide⟩, ⟨by decide, readerOk_fresh rfl, by decide⟩,
    ⟨by decide, readerOk_fresh rfl, by decide⟩⟩

theorem witness_EobAndZrlMoveSpectralIndex : ∃ s t : State, s.item.k + 16 ≤ 64 ∧ 1 ≤ t.item.k ∧ 64 < t.item.k + 16 :=
  ⟨decoding [] 0 48, decoding [] 0 49, by decide⟩

theorem witness_InvalidSymbolsAreCorrupt : ∃ s t : State, s.item.k = 0 ∧ 1 ≤ t.item.k :=
  ⟨decoding [] 0 0, decoding [] 0 1, by decide⟩

theorem witness_DequantizeScalesExactly : ∃ (s : State) (b : Fin 6) (t : Fin 4),
    (s.fh.tq[component b]).toNat = t.val ∧ ∀ i : Fin 64, ((s.blk[b])[i]).toInt.natAbs < 2 ^ 37 :=
  ⟨decoding [] 0 0, 5, 1, by decide +kernel⟩

theorem witness_IdctIsExactlyRounded : ∃ (s : State) (b : Fin 6), ∀ i : Fin 64, ((s.blk[b])[i]).toInt.natAbs < 2 ^ 45 :=
  ⟨decoding [] 0 0, 5, by decide +kernel⟩

theorem witness_IdctOfDcOnlyBlock : ∃ d : S64, d.toInt.natAbs + 1 = 2 ^ 45 := ⟨BitVec.ofNat 64 (2 ^ 45 - 1), by decide⟩

theorem witness_IdctSymmetries : ∃ b b' : Block, (∀ i : Fin 64, b[i].toInt.natAbs < 2 ^ 45) ∧
    (∀ y x : Fin 8, cell b' y x = -cell b y x) ∧ b ≠ b' :=
  ⟨(Vector.replicate 64 0).set 1 100, (Vector.replicate 64 0).set 1 (-100), by decide +kernel⟩

theorem witness_IdctSymmetries_transpose : ∃ b b' : Block, (∀ i : Fin 64, b[i].toInt.natAbs < 2 ^ 45) ∧
    (∀ y x : Fin 8, cell b' y x = cell b x y) ∧ b ≠ b' :=
  ⟨(Vector.replicate 64 0).set 1 100, (Vector.replicate 64 0).set 8 100, by decide +kernel⟩

theorem witness_ColorConvertPlacesPixels : ∃ (s : State) (mx my : Nat), s.outMem.wf ∧
    48 * (mx + 1) ≤ s.regs.stride.toNat ∧ 16 * (my + 1) * s.regs.stride.toNat ≤ s.regs.outLen.toNat ∧
    s.regs.outLen.toNat ≤ s.params.outMemBytes := ⟨decoding [] 5 64, 0, 0, by decide⟩

/-! ### The invariant -/

/-- The smallest capacities the parameters may have. -/
theorem witness_ResetMeetsInvariant : ∃ p : Params, p.wf ∧ p.inMemBytes = 2 ∧ p.outMemBytes = 768 :=
  ⟨⟨2, 768, 0, 0x100, 0x102⟩, by decide⟩

theorem decoding_slots : ∀ i : Fin 3, ((decoding [0, 0] 0 0).fh.tq[i]).toNat ≤ 3 := by decide

theorem decoding_loaded : ∀ i : Fin 3, (decoding [0, 0] 0 0).slotLoaded (decoding [0, 0] 0 0).fh.tq[i] = true := by decide

/-- A decode in progress, whatever its block, meets the invariant of the inside of a step. -/
theorem decoding_itemInv (b : Fin 6) (k : Nat) (hk : k ≤ 64) : (decoding [0, 0] b k).ItemInv where
  params := (by decide : Params.reference.wf)
  inMem := (by decide : Memory.wf [] ∧ Memory.below 65536 [])
  outMem := (by decide : Memory.wf [] ∧ Memory.below 1048576 [])
  scan := (by decide : Memory.wf [] ∧ Memory.below 65538 [])
  scanLen := (by decide : (decoding [0, 0] 0 0).scanLen.toNat ≤ Params.reference.scanMemBytes)
  reader := readerOk_fresh rfl
  tables := (by decide : ∀ tc th, (HuffStore.zero.get tc th).wf)
  itemK := hk
  itemRest := fun h => absurd rfl h
  errSet := nofun
  errClear := fun _ => rfl
  sofAfterSoi := fun _ => rfl
  scanAfterSof := fun _ => rfl
  frame := fun _ =>
    { precision := rfl, height := (by decide : (16 : Half) ≠ 0), width := (by decide : (16 : Half) ≠ 0)
      components := rfl, sampling := rfl
      slots := decoding_slots
      cols := (by decide : (1 : Half).toNat = ceil16 (16 : Half).toNat)
      rows := (by decide : (1 : Half).toNat = ceil16 (16 : Half).toNat), widthReg := rfl, heightReg := rfl, strideReg := (by decide : (48 : Word).toNat = strideOf 1)
      outLenReg := (by decide : (768 : BitVec 64).toNat = outLenOf 1 1) }
  slotsLoaded := fun _ => decoding_loaded
  input := fun _ => (by decide : (0 : Word).toNat ≤ 65536 ∧ (0 : Word).toNat ≤ (0 : Word).toNat)
  output := fun _ _ => (by decide : (768 : BitVec 64).toNat ≤ Params.reference.outMemBytes)
  scanEmpty := nofun
  decoding := fun _ =>
    ⟨rfl, (by decide : (0 : Half).toNat < (1 : Half).toNat), (by decide : (0 : Half).toNat < (1 : Half).toNat)⟩

/-- A decode at the start of a macroblock meets the invariant. -/
theorem decoding_inv : (decoding [0, 0] 0 0).Inv where
  toItemInv := decoding_itemInv _ _ (by decide)
  itemStart := rfl

theorem witness_PixelGridCoversOutputOnce : ∃ s : State, FrameOk s := ⟨decoding [0, 0] 0 0, decoding_inv.frame rfl⟩

theorem witness_CompleteBlockStep : ∃ s t : State,
    (s.ItemInv ∧ s.phase = .decode ∧ s.item.k = 64 ∧ (5 : Fin 6).val = s.item.blk.val + 1) ∧
    (t.ItemInv ∧ t.phase = .decode ∧ t.item.k = 64 ∧ t.item.blk.val = 5) :=
  ⟨decoding [0, 0] 4 64, decoding [0, 0] 5 64, ⟨decoding_itemInv _ _ (by decide), rfl, rfl, rfl⟩,
    ⟨decoding_itemInv _ _ (by decide), rfl, rfl, rfl⟩⟩

/-- The predictors of a scan that has decoded nothing are within their bound. -/
theorem decoding_predictors (b : Fin 6) (k : Nat) : (decoding [0, 0] b k).predictorsBounded := by
  intro _ c
  have : (decoding [0, 0] b k).pred[c].toInt.natAbs = 0 := by
    show (predZero[c]).toInt.natAbs = 0
    revert c; decide
  omega

/-- A DECODE step, which an unpopulated table ends in ERROR: the hypotheses of the statements about every step. -/
theorem witness_StepKeepsInvariant : ∃ s t : State, s.Inv ∧ s.hostMoves = [] ∧ s.phase = .decode ∧
    s.predictorsBounded ∧ step s = .next t :=
  ⟨decoding [0, 0] 0 0, _, decoding_inv, rfl, rfl, decoding_predictors _ _, rfl⟩

/-- A part of a macroblock: the hypotheses of the statements about every part. -/
theorem witness_StepKeepsInvariant_part : ∃ s t : State, s.ItemInv ∧ s.phase = .decode ∧ s.predictorsBounded ∧
    itemStep s = .next t ∧ (1 : Fin 3) ≠ component s.item.blk :=
  ⟨decoding [0, 0] 5 63, _, decoding_itemInv _ _ (by decide), rfl, decoding_predictors _ _, rfl, by decide⟩

theorem witness_InvariantExcludesFaults : ∃ s : State, s.Inv ∧ s.hostMoves = [] ∧ s.phase = .decode :=
  ⟨decoding [0, 0] 0 0, decoding_inv, rfl, rfl⟩

theorem witness_PredictorsStayBounded : ∃ s t : State, s.Inv ∧ s.predictorsBounded ∧ step s = .next t :=
  witness_StepKeepsInvariant.elim fun s h => h.elim fun t h => ⟨s, t, h.1, h.2.2.2.1, h.2.2.2.2⟩

theorem witness_EngineStepFrame : ∃ s t : State, s.hostMoves = [] ∧ step s = .next t :=
  ⟨decoding [0, 0] 0 0, _, rfl, rfl⟩

theorem witness_AcceptedDataStays : ∃ s t : State, s.hostMoves = [] ∧ step s = .next t ∧ s.seenSof = true ∧
    s.scanDone = true := ⟨decoding [0, 0] 0 0, _, rfl, rfl, rfl, rfl⟩

theorem witness_PhaseMoves_engine : ∃ s t : State, step s = .next t ∧ s.hostMoves = [] ∧ s.phase = .decode :=
  ⟨decoding [0, 0] 0 0, _, rfl, rfl, rfl⟩

theorem witness_PhaseMoves_parse : ∃ s t : State, step s = .next t ∧ s.hostMoves = [] ∧ s.phase = .parse :=
  ⟨parsing [], _, rfl, rfl, rfl⟩

theorem witness_PhaseMoves_host : ∃ (s t : State) (mv : HostMove) (rest : List HostMove),
    step s = .next t ∧ s.hostMoves = mv :: rest ∧ mv ≠ .engine ∧ t.phase = .parse :=
  ⟨moving (.writeReg 0 1) State.reset, _, .writeReg 0 1, [], rfl, rfl, by decide, rfl⟩

theorem witness_HostMovesDoNotDisturbDecode : ∃ (s t : State) (mv : HostMove) (rest : List HostMove) (off : Nat)
    (v : Word), (s.busy = true ∧ s.hostMoves = mv :: rest ∧ mv = .writeReg off v ∧ off % 4 = 0 ∧ off < 0x100) ∧
    (t.busy = true ∧ t.hostMoves = []) :=
  ⟨moving (.writeReg 0 1) (decoding [0] 0 0), decoding [0] 0 0, .writeReg 0 1, [], 0, 1, by decide, by decide⟩

theorem witness_HostMovesDoNotDisturbDecode_yield : ∃ (s t : State) (rest : List HostMove),
    (s.hostMoves = .engine :: rest ∧ s.busy = true) ∧ (t.hostMoves = .engine :: rest ∧ t.busy = false) ∧ rest ≠ [] :=
  ⟨{ decoding [0] 0 0 with hostMoves := [.engine, .reset] }, { State.reset with hostMoves := [.engine, .reset] },
    [.reset], by decide⟩

theorem witness_EveryDecodeEnds : ∃ s : State, s.Inv ∧ s.busy = true ∧ s.hostMoves = [] :=
  ⟨decoding [0, 0] 0 0, decoding_inv, rfl, rfl⟩

theorem witness_MacroStepEndsAtBoundary : ∃ s : State, s.Inv ∧ s.hostMoves = [] ∧ s.phase = .decode :=
  ⟨decoding [0, 0] 0 0, decoding_inv, rfl, rfl⟩

end Sys2Proof.Tests
end

section
/-! SUPPORT. What an operation can have written when it ends, by going on or by raising: a rule for each shared operation
and for sequencing. Nothing is said of an operation that stops at a forbidden access, which answers no next state. -/

namespace Sys2Proof.Machine

variable {α β : Type}

/-! ## What may hold after a part -/

/-- `Q` holds where `e` goes on, `R` where it raises. -/
def Eff.May (e : Eff α) (Q : α → State → Prop) (R : State → Prop) : Prop :=
  match e with
  | .ok a s => Q a s
  | .raised s => R s
  | .stop _ => True

section may
variable {e : Eff α} {f : α → State → Eff β} {Q Q₂ : α → State → Prop} {Q' : β → State → Prop} {R R₂ : State → Prop}

theorem Eff.May.bind (h : e.May Q R) (hf : ∀ a s, Q a s → (f a s).May Q' R) : (e.bind f).May Q' R := by
  cases e with
  | ok a s => exact hf a s h
  | raised s => exact h
  | stop r => trivial

theorem Eff.May.mono (h : e.May Q R) (hQ : ∀ a s, Q a s → Q₂ a s) (hR : ∀ s, R s → R₂ s) : e.May Q₂ R₂ := by
  cases e with
  | ok a s => exact hQ a s h
  | raised s => exact hR s h
  | stop r => trivial

/-- The next state of an instruction is one its operation may end in. -/
theorem Eff.May.of_next {e : Eff Unit} {P : State → Prop} {t : State} (h : e.May (fun _ => P) P)
    (ht : e.outcome = .next t) : P t := by
  rcases Eff.outcome_eq_next.1 ht with rfl | rfl
  · exact h
  · exact h

/-- A loop over a list keeps what its body keeps. -/
theorem Eff.may_forEach {ι : Type} {body : ι → State → Eff Unit} {P : State → Prop}
    (h : ∀ x s, P s → (body x s).May (fun _ => P) R) :
    ∀ (xs : List ι) (s : State), P s → (Eff.forEach body xs s).May (fun _ => P) R
  | [], _, hs => hs
  | x :: xs, s, hs => (h x s hs).bind fun _ t ht => Eff.may_forEach h xs t ht

end may

/-! ## The writes of a part -/

/-- `D s t`, "`t` is `s` after some of these writes", allows no write and any two in a row. -/
structure WriteSet (D : State → State → Prop) : Prop where
  refl : ∀ s, D s s
  trans : ∀ {s t u}, D s t → D t u → D s u

/-- `t` is the raise of an error after some of the writes `D`. -/
def RaisedAfter (D : State → State → Prop) (s t : State) : Prop :=
  ∃ u, D s u ∧ ∃ k o m b, t = u.raise k o m b

/-- `e`, begun in `s`, does some of the writes `D`, up to its end or its raise; where it goes on its value meets `Q`. -/
def Eff.Writes (D : State → State → Prop) (e : Eff α) (s : State) (Q : α → Prop) : Prop :=
  e.May (fun a t => D s t ∧ Q a) (RaisedAfter D s)

section writes
variable {D : State → State → Prop} (hD : WriteSet D) {e : Eff α} {f : α → State → Eff β} {s : State} {Q : α → Prop}
  {Q' : β → Prop}

include hD

theorem Eff.Writes.ok {a : α} (h : Q a) : (Eff.ok a s).Writes D s Q := ⟨hD.refl s, h⟩

theorem Eff.Writes.raised (k : ErrKind) (o : Nat) (m : Byte) (b : Option Byte) :
    (Eff.raised (s.raise k o m b) : Eff α).Writes D s Q := ⟨s, hD.refl s, k, o, m, b, rfl⟩

/-- The writes of `e` begun after some writes. -/
theorem Eff.Writes.after {t : State} (hst : D s t) (h : e.Writes D t Q) : e.Writes D s Q :=
  Eff.May.mono h (fun _ _ ⟨h, ha⟩ => ⟨hD.trans hst h, ha⟩) fun _ ⟨v, hv, h⟩ => ⟨v, hD.trans hst hv, h⟩

theorem Eff.Writes.bind (h : e.Writes D s Q) (hf : ∀ a t, D s t → Q a → (f a t).Writes D t Q') :
    (e.bind f).Writes D s Q' :=
  Eff.May.bind h fun a t ⟨hst, ha⟩ => Eff.Writes.after hD hst (hf a t hst ha)

theorem Eff.Writes.raiseIf {c : Prop} [Decidable c] {k : ErrKind} {o : Nat} {m : Byte} {b : Option Byte}
    {f : Unit → State → Eff β} (hf : ¬c → (f () s).Writes D s Q') :
    ((Machine.raiseIf c k o m b s).bind f).Writes D s Q' := by
  by_cases h : c
  · rw [raiseIf_true h]; exact .raised hD k o m b
  · rw [raiseIf_false h]; exact hf h

theorem Eff.Writes.forEach {ι : Type} {body : ι → State → Eff Unit}
    (h : ∀ x s, (body x s).Writes D s fun _ => True) :
    ∀ (xs : List ι) (s : State), (Eff.forEach body xs s).Writes D s fun _ => True
  | [], _ => .ok hD trivial
  | x :: xs, s => .bind hD (h x s) fun _ t _ _ => Eff.Writes.forEach h xs t

theorem Eff.Writes.segWhile {g : Seg} {body : State → Eff Unit} (h : ∀ s, (body s).Writes D s fun _ => True) :
    ∀ (fuel : Nat) (s : State), (segWhile g body fuel s).Writes D s fun _ => True
  | 0, _ => .ok hD trivial
  | fuel + 1, s => by
    rw [Machine.segWhile]
    split
    · exact .bind hD (h s) fun _ t _ _ => Eff.Writes.segWhile h fuel t
    · exact .ok hD trivial

end writes

section
variable {D : State → State → Prop} {e : Eff α} {s : State} {Q : α → Prop}

theorem Eff.Writes.step {a : α} {t : State} (h : D s t) (ha : Q a) : (Eff.ok a t).Writes D s Q := ⟨h, ha⟩

theorem Eff.Writes.mono {D₂ : State → State → Prop} {Q₂ : α → Prop} (h : e.Writes D s Q)
    (hD : ∀ t, D s t → D₂ s t) (hQ : ∀ a, Q a → Q₂ a) : e.Writes D₂ s Q₂ :=
  Eff.May.mono h (fun a t ⟨h, ha⟩ => ⟨hD t h, hQ a ha⟩) fun _ ⟨u, hu, h⟩ => ⟨u, hD u hu, h⟩

theorem Eff.Writes.memRead {a n : Nat} {f : Nat → State → Eff β} {Q' : β → Prop}
    (hf : a + n ≤ s.inLenL.toNat → (f (s.inMem.readBE a n) s).Writes D s Q') :
    ((Machine.memRead a n s).bind f).Writes D s Q' := by
  unfold Machine.memRead
  split
  · exact hf ‹_›
  · trivial

end

end Sys2Proof.Machine
end

section
/-! SUPPORT. The segments of the container: what their fields and specifications write. -/

namespace Sys2Proof.Machine

/-! ## Fields: the cursor -/

/-- The cursor `q` is `p`, or it has moved up to `lim`. -/
def CursorTo (lim : Nat) (p q : Word) : Prop := q = p ∨ q.toNat ≤ lim

theorem CursorTo.trans {lim : Nat} {p q r : Word} (h : CursorTo lim p q) (h' : CursorTo lim q r) :
    CursorTo lim p r := by
  rcases h' with rfl | h'
  · exact h
  · exact .inr h'

theorem CursorTo.mono {lim lim' : Nat} {p q : Word} (h : CursorTo lim p q) (hl : lim ≤ lim') : CursorTo lim' p q :=
  h.imp id fun h => h.trans hl

theorem CursorTo.le {lim : Nat} {p q : Word} (h : CursorTo lim p q) (hp : p.toNat ≤ lim) : q.toNat ≤ lim := by
  rcases h with rfl | h
  · exact hp
  · exact h

/-- `t` is `s` with the cursor moved. -/
def Moved (lim : Nat) (s t : State) : Prop := ∃ pc : Word, t = { s with pc := pc } ∧ CursorTo lim s.pc pc

theorem moved_writeSet (lim : Nat) : WriteSet (Moved lim) where
  refl s := ⟨s.pc, rfl, .inl rfl⟩
  trans := by
    rintro s _ _ ⟨p, rfl, hp⟩ ⟨q, rfl, hq⟩
    exact ⟨q, rfl, hp.trans hq⟩

theorem Moved.mono {lim lim' : Nat} {s t : State} (h : Moved lim s t) (hl : lim ≤ lim') : Moved lim' s t := by
  obtain ⟨pc, rfl, hp⟩ := h
  exact ⟨pc, rfl, hp.mono hl⟩

theorem Word.toNat_ofNat_le (n : Nat) : (BitVec.ofNat 32 n).toNat ≤ n := by
  rw [BitVec.toNat_ofNat]; exact Nat.mod_le _ _

section fields
variable (g : Seg) (s : State)

theorem segField_writes (n : Nat) : (segField g n s).Writes (Moved g.segEnd) s fun _ => True := by
  unfold segField
  refine .raiseIf (moved_writeSet _) fun hc => .memRead fun _ => .step ⟨_, rfl, .inr ?_⟩ trivial
  exact (Word.toNat_ofNat_le _).trans (Nat.le_of_not_lt hc)

theorem segByte_writes : (segByte g s).Writes (Moved g.segEnd) s fun _ => True :=
  .bind (moved_writeSet _) (segField_writes g s 1) fun _ _ _ _ => .ok (moved_writeSet _) trivial

theorem segHalf_writes : (segHalf g s).Writes (Moved g.segEnd) s fun _ => True :=
  .bind (moved_writeSet _) (segField_writes g s 2) fun _ _ _ _ => .ok (moved_writeSet _) trivial

theorem segBytes_writes : ∀ (n : Nat) (s : State), (segBytes g n s).Writes (Moved g.segEnd) s fun _ => True
  | 0, _ => .ok (moved_writeSet _) trivial
  | n + 1, s =>
    .bind (moved_writeSet _) (segByte_writes g s) fun _ t _ _ =>
      .bind (moved_writeSet _) (segBytes_writes n t) fun _ _ _ _ => .ok (moved_writeSet _) trivial

end fields

/-! ## The frame header -/

/-- The values SOF0 accepts (42 R440). -/
structure FrameHeader.Accepted (fh : FrameHeader) : Prop where
  precision : fh.p = 8
  height : fh.y ≠ 0
  width : fh.x ≠ 0
  components : fh.nf = 3
  sampling : fh.hv = #v[0x22, 0x11, 0x11]
  slots : ∀ i : Fin 3, fh.tq[i].toNat ≤ 3

theorem sofComponent_writes (g : Seg) (i : Nat) (s : State) :
    (sofComponent g i s).Writes (Moved g.segEnd) s fun x => x.2.1 = samplingByte i ∧ x.2.2.toNat ≤ 3 := by
  have hD := moved_writeSet g.segEnd
  unfold sofComponent
  refine .bind hD (segByte_writes g s) fun _ s _ _ => .bind hD (segByte_writes g s) fun hv s _ _ => ?_
  refine .raiseIf hD fun hhv => .bind hD (segByte_writes g s) fun tq s _ _ => .raiseIf hD fun htq => ?_
  exact .ok hD ⟨not_not.1 hhv, Nat.le_of_not_lt htq⟩

theorem sofFields_writes (g : Seg) (s : State) :
    (sofFields g s).Writes (Moved g.segEnd) s FrameHeader.Accepted := by
  have hD := moved_writeSet g.segEnd
  unfold sofFields
  refine .bind hD (segByte_writes g s) fun p s _ _ => .raiseIf hD fun hp => ?_
  refine .bind hD (segHalf_writes g s) fun y s _ _ => .raiseIf hD fun hy => ?_
  refine .bind hD (segHalf_writes g s) fun x s _ _ => .raiseIf hD fun hx => ?_
  refine .bind hD (segByte_writes g s) fun nf s _ _ => .raiseIf hD fun hnf => .raiseIf hD fun _ => ?_
  refine .bind hD (sofComponent_writes g 0 s) fun a s _ ha => ?_
  refine .bind hD (sofComponent_writes g 1 s) fun b s _ hb => ?_
  refine .bind hD (sofComponent_writes g 2 s) fun c s _ hc => .ok hD ?_
  refine ⟨not_not.1 hp, hy, hx, not_not.1 hnf, ?_, ?_⟩
  · simp only [ha.1, hb.1, hc.1]; rfl
  · intro i
    match i with
    | 0 => exact ha.2
    | 1 => exact hb.2
    | 2 => exact hc.2

/-! ## The scan header -/

/-- Every slot the frame header names is loaded. -/
def State.slotsReady (s : State) : Prop := ∀ i : Fin 3, s.slotLoaded s.fh.tq[i] = true

theorem Moved.slotsReady {lim : Nat} {s t : State} (h : Moved lim s t) : t.slotsReady ↔ s.slotsReady := by
  obtain ⟨_, rfl, _⟩ := h; rfl

theorem sosComponent_writes (g : Seg) (i : Fin 3) (s : State) :
    (sosComponent g i s).Writes (Moved g.segEnd) s fun _ => True := by
  have hD := moved_writeSet g.segEnd
  unfold sosComponent
  refine .bind hD (segByte_writes g s) fun _ s _ _ => .raiseIf hD fun _ => ?_
  exact .bind hD (segByte_writes g s) fun _ s _ _ => .raiseIf hD fun _ => .ok hD trivial

/-- The loaded-slot checks change nothing and pass only where every slot is loaded. -/
theorem checkSlots_writes (g : Seg) (lim : Nat) (s : State) :
    (Eff.forEach (checkSlot g) (List.finRange 3) s).Writes (Moved lim) s fun _ => s.slotsReady := by
  have hD := moved_writeSet lim
  refine .raiseIf hD fun h0 => .raiseIf hD fun h1 => .raiseIf hD fun h2 => .ok hD fun i => ?_
  match i with
  | 0 => exact eq_true_of_ne_false h0
  | 1 => exact eq_true_of_ne_false h1
  | 2 => exact eq_true_of_ne_false h2

theorem sosFields_writes (g : Seg) (s : State) :
    (sosFields g s).Writes (Moved g.segEnd) s fun _ => s.slotsReady := by
  have hD := moved_writeSet g.segEnd
  unfold sosFields
  refine .bind hD (segByte_writes g s) fun _ s h1 _ => .raiseIf hD fun _ => .raiseIf hD fun _ => ?_
  refine .bind hD (sosComponent_writes g 0 s) fun _ s h2 _ => .bind hD (sosComponent_writes g 1 s) fun _ s h3 _ => ?_
  refine .bind hD (sosComponent_writes g 2 s) fun _ s h4 _ => ?_
  refine .bind hD (segByte_writes g s) fun _ s h5 _ => .raiseIf hD fun _ => ?_
  refine .bind hD (segByte_writes g s) fun _ s h6 _ => .raiseIf hD fun _ => ?_
  refine .bind hD (segByte_writes g s) fun _ s h7 _ => ?_
  refine .bind hD (checkSlots_writes g _ s) fun _ _ _ h => .ok hD ?_
  rwa [h7.slotsReady, h6.slotsReady, h5.slotsReady, h4.slotsReady, h3.slotsReady, h2.slotsReady, h1.slotsReady] at h

/-! ## Table segments -/

/-- The four lookup tables are well-formed (43 R505). -/
def HuffStore.wf (h : HuffStore) : Prop := ∀ tc th, (h.get tc th).wf

theorem HuffStore.zero_wf : HuffStore.zero.wf := fun tc th => by
  rw [HuffStore.get_zero]; exact ⟨by simp, List.Pairwise.nil⟩

theorem HuffStore.set_wf {h : HuffStore} {t : HuffTable} (tc th : Bool) (ht : t.wf) (hh : h.wf) :
    (h.set tc th t).wf := fun tc' th' => by
  by_cases he : (tc, th) = (tc', th')
  · cases he; rwa [HuffStore.get_set]
  · rw [HuffStore.get_set_other _ _ _ _ _ _ he]; exact hh tc' th'

/-- `t` is `s` after tables were loaded: the cursor as in `Moved`, the lookup tables well-formed if they were. -/
def Loaded (lim : Nat) (s t : State) : Prop :=
  ∃ (pc : Word) (q : QuantStore) (h : HuffStore), t = { s with pc := pc, qt := q, ht := h } ∧
    CursorTo lim s.pc pc ∧ (s.ht.wf → h.wf)

theorem loaded_writeSet (lim : Nat) : WriteSet (Loaded lim) where
  refl s := ⟨s.pc, s.qt, s.ht, rfl, .inl rfl, id⟩
  trans := by
    rintro s _ _ ⟨_, _, _, rfl, hp, hh⟩ ⟨pc, q, h, rfl, hp', hh'⟩
    exact ⟨pc, q, h, rfl, hp.trans hp', hh' ∘ hh⟩

theorem Moved.loaded {lim : Nat} {s t : State} (h : Moved lim s t) : Loaded lim s t := by
  obtain ⟨pc, rfl, hp⟩ := h
  exact ⟨pc, s.qt, s.ht, rfl, hp, id⟩

theorem Loaded.mono {lim lim' : Nat} {s t : State} (h : Loaded lim s t) (hl : lim ≤ lim') : Loaded lim' s t := by
  obtain ⟨pc, q, h, rfl, hp, hh⟩ := h
  exact ⟨pc, q, h, rfl, hp.mono hl, hh⟩

theorem Loaded.quant (lim : Nat) (s : State) (q : QuantStore) : Loaded lim s { s with qt := q } :=
  ⟨s.pc, q, s.ht, rfl, .inl rfl, id⟩

theorem Eff.Writes.loaded {α : Type} {lim : Nat} {e : Eff α} {s : State} {Q : α → Prop} (h : e.Writes (Moved lim) s Q) :
    e.Writes (Loaded lim) s Q := h.mono (fun _ h => h.loaded) fun _ h => h

theorem dqtValues_writes (g : Seg) (slot : Fin 4) (s : State) :
    (dqtValues g slot s).Writes (Loaded g.segEnd) s fun _ => True :=
  have hD := loaded_writeSet g.segEnd
  .forEach hD (fun _ s => .bind hD (segByte_writes g s).loaded fun _ _ _ _ => .step (Loaded.quant _ _ _) trivial) _ s

theorem dqtSpec_writes (g : Seg) (s : State) : (dqtSpec g s).Writes (Loaded g.segEnd) s fun _ => True := by
  have hD := loaded_writeSet g.segEnd
  refine .bind hD (segByte_writes g s).loaded fun _ s _ _ => .raiseIf hD fun _ => .raiseIf hD fun _ => ?_
  exact .bind hD (dqtValues_writes g _ s) fun _ _ _ _ => .step (Loaded.quant _ _ _) trivial

/-- `build_table` leaves a well-formed table, an overflow included. -/
theorem buildTable_writes (tc th : Bool) (cnt v : List Byte) (spos lim : Nat) (s : State) :
    (buildTable tc th cnt v spos s).Writes (Loaded lim) s fun _ => True := by
  have hl : Loaded lim s { s with ht := s.ht.set tc th (buildFrom cnt v).tbl } :=
    ⟨s.pc, s.qt, _, rfl, .inl rfl, HuffStore.set_wf tc th (buildFrom_wf cnt v)⟩
  unfold buildTable
  by_cases ho : (buildFrom cnt v).overflow = true
  · rw [raiseIf_true ho]; exact ⟨_, hl, _, _, _, _, rfl⟩
  · rw [raiseIf_false ho]; exact ⟨hl, trivial⟩

theorem dhtSpec_writes (g : Seg) (s : State) : (dhtSpec g s).Writes (Loaded g.segEnd) s fun _ => True := by
  have hD := loaded_writeSet g.segEnd
  refine .bind hD (segByte_writes g s).loaded fun _ s _ _ => .raiseIf hD fun _ => .raiseIf hD fun _ => ?_
  refine .bind hD (segBytes_writes g _ s).loaded fun _ s _ _ => ?_
  exact .bind hD (segBytes_writes g _ s).loaded fun _ s _ _ => buildTable_writes _ _ _ _ _ _ s

end Sys2Proof.Machine
end

section
/-! SUPPORT. What a PARSE step can do. -/

namespace Sys2Proof.Machine

/-! ## The segment header and the extraction -/

/-- The segment that `seg_header()` accepts ends inside the input (42 R425). -/
theorem segHeader_writes (m : Byte) (s : State) :
    (segHeader m s).Writes (Moved s.inLenL.toNat) s fun g => g.segEnd ≤ s.inLenL.toNat := by
  have hD := moved_writeSet s.inLenL.toNat
  refine .raiseIf hD fun h4 => .memRead fun _ => .raiseIf hD fun _ => .raiseIf hD fun he => ?_
  exact .step ⟨_, rfl, .inr ((Word.toNat_ofNat_le _).trans (by omega))⟩ (by simp only; omega)

/-- `m'` is canonical and below `n` if `m` is. -/
def Memory.Keeps (n : Nat) (m m' : Memory) : Prop := m.wf ∧ m.below n → m'.wf ∧ m'.below n

theorem Memory.Keeps.refl (n : Nat) (m : Memory) : m.Keeps n m := id

theorem Memory.Keeps.trans {n : Nat} {m m' m'' : Memory} (h : m.Keeps n m') (h' : m'.Keeps n m'') :
    m.Keeps n m'' := h' ∘ h

theorem Memory.Keeps.write {n a : Nat} (m : Memory) (v : Byte) (ha : a < n) : m.Keeps n (m.write a v) :=
  fun h => ⟨m.write_wf a v h.1, Memory.write_below v h.2 ha⟩

/-- `t` is `s` after bytes of the input were appended to SCAN. -/
def Appended (s t : State) : Prop :=
  ∃ (pc : Word) (m : Memory) (n : Word), t = { s with pc := pc, scan := m, scanLen := n } ∧
    CursorTo s.inLenL.toNat s.pc pc ∧ s.scan.Keeps s.params.scanMemBytes m ∧
    (s.scanLen.toNat ≤ s.params.scanMemBytes → n.toNat ≤ s.params.scanMemBytes)

theorem appended_writeSet : WriteSet Appended where
  refl s := ⟨s.pc, s.scan, s.scanLen, rfl, .inl rfl, .refl _ _, id⟩
  trans := by
    rintro s _ _ ⟨_, _, _, rfl, hp, hm, hn⟩ ⟨pc, m, n, rfl, hp', hm', hn'⟩
    exact ⟨pc, m, n, rfl, hp.trans hp', hm.trans hm', hn' ∘ hn⟩

/-- One byte appended, and the cursor moved. -/
theorem Appended.byte {s : State} (b : Byte) {pc : Word} (hc : s.scanLen.toNat < s.params.scanMemBytes)
    (hp : CursorTo s.inLenL.toNat s.pc pc) :
    Appended s { s with pc := pc, scan := s.scan.write s.scanLen.toNat b, scanLen := s.scanLen + 1 } := by
  refine ⟨pc, _, _, rfl, hp, .write _ _ hc, fun _ => ?_⟩
  have h1 : (1 : Word).toNat = 1 := rfl
  have := Nat.mod_le (s.scanLen.toNat + 1) (2 ^ 32)
  rw [BitVec.toNat_add, h1]; omega

theorem Eff.Writes.scanAppend {D : State → State → Prop} {β : Type} {b : Byte} {s : State} {f : Unit → State → Eff β}
    {Q : β → Prop}
    (hf : s.scanLen.toNat < s.params.scanMemBytes →
      (f () { s with scan := s.scan.write s.scanLen.toNat b, scanLen := s.scanLen + 1 }).Writes D s Q) :
    ((Machine.scanAppend b s).bind f).Writes D s Q := by
  unfold Machine.scanAppend
  split
  · exact hf ‹_›
  · trivial

theorem scanAppend_writes (b : Byte) (s : State) : (scanAppend b s).Writes Appended s fun _ => True := by
  unfold scanAppend
  split
  · exact .step (.byte b ‹_› (.inl rfl)) trivial
  · trivial

theorem extractLoop_writes : ∀ (fuel : Nat) (s : State), (extractLoop fuel s).Writes Appended s fun _ => True
  | 0, _ => .ok appended_writeSet trivial
  | fuel + 1, s => by
    have hD := appended_writeSet
    have hlt := s.inLenL_toNat_lt
    rw [extractLoop]
    split
    · exact .ok hD trivial
    · rename_i hp
      refine .memRead fun _ => ?_
      split
      · have h1 : (s.pc + 1).toNat = s.pc.toNat + 1 := Word.toNat_add_one (by omega)
        have hcur : CursorTo s.inLenL.toNat s.pc (s.pc + 1) := .inr (by omega)
        exact .scanAppend fun hc => .after hD (.byte _ hc hcur) (extractLoop_writes fuel _)
      · refine .raiseIf hD fun hp1 => .memRead fun _ => ?_
        split
        · have h2 : (s.pc + 2).toNat = s.pc.toNat + 2 := Word.toNat_add_two (by omega)
          have hcur : CursorTo s.inLenL.toNat s.pc (s.pc + 2) := .inr (by omega)
          rw [stuffedPair, Eff.bind_assoc]
          exact .scanAppend fun hc => .after hD (.byte _ hc hcur) (extractLoop_writes fuel _)
        · exact .ok hD trivial

theorem extract_writes (s : State) : (extract s).Writes Appended s fun _ => True :=
  have hD := appended_writeSet
  .bind hD (extractLoop_writes _ s) fun _ s _ _ => .bind hD (scanAppend_writes 0 s) fun _ s _ _ => scanAppend_writes 0 s

/-! ## What a marker writes -/

/-- What a marker has written when it is done, or at the point where it raises: SOI; the cursor alone, or tables with it;
a frame header; a scan header with bytes of the scan. -/
inductive Parsed (s : State) : State → Prop
  | soi (first : s.seenSoi = false) (room : s.pc.toNat + 2 ≤ s.inLenL.toNat) :
      Parsed s { s with seenSoi := true, pc := s.pc + 2 }
  | tables {u : State} (loaded : Loaded s.inLenL.toNat s u)
      (keep : s.scanDone = true → u.qt = s.qt ∧ u.ht = s.ht) : Parsed s u
  | frame (fh : FrameHeader) (pc : Word) (soi : s.seenSoi = true) (first : s.seenSof = false) (accepted : fh.Accepted)
      (cursor : CursorTo s.inLenL.toNat s.pc pc) : Parsed s { commitFrame fh s with pc := pc }
  | scan (sh : ScanHeader) {u : State} (sof : s.seenSof = true) (first : s.scanDone = false)
      (appended : Appended s u) : Parsed s { u with sh := sh }

/-- What a step in PARSE can do: an error, after some of a marker's writes; a marker done, the scan among them; or phase 2
(48 R709 (b), (c)). -/
inductive ParseStep (s : State) : State → Prop
  | error {u : State} (parsed : Parsed s u) (k : ErrKind) (o : Nat) (m : Byte) (b : Option Byte) :
      ParseStep s (u.raise k o m b)
  | marker {u : State} (parsed : Parsed s u)
      (fits : s.seenSof = false → u.seenSof = true → u.regs.outLen.toNat ≤ s.params.outMemBytes)
      (noScan : u.scanLen = s.scanLen) : ParseStep s u
  | scan (sh : ScanHeader) {u : State} (sof : s.seenSof = true) (first : s.scanDone = false) (slots : s.slotsReady)
      (appended : Appended s u) : ParseStep s { u with sh := sh, scanDone := true }
  | decode (pc : Word) (cursor : CursorTo s.inLenL.toNat s.pc pc) (scanned : s.scanDone = true) :
      ParseStep s (enterDecode { s with pc := pc })

variable {s : State}

theorem Moved.parsed {t : State} (h : Moved s.inLenL.toNat s t) : Parsed s t :=
  .tables h.loaded fun _ => by obtain ⟨_, rfl, _⟩ := h; exact ⟨rfl, rfl⟩

theorem Moved.parseStep {t : State} (h : Moved s.inLenL.toNat s t) : ParseStep s t := by
  have hp := h.parsed
  obtain ⟨pc, rfl, _⟩ := h
  exact .marker hp (fun hs h => by simp_all) rfl

theorem RaisedAfter.parseStep {D : State → State → Prop} {t : State} (h : RaisedAfter D s t)
    (hD : ∀ u, D s u → Parsed s u) : ParseStep s t := by
  obtain ⟨u, hu, k, o, m, b, rfl⟩ := h
  exact .error (hD u hu) k o m b

/-- A part that only moves the cursor, then the rest of the marker. -/
theorem Eff.Writes.parseStep {α β : Type} {e : Eff α} {f : α → State → Eff β} {Q : α → Prop} {P : β → State → Prop}
    (h : e.Writes (Moved s.inLenL.toNat) s Q)
    (hf : ∀ a t, Moved s.inLenL.toNat s t → Q a → (f a t).May P (ParseStep s)) : (e.bind f).May P (ParseStep s) :=
  Eff.May.bind (Eff.May.mono h (fun _ _ h => h) fun _ h => h.parseStep fun _ h => h.parsed) fun a t ⟨ht, ha⟩ => hf a t ht ha

theorem checkOrder_parseStep {β : Type} {m : Byte} {f : Unit → State → Eff β} {P : β → State → Prop}
    (hf : orderError m s = none → (f () s).May P (ParseStep s)) : ((checkOrder m s).bind f).May P (ParseStep s) := by
  cases h : orderError m s with
  | none => rw [checkOrder_ok h]; exact hf h
  | some k => rw [checkOrder_bad h]; exact .error ((moved_writeSet _).refl s).parsed _ _ _ _

/-! ## Marker by marker -/

/-- Every way `e` ends is a PARSE step from `s`. -/
abbrev Eff.Parses (e : Eff Unit) (s : State) : Prop := e.May (fun _ => ParseStep s) (ParseStep s)

theorem soi_parses (h : s.pc.toNat + 1 < s.inLenL.toNat) :
    ((checkOrder 0xD8 s).bind fun _ s => Eff.ok () { s with seenSoi := true, pc := s.pc + 2 }).Parses s := by
  refine checkOrder_parseStep fun ho => ?_
  have hf : s.seenSoi = false := by simpa using (orderError_eq_none.1 ho).1
  exact .marker (.soi hf h) (fun h1 h2 => by simp_all) rfl

theorem skipSegment_parses (m : Byte) (s : State) : (skipSegment m s).Parses s := by
  refine checkOrder_parseStep fun _ => (segHeader_writes m s).parseStep fun g t ht hg => ?_
  exact ((moved_writeSet _).trans ht ⟨_, rfl, .inr ((Word.toNat_ofNat_le _).trans hg)⟩).parseStep

/-- A segment of table specifications (42 R434, R437). -/
theorem tableSegment_parses {m : Byte} (hm : m = 0xDB ∨ m = 0xC4) {body : Seg → State → Eff Unit}
    (hb : ∀ g s, (body g s).Writes (Loaded g.segEnd) s fun _ => True) :
    ((checkOrder m s).bind fun _ s => (segHeader m s).bind fun g s => segWhile g (body g) g.len s).Parses s := by
  refine checkOrder_parseStep fun ho => ?_
  have hd : s.scanDone = false := (orderError_eq_none.1 ho).2.2.2.2.2.1 hm
  have hp : ∀ u, Loaded s.inLenL.toNat s u → Parsed s u := fun u hu => .tables hu (by simp [hd])
  have hw : ((segHeader m s).bind fun g s => segWhile g (body g) g.len s).Writes (Loaded s.inLenL.toNat) s fun _ => True :=
    .bind (loaded_writeSet _) (segHeader_writes m s).loaded fun g t _ hg =>
      (Eff.Writes.segWhile (loaded_writeSet _) (hb g) g.len t).mono (fun _ h => h.mono hg) fun _ h => h
  refine Eff.May.mono hw (fun _ t ⟨ht, _⟩ => ?_) fun _ h => h.parseStep hp
  have hpt := hp t ht
  obtain ⟨_, _, _, rfl, _⟩ := ht
  exact .marker hpt (fun h1 h2 => by simp_all) rfl

theorem sof0_parses (s : State) :
    ((checkOrder 0xC0 s).bind fun _ s => (segHeader 0xC0 s).bind fun g s => (sofFields g s).bind fun fh s =>
      (checkOutputCapacity g (commitFrame fh s)).bind fun _ s => closeSegment g s).Parses s := by
  refine checkOrder_parseStep fun ho => ?_
  obtain ⟨hsoi, _, _, hsof, _⟩ := orderError_eq_none.1 ho
  have hsoi : s.seenSoi = true := hsoi.2 (by decide)
  have hsof : s.seenSof = false := hsof rfl
  have hframe : ∀ fh pc, FrameHeader.Accepted fh → CursorTo s.inLenL.toNat s.pc pc →
      Parsed s { commitFrame fh s with pc := pc } := fun fh pc hfh hpc => .frame fh pc hsoi hsof hfh hpc
  refine (segHeader_writes _ s).parseStep fun g t ht hg => ?_
  have hf := (sofFields_writes g t).mono (fun _ h => h.mono hg) fun _ h => h
  refine Eff.Writes.parseStep (.after (moved_writeSet _) ht hf) fun fh u hu hfh => ?_
  obtain ⟨pc, rfl, hpc⟩ := hu
  unfold checkOutputCapacity
  by_cases hc : s.params.outMemBytes < (commitFrame fh s).regs.outLen.toNat
  · rw [raiseIf_true (by exact hc)]
    exact .error (hframe fh pc hfh hpc) _ _ _ _
  · rw [raiseIf_false (by exact hc)]
    refine .marker (hframe fh _ hfh (.inr ((Word.toNat_ofNat_le _).trans hg))) (fun _ _ => ?_) rfl
    exact Nat.le_of_not_lt hc

/-- The extraction that an accepted scan header begins (42 R450). -/
theorem extract_parses (sh : ScanHeader) {pc : Word} (hpc : CursorTo s.inLenL.toNat s.pc pc) (hsof : s.seenSof = true)
    (hd : s.scanDone = false) (hr : s.slotsReady) :
    ((extract { s with pc := pc, sh := sh }).bind fun _ s => .ok () { s with scanDone := true }).Parses s := by
  have happ : ∀ u, Appended { s with pc := pc, sh := sh } u → ∃ v, Appended s v ∧ u = { v with sh := sh } := by
    rintro _ ⟨pc', m, n, rfl, hpc', hm, hn⟩
    exact ⟨_, ⟨pc', m, n, rfl, hpc.trans hpc', hm, hn⟩, rfl⟩
  refine Eff.May.bind (Q := fun _ u => Appended _ u) (Eff.May.mono (extract_writes _) (fun _ _ h => h.1) ?_) ?_
  · rintro _ ⟨u, hu, k, o, m, b, rfl⟩
    obtain ⟨v, hv, rfl⟩ := happ u hu
    exact .error (.scan sh hsof hd hv) k o m b
  · intro _ u hu
    obtain ⟨v, hv, rfl⟩ := happ u hu
    exact .scan sh (u := v) hsof hd hr hv

theorem sos_parses (s : State) :
    ((checkOrder 0xDA s).bind fun _ s => (segHeader 0xDA s).bind fun g s => (sosFields g s).bind fun sh s =>
      (closeSegment g { s with sh := sh }).bind fun _ s => (extract s).bind fun _ s =>
        .ok () { s with scanDone := true }).Parses s := by
  refine checkOrder_parseStep fun ho => ?_
  obtain ⟨_, _, _, _, hsos, _⟩ := orderError_eq_none.1 ho
  obtain ⟨hsof, hd⟩ := hsos rfl
  refine (segHeader_writes _ s).parseStep fun g t ht hg => ?_
  have hf := (sosFields_writes g t).mono (fun _ h => h.mono hg) fun _ h => h
  refine Eff.Writes.parseStep (.after (moved_writeSet _) ht hf) fun sh u hu hr => ?_
  have hr : s.slotsReady := ht.slotsReady.1 hr
  obtain ⟨pc, rfl, hpc⟩ := hu
  exact extract_parses sh (.inr ((Word.toNat_ofNat_le _).trans hg)) hsof hd hr

theorem eoi_parses (h : s.pc.toNat + 1 < s.inLenL.toNat) :
    ((checkOrder 0xD9 s).bind fun _ s => Eff.ok () (enterDecode { s with pc := s.pc + 2 })).Parses s := by
  refine checkOrder_parseStep fun ho => ?_
  obtain ⟨_, _, _, _, _, _, heoi⟩ := orderError_eq_none.1 ho
  have hl := s.inLenL_toNat_lt
  have h2 : (s.pc + 2).toNat = s.pc.toNat + 2 := Word.toNat_add_two (by omega)
  exact .decode _ (.inr (by omega)) (heoi rfl)

theorem rejectMarker_parses (k : ErrKind) (m : Byte) (s : State) : (rejectMarker k m s).Parses s :=
  checkOrder_parseStep fun _ => .error ((moved_writeSet _).refl s).parsed _ _ _ _

theorem endOfInput_parses (s : State) : (endOfInput s).Parses s := by
  unfold endOfInput
  split
  · exact .decode s.pc (.inl rfl) ‹_›
  · exact .error ((moved_writeSet _).refl s).parsed _ _ _ _

/-- A code word of the marker context. -/
def isMarkerCode : Code → Bool
  | .marker _ => true
  | .scanPair _ | .dcSymbol _ | .acSymbol _ | .hostWrite _ _ => false

theorem markerRows_read_isMarker (w : Half) : ∀ r ∈ markerRows, isMarkerCode (encode (r.read w)) = true := by
  intro r hr
  fin_cases hr <;> rfl

/-- A marker word decodes to a marker's instruction. -/
theorem decode_marker_isMarker {w : Half} {i : Instr} (h : decode (.marker w) = .ok i) :
    isMarkerCode (encode i) = true := by
  change (if field 15 8 w = 0xFF#8 then orReject .noRow (readRows markerRows w) else .error .notALeadByte) = _ at h
  split at h
  · unfold readRows at h
    cases hr : markerRows.find? (·.hits w) with
    | none => rw [hr] at h; cases h
    | some r =>
      rw [hr] at h; cases h
      exact markerRows_read_isMarker w r (List.mem_of_find?_eq_some hr)
  · cases h

/-- A marker's instruction, with its two bytes inside the input, is a PARSE step. -/
theorem exec_parseStep {i : Instr} {t : State} (hi : isMarkerCode (encode i) = true)
    (hp : s.pc.toNat + 1 < s.inLenL.toNat) (h : exec i s = .next t) : ParseStep s t := by
  cases i with
  | soi => exact (soi_parses hp).of_next h
  | appn n => exact (skipSegment_parses _ s).of_next h
  | com => exact (skipSegment_parses _ s).of_next h
  | dqt => exact (tableSegment_parses (.inl rfl) dqtSpec_writes).of_next h
  | dht => exact (tableSegment_parses (.inr rfl) dhtSpec_writes).of_next h
  | sof0 => exact (sof0_parses s).of_next h
  | sos => exact (sos_parses s).of_next h
  | eoi => exact (eoi_parses hp).of_next h
  | unsupSof1to3 | unsupSof5to7 | unsupSof9to11 | unsupSof13to15 | unsupDac | unsupRst | unsupDnl | unsupDri | unsupDhp
  | unsupExp | unsupTem | unknown00 | unknownRes | unknownJpg | unknownJpgn | unknownFill =>
    exact (rejectMarker_parses _ _ s).of_next h
  | scanStuff | dcZero | dcDiff | dcInvalid | eob | zrl | acBadzero | acCoef | acBadsize | hostStart => cases hi

/-! ## The step -/

/-- What a turn does after a fetch that may end in these ways. -/
theorem Eff.May.of_turn {e : Eff Instr} {P : State → Prop} {t : State}
    (h : e.May (fun i u => ∀ t, exec i u = .next t → P t) P) (ht : (Turn.ofFetch e).outcome = .next t) : P t := by
  cases e with
  | ok i u => exact h t ht
  | raised u => cases ht; exact h
  | stop r => cases ht

theorem fetchMarker_may (hl : s.pc.toNat < s.inLenL.toNat) :
    (fetchMarker s).May (fun i u => ∀ t, exec i u = .next t → ParseStep s t) (ParseStep s) := by
  by_cases hm : s.inMem.read s.pc.toNat = 0xFF ∧ s.pc.toNat + 1 < s.inLenL.toNat
  · obtain ⟨i, hi, hf⟩ := fetchMarker_ok hm.2 hm.1
    rw [hf]
    exact fun t ht => exec_parseStep (decode_marker_isMarker hi) hm.2 ht
  · rw [fetchMarker_bad hl ((not_and_or.1 hm).imp id Nat.le_of_not_lt)]
    exact .error ((moved_writeSet _).refl s).parsed _ _ _ _

/-- What a step in PARSE can do (48 R709 (b), (c)). -/
theorem parseTurn_cases {t : State} (h : (parseTurn s).outcome = .next t) : ParseStep s t := by
  by_cases hp : s.inLenL.toNat ≤ s.pc.toNat
  · rw [parseTurn_end hp] at h
    exact (endOfInput_parses s).of_next h
  · have hl : s.pc.toNat < s.inLenL.toNat := Nat.lt_of_not_le hp
    rw [parseTurn_marker hl] at h
    exact (fetchMarker_may hl).of_turn h

end Sys2Proof.Machine
end

section
/-! SUPPORT. What one part of a macroblock can do. -/

namespace Sys2Proof.Machine

variable {s : State}

/-! ## The bit reader -/

/-- `t` is `s` with another reader. -/
def OnlyReader (s t : State) : Prop := ∃ r : BitReader, t = { s with br := r }

theorem onlyReader_writeSet : WriteSet OnlyReader where
  refl s := ⟨s.br, rfl⟩
  trans := by
    rintro s _ _ ⟨_, rfl⟩ ⟨r, rfl⟩
    exact ⟨r, rfl⟩

/-- `t` is `s` with another reader, which keeps the reader's invariant where the lookup tables are well-formed. -/
def ReaderMoved (s t : State) : Prop :=
  ∃ r : BitReader, t = { s with br := r } ∧ (s.ReaderOk → s.ht.wf → ({ s with br := r } : State).ReaderOk)

theorem readerMoved_writeSet : WriteSet ReaderMoved where
  refl s := ⟨s.br, rfl, fun h _ => h⟩
  trans := by
    rintro s _ _ ⟨_, rfl, h⟩ ⟨r, rfl, h'⟩
    exact ⟨r, rfl, fun hr hw => h' (h hr hw) hw⟩

/-- What a reader operation writes, from its frame and from what it does under the reader's invariant. -/
theorem Eff.Writes.readerMoved {α : Type} {e : Eff α} {Q : α → Prop} (h : e.Writes OnlyReader s Q)
    (hok : s.ReaderOk → s.ht.wf → e.Writes ReaderMoved s fun _ => True) : e.Writes ReaderMoved s Q := by
  by_cases hs : s.ReaderOk ∧ s.ht.wf
  · have hok := hok hs.1 hs.2
    cases e with
    | ok a t => exact ⟨hok.1, h.2⟩
    | raised t => exact hok
    | stop r => trivial
  · refine h.mono (fun t ht => ?_) fun _ ha => ha
    obtain ⟨r, rfl⟩ := ht
    exact ⟨r, rfl, fun h1 h2 => absurd ⟨h1, h2⟩ hs⟩

/-- The reader meets its invariant where `peek(n)` has found SCAN exhausted. -/
theorem readerOk_exhausted {n : Nat} (h : s.ReaderOk) (hn : n ≤ 16) (hb : ¬s.hasBits n) :
    ({ s with br := s.readerAfter (s.scanLen.toNat - s.br.pos.toNat) 0 } : State).ReaderOk := by
  obtain ⟨_, hp, hh, _⟩ := h
  simp only [State.hasBits, State.refills] at hb
  exact readerOk_readerAt (by omega) (by omega) (by omega)

theorem raiseCorrupt_writes {α : Type} {Q : α → Prop} {D : State → State → Prop} (hD : WriteSet D) (s : State) :
    (raiseCorrupt s : Eff α).Writes D s Q := .raised hD _ _ _ _

theorem refill_writes (n : Nat) : ∀ (fuel : Nat) (s : State), (refill n fuel s).Writes OnlyReader s fun _ => True
  | 0, _ => .ok onlyReader_writeSet trivial
  | fuel + 1, s => by
    have hD := onlyReader_writeSet
    rw [refill]
    split
    · split
      · exact raiseCorrupt_writes hD s
      · unfold scanRead
        split
        · exact .after hD ⟨_, rfl⟩ (refill_writes n fuel _)
        · trivial
    · exact .ok hD trivial

theorem peek_writes_onlyReader (n : Nat) (s : State) : (peek n s).Writes OnlyReader s fun v => v < 2 ^ n :=
  .bind onlyReader_writeSet (refill_writes n n s) fun _ _ _ _ =>
    .ok onlyReader_writeSet (Nat.mod_lt _ (Nat.two_pow_pos n))

section
variable {n : Nat} (hn : s.ht.wf → n ≤ 16)
include hn

theorem peek_writes : (peek n s).Writes ReaderMoved s fun v => v < 2 ^ n := by
  refine (peek_writes_onlyReader n s).readerMoved fun hr hw => ?_
  by_cases hb : s.hasBits n
  · rw [peek_ok hr (hn hw) hb]
    exact .step ⟨_, rfl, fun _ _ => readerOk_after hr (hn hw) hb⟩ trivial
  · rw [peek_short hr (hn hw) hb]
    exact ⟨_, ⟨_, rfl, fun _ _ => readerOk_exhausted hr (hn hw) hb⟩, _, _, _, _, rfl⟩

theorem readBits_writes : (readBits n s).Writes ReaderMoved s fun v => v < 2 ^ n := by
  have hD := onlyReader_writeSet
  have hw : (readBits n s).Writes OnlyReader s fun v => v < 2 ^ n :=
    .bind hD (peek_writes_onlyReader n s) fun _ _ _ hv => .step ⟨_, rfl⟩ hv
  refine hw.readerMoved fun hr hw => ?_
  by_cases hb : s.hasBits n
  · rw [readBits_ok hr (hn hw) hb]
    exact .step ⟨_, rfl, fun _ _ => readerOk_after hr (hn hw) hb⟩ trivial
  · rw [readBits_short hr (hn hw) hb]
    exact ⟨_, ⟨_, rfl, fun _ _ => readerOk_exhausted hr (hn hw) hb⟩, _, _, _, _, rfl⟩

theorem skip_writes : (skip n s).Writes ReaderMoved s fun _ => True :=
  .bind readerMoved_writeSet (readBits_writes hn) fun _ _ _ _ => .ok readerMoved_writeSet trivial

end

/-- The magnitude of an extended value of `n` bits (30 R321). -/
theorem extend_natAbs_lt {v n : Nat} (h : v < 2 ^ n) : (extend v n).natAbs < 2 ^ n := by
  unfold extend
  split
  · exact Nat.two_pow_pos n
  · split
    · zify at h ⊢
      rw [abs_lt]; constructor <;> linarith
    · simpa using h

theorem readExtended_writes {n : Nat} (hn : n ≤ 16) :
    (readExtended n s).Writes ReaderMoved s fun d => d.natAbs < 2 ^ n := by
  have hD := readerMoved_writeSet
  unfold readExtended
  split
  · exact .ok hD (Nat.two_pow_pos n)
  · exact .bind hD (readBits_writes fun _ => hn) fun _ _ _ hv => .ok hD (extend_natAbs_lt hv)

theorem decodeSymbol_writes (s : State) : (decodeSymbol s).Writes ReaderMoved s fun _ => True := by
  have hD := readerMoved_writeSet
  refine .bind hD (peek_writes fun _ => le_refl 16) fun idx s _ _ => ?_
  dsimp only
  split
  · exact raiseCorrupt_writes hD s
  · refine .bind hD (skip_writes fun hw => ?_) fun _ _ _ _ => .ok hD trivial
    exact HuffTable.entry_len_le (fun f hf => ⟨((hw _ _).1 f hf).1, ((hw _ _).1 f hf).2.1⟩) idx

/-! ## The rendering of a macroblock -/

/-- `m` is OUT of `s` after writes of the engine: below OUT's capacity and below OUT_LEN alone (20 R202). -/
structure OutWritten (s : State) (m : Memory) : Prop where
  keeps : s.outMem.Keeps s.params.outMemBytes m
  beyond : ∀ a, s.regs.outLen.toNat ≤ a → m.read a = s.outMem.read a

/-- `t` is `s` with other block buffers and with OUT written. -/
def Rendered (s t : State) : Prop :=
  ∃ (blk : Vector Block 6) (m : Memory), t = { s with blk := blk, outMem := m } ∧ OutWritten s m

theorem rendered_writeSet : WriteSet Rendered where
  refl s := ⟨s.blk, s.outMem, rfl, .refl _ _, fun _ _ => rfl⟩
  trans := by
    rintro s _ _ ⟨_, _, rfl, h⟩ ⟨blk, m, rfl, h'⟩
    exact ⟨blk, m, rfl, h.keeps.trans h'.keeps, fun a ha => (h'.beyond a ha).trans (h.beyond a ha)⟩

theorem Rendered.blocks (s : State) (blk : Vector Block 6) : Rendered s { s with blk := blk } :=
  ⟨blk, s.outMem, rfl, .refl _ _, fun _ _ => rfl⟩

/-- `e` only renders, and does not raise. -/
abbrev Eff.Renders (e : Eff Unit) (s : State) : Prop := e.May (fun _ => Rendered s) fun _ => False

theorem memWrite_renders {t : State} (a : Nat) (v : Byte) (h : Rendered s t) : (memWrite a v t).Renders s := by
  unfold memWrite
  split
  · rename_i ha
    refine rendered_writeSet.trans h ⟨t.blk, _, rfl, .write _ _ ha.2, fun c hc => ?_⟩
    exact t.outMem.read_write_other v (by omega)
  · trivial

theorem writeBytes_renders : ∀ (bs : List Byte) (a : Nat) {t : State}, Rendered s t → (writeBytes a bs t).Renders s
  | [], _, _, h => h
  | b :: bs, a, _, h => (memWrite_renders a b h).bind fun _ _ h => writeBytes_renders bs (a + 1) h

theorem dequantize_renders {t : State} (b : Fin 6) (h : Rendered s t) : (dequantize b t).Renders s := by
  unfold dequantize
  dsimp only
  split
  · exact rendered_writeSet.trans h (.blocks t _)
  · trivial

theorem idct_renders {t : State} (b : Fin 6) (h : Rendered s t) : (idct b t).Renders s :=
  rendered_writeSet.trans h (.blocks t _)

/-- Dequantization, transform and colour conversion write the block buffers and OUT (48 R705). -/
theorem renderMacroblock_renders (s : State) : (renderMacroblock s).Renders s :=
  (Eff.may_forEach (fun b _ h => dequantize_renders b h) blocks s (rendered_writeSet.refl s)).bind fun _ t ht =>
    (Eff.may_forEach (fun b _ h => idct_renders b h) blocks t ht).bind fun _ u hu =>
      Eff.may_forEach (fun _ _ h => writeBytes_renders _ _ h) macroblockPixels u hu

/-! ## The part -/

/-- What a part of a macroblock can do: an error, the scan read so far; a DC item; an AC item; the next block of the
macroblock; or, after the sixth block, the rendering and the next macroblock (44 R550, 48 R702). -/
inductive PartStep (s : State) : State → Prop
  | error {u : State} (moved : ReaderMoved s u) (k : ErrKind) (o : Nat) (m : Byte) (b : Option Byte) :
      PartStep s (u.raise k o m b)
  | dc {u : State} (moved : ReaderMoved s u) (d : Int) (first : s.item.k = 0) (small : d.natAbs ≤ 2047) :
      PartStep s (commitDc d u)
  | ac {u : State} (moved : ReaderMoved s u) (blk : Vector Block 6) (k : Nat) (notFirst : 1 ≤ s.item.k)
      (further : s.item.k < k) (last : k ≤ 64) : PartStep s { u with blk := blk, item := ⟨s.item.blk, k⟩ }
  | block (complete : 64 ≤ s.item.k) (h : s.item.blk.val + 1 < 6) :
      PartStep s { s with item := ⟨⟨s.item.blk.val + 1, h⟩, 0⟩ }
  | macroblock {u : State} (complete : 64 ≤ s.item.k) (sixth : s.item.blk.val = 5) (rendered : Rendered s u) :
      PartStep s (nextMacroblock u)

/-- The instruction of a DC symbol (30 R341). -/
def dcInstr (b : Byte) : Instr := if b = 0 then .dcZero else if b ≤ 11 then .dcDiff b else .dcInvalid b

theorem decode_dcSymbol_eq : ∀ b : Byte, decode (.dcSymbol b) = .ok (dcInstr b) := by decide +kernel

/-- The instruction of an AC symbol of run `r` and size `n` (30 R342). -/
def acInstr (r n : BitVec 4) : Instr :=
  if n = 0 then if r = 0 then .eob else if r = 15 then .zrl else .acBadzero r
  else if n ≤ 10 then .acCoef r n else .acBadsize r n

theorem decode_acSymbol_eq : ∀ b : Byte, decode (.acSymbol b) = .ok (acInstr (highNibble b) (lowNibble b)) := by
  decide +kernel

/-- A part that only reads the scan, then the rest of the item. -/
theorem Eff.Writes.partStep {α β : Type} {e : Eff α} {f : α → State → Eff β} {Q : α → Prop} {P : β → State → Prop}
    (h : e.Writes ReaderMoved s Q) (hf : ∀ a u, ReaderMoved s u → Q a → (f a u).May P (PartStep s)) :
    (e.bind f).May P (PartStep s) := by
  refine Eff.May.bind (Eff.May.mono h (fun _ _ h => h) ?_) fun a u ⟨hu, ha⟩ => hf a u hu ha
  rintro _ ⟨u, hu, k, o, m, b, rfl⟩
  exact .error hu k o m b

/-- A DC item (44 R551 to R556). -/
theorem exec_dcInstr {u t : State} {b : Byte} (hu : ReaderMoved s u) (hk : s.item.k = 0)
    (h : exec (dcInstr b) u = .next t) : PartStep s t := by
  unfold dcInstr at h
  split at h
  · cases h; exact .dc hu 0 hk (by decide)
  · split at h
    · rename_i hb
      have hb : b.toNat ≤ 11 := hb
      have h11 : 2 ^ b.toNat ≤ 2 ^ 11 := Nat.pow_le_pow_right (by decide) hb
      have hr := Eff.Writes.after readerMoved_writeSet hu (readExtended_writes (by omega : b.toNat ≤ 16))
      exact (hr.partStep (f := fun d v => .ok () (commitDc d v)) fun d v hv hd => .dc hv d hk (by omega)).of_next h
    · cases h; exact .error hu _ _ _ _

/-- An AC item (44 R557 to R561). -/
theorem exec_acInstr {u t : State} {r n : BitVec 4} (hu : ReaderMoved s u) (h1 : 1 ≤ s.item.k) (h64 : s.item.k < 64)
    (h : exec (acInstr r n) u = .next t) : PartStep s t := by
  have hi : ∀ {v}, ReaderMoved s v → v.item = s.item := by rintro _ ⟨_, rfl, _⟩; rfl
  have hac : ∀ {v} (blk : Vector Block 6) (k : Nat), ReaderMoved s v → s.item.k < k → k ≤ 64 →
      PartStep s { v with blk := blk, item := ⟨v.item.blk, k⟩ } := fun blk k hv hk hl => by
    rw [hi hv]; exact .ac hv blk k h1 hk hl
  unfold acInstr at h
  split at h
  · split at h
    · cases h; exact hac u.blk 64 hu h64 (le_refl 64)
    · split at h
      · change (if 64 < u.item.k + 16 then raiseCorrupt u else Eff.ok () (u.withK (u.item.k + 16))).outcome = _ at h
        split at h
        · cases h; exact .error hu _ _ _ _
        · cases h; exact hac u.blk _ hu (by rw [hi hu]; omega) (by omega)
      · cases h; exact .error hu _ _ _ _
  · split at h
    · refine Eff.May.of_next (e := if hr : u.item.k + r.toNat ≤ 63 then _ else _) ?_ h
      split
      · have hr := Eff.Writes.after readerMoved_writeSet hu (readExtended_writes (by omega : n.toNat ≤ 16))
        refine hr.partStep fun d v hv _ => hac (v := v) (v.setCoef _ d).blk _ hv ?_ (by omega)
        rw [hi hu]; omega
      · exact .error hu _ _ _ _
    · cases h; exact .error hu _ _ _ _

theorem fetchSymbol_may (hk : s.item.k < 64) :
    (fetchSymbol s).May (fun i u => ∀ t, exec i u = .next t → PartStep s t) (PartStep s) := by
  refine (decodeSymbol_writes s).partStep fun b u hu _ => ?_
  have hac : u.acNext = s.acNext := by obtain ⟨_, rfl, _⟩ := hu; rfl
  unfold decoded State.symbolCode
  rw [hac]
  by_cases h0 : s.item.k = 0
  · rw [if_neg (by simp [State.acNext, h0]), decode_dcSymbol_eq]
    exact fun t ht => exec_dcInstr hu h0 ht
  · rw [if_pos (by simp [State.acNext, h0]), decode_acSymbol_eq]
    exact fun t ht => exec_acInstr hu (by omega) hk ht

/-- What a part of a macroblock can do (44 R550, 48 R702). -/
theorem itemStep_cases {t : State} (h : itemStep s = .next t) : PartStep s t := by
  unfold itemStep at h
  by_cases hk : s.item.k < 64
  · rw [itemTurn_symbol hk] at h
    exact (fetchSymbol_may hk).of_turn h
  · have hk : 64 ≤ s.item.k := Nat.le_of_not_lt hk
    rw [itemTurn_block hk] at h
    refine Eff.May.of_next (e := afterBlock s) ?_ h
    unfold afterBlock
    split
    · exact .block hk _
    · exact Eff.May.bind (Eff.May.mono (renderMacroblock_renders s) (fun _ _ h => h) fun _ h => h.elim) fun _ u hu =>
        .macroblock hk (by omega) hu

end Sys2Proof.Machine
end

section
/-! SUPPORT. What a move of the host can do. -/

namespace Sys2Proof.Machine

open Sys2Proof.Claims

variable {s : State}

/-- What a host move can do, a yield that passes among them: it changes the host's own registers and its last answer, or
nothing; while not BUSY it writes a byte of IN or OUT, or starts a decode; or it resets (70 R920). -/
inductive HostStep (s : State) : HostMove → State → Prop
  | registers (mv : HostMove) (n : Word) (bgr : Bool) (r : Word) : HostStep s mv (hostSide n bgr r s)
  | input (off : Nat) (b : Byte) (rest : s.busy = false) (inside : off < s.params.inMemBytes) :
      HostStep s (.writeIn off b) { s with inMem := s.inMem.write off b }
  | output (off : Nat) (b : Byte) (rest : s.busy = false) (inside : off < s.params.outMemBytes) :
      HostStep s (.writeOut off b) { s with outMem := s.outMem.write off b }
  | start (v : Word) (bit : v.getLsbD 0 = true) (rest : s.busy = false)
      (fits : s.regs.inLen.toNat ≤ s.params.inMemBytes) :
      HostStep s (.writeReg 0x00 v) (hostSide s.regs.inLen (v.getLsbD 1) s.rdata s).cleared
  | startTooLong (v : Word) (bit : v.getLsbD 0 = true) (rest : s.busy = false) :
      HostStep s (.writeReg 0x00 v)
        ((hostSide s.regs.inLen (v.getLsbD 1) s.rdata s).cleared.raise .resourceLimit 0 0 none)
  | reset : HostStep s .reset { State.resetWith s.params with hostMoves := s.hostMoves }

theorem HostStep.unchanged (mv : HostMove) (s : State) : HostStep s mv s :=
  .registers mv s.regs.inLen s.regs.ctrlBgr s.rdata

theorem HostStep.answer (mv : HostMove) (v : Word) (s : State) : HostStep s mv (s.answer v) :=
  .registers mv s.regs.inLen s.regs.ctrlBgr v

theorem HostStep.writeReg (mv : HostMove) (off : Nat) (v : Word) (s : State) :
    HostStep s mv (Machine.writeReg off v s) := by
  unfold Machine.writeReg
  split
  · exact .registers mv s.regs.inLen (v.getLsbD 1) s.rdata
  · exact .registers mv v s.regs.ctrlBgr s.rdata
  · exact .unchanged mv s

/-- The write of CTRL with START set (48 R750, R751). -/
theorem execHostStart_cases {v : Word} {t : State} (hv : v.getLsbD 0 = true) (h : execHostStart v s = .next t) :
    HostStep s (.writeReg 0x00 v) t := by
  change (if (v.getLsbD 0 && !s.busy) = true then Machine.start (hostSide s.regs.inLen (v.getLsbD 1) s.rdata s)
    else .ok () (hostSide s.regs.inLen (v.getLsbD 1) s.rdata s)).outcome = _ at h
  cases hb : s.busy with
  | true => rw [if_neg (by simp [hb])] at h; cases h; exact .registers _ _ _ _
  | false =>
    rw [if_pos (by simp [hv, hb]), start_eq] at h
    split at h
    · cases h; exact .startTooLong v hv hb
    · cases h; exact .start v hv hb (Nat.le_of_not_lt ‹_›)

/-- An access of the host to IN or OUT that is a step is made while not BUSY and below the capacity (70 R922, R925). -/
theorem hostAccess_eq_next {off cap : Nat} {u t : State} (h : hostAccess off cap s u = .next t) :
    s.busy = false ∧ off < cap ∧ u = t := by
  unfold hostAccess at h
  split at h
  · cases h
  · split at h
    · cases h; exact ⟨eq_false_of_ne_true ‹_›, ‹_›, rfl⟩
    · cases h

theorem hostTurn_cases {mv : HostMove} {t : State} (h : (hostTurn mv s).outcome = .next t) : HostStep s mv t := by
  cases mv with
  | engine => cases h; exact .unchanged _ s
  | writeReg off v =>
    rw [hostTurn_writeReg] at h
    split at h
    · rename_i hv
      obtain ⟨rfl, hv⟩ := hv
      exact execHostStart_cases hv h
    · change (if registerOffset off then Host.Outcome.next _ else .refused _) = _ at h
      split at h
      · cases h; exact .writeReg _ off v s
      · cases h
  | readReg off =>
    change (if registerOffset off then Host.Outcome.next _ else .refused _) = _ at h
    split at h
    · cases h; exact .answer _ _ s
    · cases h
  | writeIn off b => obtain ⟨hb, ho, rfl⟩ := hostAccess_eq_next h; exact .input off b hb ho
  | readIn off => obtain ⟨_, _, rfl⟩ := hostAccess_eq_next h; exact .answer _ _ s
  | writeOut off b => obtain ⟨hb, ho, rfl⟩ := hostAccess_eq_next h; exact .output off b hb ho
  | readOut off => obtain ⟨_, _, rfl⟩ := hostAccess_eq_next h; exact .answer _ _ s
  | reset => cases h; exact .reset

/-! ## The engine's step -/

/-- The engine steps in PARSE and in DECODE alone (48 R709). -/
theorem engineStep_cases {t : State} (h : engineStep s = .next t) :
    s.phase = .parse ∧ ParseStep s t ∨ s.phase = .decode ∧ itemsToBoundary macroblockItems s = .next t := by
  cases hp : s.phase with
  | parse => rw [engineStep_parse hp] at h; exact .inl ⟨rfl, parseTurn_cases h⟩
  | decode => rw [engineStep_decode hp] at h; exact .inr ⟨rfl, h⟩
  | idle | done | error => rw [engineStep_rest (by simp [State.busy, hp])] at h; cases h

end Sys2Proof.Machine
end

section
/-! SUPPORT. The invariant: the clauses that hold in every phase, and what each kind of step makes of them. -/

namespace Sys2Proof.Machine

open Sys2Proof.Claims

variable {s t u : State}

/-- The clauses of the invariant that do not speak of PHASE. -/
structure State.Stored (s : State) : Prop where
  params : s.params.wf
  inMem : s.inMem.wf ∧ s.inMem.below s.params.inMemBytes
  outMem : s.outMem.wf ∧ s.outMem.below s.params.outMemBytes
  scan : s.scan.wf ∧ s.scan.below s.params.scanMemBytes
  scanLen : s.scanLen.toNat ≤ s.params.scanMemBytes
  reader : s.ReaderOk
  tables : s.ht.wf
  sofAfterSoi : s.seenSof = true → s.seenSoi = true
  scanAfterSof : s.scanDone = true → s.seenSof = true
  frame : s.seenSof = true → FrameOk s
  slotsLoaded : s.scanDone = true → s.slotsReady

theorem State.ItemInv.stored (h : s.ItemInv) : s.Stored := { h with }

/-! ### The whole invariant, phase by phase -/

/-- In ERROR nothing more is asked than the record that a raise leaves. -/
theorem State.Stored.raise (h : s.Stored) (k : ErrKind) (o : Nat) (m : Byte) (b : Option Byte) :
    (s.raise k o m b).ItemInv :=
  { h with
    reader := { h.reader with }
    frame := fun hs => { h.frame hs with }
    itemK := Nat.zero_le 64
    itemRest := fun _ => rfl
    errSet := fun _ => k.code_range
    errClear := fun he => absurd rfl he
    input := nofun
    output := nofun
    scanEmpty := nofun
    decoding := nofun }

theorem State.Stored.parsing (h : s.Stored) (hp : s.phase = .parse) (hi : s.item = .start) (he : s.err = .zero)
    (hin : s.inLenL.toNat ≤ s.params.inMemBytes ∧ s.pc.toNat ≤ s.inLenL.toNat)
    (hout : s.seenSof = true → s.regs.outLen.toNat ≤ s.params.outMemBytes)
    (hscan : s.scanDone = false → s.scanLen = 0) : s.ItemInv :=
  { h with
    itemK := by rw [hi]; exact Nat.zero_le 64
    itemRest := fun _ => hi
    errSet := by simp [hp]
    errClear := fun _ => he
    input := fun _ => hin
    output := fun _ => hout
    scanEmpty := fun _ => hscan
    decoding := by simp [hp] }

theorem State.Stored.decoding (h : s.Stored) (hp : s.phase = .decode) (hk : s.item.k ≤ 64) (he : s.err = .zero)
    (hin : s.inLenL.toNat ≤ s.params.inMemBytes ∧ s.pc.toNat ≤ s.inLenL.toNat)
    (hout : s.seenSof = true → s.regs.outLen.toNat ≤ s.params.outMemBytes)
    (hd : s.scanDone = true ∧ s.seq.x.toNat < s.seq.cols.toNat ∧ s.seq.y.toNat < s.seq.rows.toNat) : s.ItemInv :=
  { h with
    itemK := hk
    itemRest := by simp [hp]
    errSet := by simp [hp]
    errClear := fun _ => he
    input := fun _ => hin
    output := fun _ => hout
    scanEmpty := by simp [hp]
    decoding := fun _ => hd }

theorem State.Stored.finished (h : s.Stored) (hp : s.phase = .done) (hi : s.item = .start) (he : s.err = .zero) :
    s.ItemInv :=
  { h with
    itemK := by rw [hi]; exact Nat.zero_le 64
    itemRest := fun _ => hi
    errSet := by simp [hp]
    errClear := fun _ => he
    input := by simp [State.busy, hp]
    output := by simp [State.busy, hp]
    scanEmpty := by simp [hp]
    decoding := by simp [hp] }

/-! ### PARSE -/

/-- Before the scan the reader holds nothing, so that it meets its invariant whatever SCAN holds. -/
theorem State.ReaderOk.of_scanLen_zero (h : s.ReaderOk) (h0 : s.scanLen = 0) (hb : t.br = s.br) : t.ReaderOk := by
  obtain ⟨hc, hp, hh, hbits⟩ := h
  have h0 : s.scanLen.toNat = 0 := by rw [h0]; rfl
  have hp0 : s.br.pos.toNat = 0 := by omega
  have hc0 : s.br.cnt = 0 := by omega
  rw [hp0, hc0, Memory.readBE_zero, Nat.zero_mod] at hbits
  refine ⟨?_, ?_, ?_, ?_⟩ <;> rw [hb]
  · exact hc
  · omega
  · exact hh
  · rw [hp0, hc0, Memory.readBE_zero, Nat.zero_mod, hbits]

theorem ceil16_lt (n : Half) : ceil16 n.toNat < 2 ^ 16 := by
  have := n.isLt
  unfold ceil16; omega

/-- A committed frame header is consistent with the grid and the result registers (10 R133, 42 R440). -/
theorem commitFrame_frameOk {fh : FrameHeader} (h : fh.Accepted) (s : State) : FrameOk (commitFrame fh s) := by
  have hc := ceil16_lt fh.x
  have hr := ceil16_lt fh.y
  have hcols : (commitFrame fh s).seq.cols.toNat = ceil16 fh.x.toNat := by
    rw [commitFrame_seq, BitVec.toNat_ofNat, Nat.mod_eq_of_lt hc]
  have hrows : (commitFrame fh s).seq.rows.toNat = ceil16 fh.y.toNat := by
    rw [commitFrame_seq, BitVec.toNat_ofNat, Nat.mod_eq_of_lt hr]
  have hstride : strideOf (ceil16 fh.x.toNat) < 2 ^ 22 := by unfold strideOf; omega
  have hout : outLenOf (ceil16 fh.x.toNat) (ceil16 fh.y.toNat) < 2 ^ 64 := by
    have : strideOf (ceil16 fh.x.toNat) * ceil16 fh.y.toNat ≤ 2 ^ 22 * 2 ^ 16 := Nat.mul_le_mul hstride.le hr.le
    unfold outLenOf; omega
  exact
    { precision := h.precision, height := h.height, width := h.width, components := h.components
      sampling := h.sampling, slots := h.slots, cols := hcols, rows := hrows, widthReg := rfl, heightReg := rfl
      strideReg := by
        rw [hcols, commitFrame_regs, BitVec.toNat_ofNat, Nat.mod_eq_of_lt (hstride.trans (by decide))]
      outLenReg := by
        rw [hcols, hrows, commitFrame_regs, BitVec.toNat_ofNat, Nat.mod_eq_of_lt hout] }

/-- What a marker has written is stored well, even if it raises after it. -/
theorem Parsed.stored (h : Parsed s u) (hs : s.Stored) (hscan : s.scanDone = false → s.scanLen = 0) : u.Stored := by
  cases h with
  | soi first room =>
    exact { hs with
      reader := { hs.reader with }, sofAfterSoi := fun _ => rfl, frame := fun hf => { hs.frame hf with } }
  | tables loaded keep =>
    obtain ⟨pc, q, h, rfl, _, hwf⟩ := loaded
    exact { hs with
      reader := { hs.reader with }, tables := hwf hs.tables, frame := fun hf => { hs.frame hf with }
      slotsLoaded := fun hd => by
        obtain ⟨rfl, _⟩ : q = s.qt ∧ h = s.ht := keep hd
        exact hs.slotsLoaded hd }
  | frame fh pc soi first accepted cursor =>
    exact { hs with
      reader := { hs.reader with }, sofAfterSoi := fun _ => soi, scanAfterSof := fun _ => rfl
      frame := fun _ => { commitFrame_frameOk accepted s with }
      slotsLoaded := fun hd => by
        have hsof := hs.scanAfterSof hd
        rw [first] at hsof; cases hsof }
  | scan sh sof first appended =>
    obtain ⟨pc, m, n, rfl, _, hm, hn⟩ := appended
    exact { hs with
      scan := hm hs.scan, scanLen := hn hs.scanLen, reader := hs.reader.of_scanLen_zero (hscan first) rfl
      frame := fun hf => { hs.frame hf with } }

/-- What a marker leaves alone, and where it leaves the cursor. -/
structure ParseFrame (s u : State) : Prop where
  phase : u.phase = s.phase
  err : u.err = s.err
  item : u.item = s.item
  params : u.params = s.params
  inLenL : u.inLenL = s.inLenL
  scanDone : u.scanDone = s.scanDone
  cursor : s.pc.toNat ≤ s.inLenL.toNat → u.pc.toNat ≤ s.inLenL.toNat

theorem Parsed.parseFrame (h : Parsed s u) : ParseFrame s u := by
  cases h with
  | soi first room =>
    have hl := s.inLenL_toNat_lt
    exact ⟨rfl, rfl, rfl, rfl, rfl, rfl, fun _ => by rw [Word.toNat_add_two (by omega)]; exact room⟩
  | tables loaded keep =>
    obtain ⟨pc, q, h, rfl, hpc, _⟩ := loaded
    exact ⟨rfl, rfl, rfl, rfl, rfl, rfl, hpc.le⟩
  | frame fh pc soi first accepted cursor => exact ⟨rfl, rfl, rfl, rfl, rfl, rfl, cursor.le⟩
  | scan sh sof first appended =>
    obtain ⟨pc, m, n, rfl, hpc, _⟩ := appended
    exact ⟨rfl, rfl, rfl, rfl, rfl, rfl, hpc.le⟩

/-- A committed frame header, the grid and the result registers stay (10 R105). -/
theorem Parsed.frame_of_seenSof (h : Parsed s u) (hsof : s.seenSof = true) :
    u.fh = s.fh ∧ u.regs = s.regs ∧ u.seq = s.seq := by
  cases h with
  | soi first room => exact ⟨rfl, rfl, rfl⟩
  | tables loaded keep =>
    obtain ⟨pc, q, h, rfl, _⟩ := loaded
    exact ⟨rfl, rfl, rfl⟩
  | frame fh pc soi first accepted cursor => rw [first] at hsof; cases hsof
  | scan sh sof first appended =>
    obtain ⟨pc, m, n, rfl, _⟩ := appended
    exact ⟨rfl, rfl, rfl⟩

end Sys2Proof.Machine
end

section
/-! SUPPORT. Every step keeps the invariant. -/

namespace Sys2Proof.Machine

open Sys2Proof.Claims

variable {s t u : State}

/-! ### PARSE -/

/-- An accepted grid has a column and a row. -/
theorem FrameOk.grid_pos (h : FrameOk s) : 0 < s.seq.cols.toNat ∧ 0 < s.seq.rows.toNat := by
  have pos : ∀ n : Half, n ≠ 0 → 0 < ceil16 n.toNat := fun n hn => by
    have : n.toNat ≠ 0 := fun h => hn (BitVec.eq_of_toNat_eq h)
    unfold ceil16; omega
  rw [h.cols, h.rows]
  exact ⟨pos _ h.width, pos _ h.height⟩

theorem readerOk_zero (hb : s.br = .zero) : s.ReaderOk := by
  refine ⟨?_, ?_, ?_, ?_⟩ <;> rw [hb]
  · decide
  · exact Nat.zero_le _
  · exact Nat.zero_le _
  · exact (Nat.mod_one _).symm

theorem ParseStep.itemInv (h : ParseStep s t) (hs : s.ItemInv) (hp : s.phase = .parse) : t.ItemInv := by
  have hbusy : s.busy = true := s.busy_iff.2 (.inl hp)
  have hin := hs.input hbusy
  have hi : s.item = .start := hs.itemRest (by simp [hp])
  have he : s.err = .zero := hs.errClear (by simp [hp])
  cases h with
  | error parsed k o m b => exact (parsed.stored hs.stored (hs.scanEmpty hp)).raise k o m b
  | marker parsed fits noScan =>
    obtain ⟨hph, her, hit, hpar, hlen, hsd, hcur⟩ := parsed.parseFrame
    refine (parsed.stored hs.stored (hs.scanEmpty hp)).parsing (hph.trans hp) (hit.trans hi) (her.trans he) ?_ ?_ ?_
    · rw [hlen, hpar]; exact ⟨hin.1, hcur hin.2⟩
    · intro hu
      rw [hpar]
      cases hsof : s.seenSof with
      | false => exact fits hsof hu
      | true => rw [(parsed.frame_of_seenSof hsof).2.1]; exact hs.output hbusy hsof
    · intro hu
      rw [noScan]; exact hs.scanEmpty hp (hsd ▸ hu)
  | scan sh sof first slots appended =>
    obtain ⟨pc, m, n, rfl, hpc, hm, hn⟩ := appended
    have hst := hs.stored
    exact State.Stored.parsing { hst with
      scan := hm hst.scan, scanLen := hn hst.scanLen, reader := hst.reader.of_scanLen_zero (hs.scanEmpty hp first) rfl
      scanAfterSof := fun _ => sof, frame := fun hf => { hst.frame hf with }, slotsLoaded := fun _ => slots }
      hp hi he ⟨hin.1, hpc.le hin.2⟩ (hs.output hbusy) nofun
  | decode pc cursor scanned =>
    have hst := hs.stored
    have hsof := hs.scanAfterSof scanned
    have hgrid := (hs.frame hsof).grid_pos
    exact State.Stored.decoding { hst with
      reader := readerOk_zero rfl, frame := fun hf => { hst.frame hf with } }
      rfl (Nat.zero_le 64) he ⟨hin.1, cursor.le hin.2⟩ (hs.output hbusy) ⟨scanned, hgrid⟩

theorem ParseStep.item_start (h : ParseStep s t) (hs : s.item = .start) : t.item = .start := by
  cases h with
  | error parsed k o m b => rfl
  | marker parsed fits noScan => exact parsed.parseFrame.item.trans hs
  | scan sh sof first slots appended =>
    obtain ⟨pc, m, n, rfl, _⟩ := appended
    exact hs
  | decode pc cursor scanned => rfl

/-! ### DECODE -/

theorem ReaderMoved.itemInv (h : ReaderMoved s u) (hs : s.ItemInv) : u.ItemInv := by
  obtain ⟨r, rfl, hr⟩ := h
  exact { hs with reader := hr hs.reader hs.tables, frame := fun hf => { hs.frame hf with } }

theorem Rendered.itemInv (h : Rendered s u) (hs : s.ItemInv) : u.ItemInv := by
  obtain ⟨blk, m, rfl, hm⟩ := h
  exact { hs with outMem := hm.keeps hs.outMem, reader := { hs.reader with }, frame := fun hf => { hs.frame hf with } }

/-- In DECODE the predictors, the block buffers and the spectral index up to 64 are free. -/
theorem State.ItemInv.withItem (h : s.ItemInv) (hp : s.phase = .decode) (pred : Vector S64 3) (blk : Vector Block 6)
    {i : Item} (hi : i.k ≤ 64) : ({ s with pred := pred, blk := blk, item := i } : State).ItemInv :=
  { h with
    reader := { h.reader with }, frame := fun hf => { h.frame hf with }, itemK := hi
    itemRest := fun hn => absurd hp hn }

/-- The next macroblock in raster order, or the end of the image (48 R702, R703). -/
theorem nextMacroblock_cases (s : State) :
    (s.seq.x.toNat + 1 < s.seq.cols.toNat ∧
      nextMacroblock s = { s with seq := { s.seq with x := s.seq.x + 1 }, item := .start }) ∨
    (s.seq.cols.toNat ≤ s.seq.x.toNat + 1 ∧ s.seq.y.toNat + 1 < s.seq.rows.toNat ∧
      nextMacroblock s = { s with seq := { s.seq with x := 0, y := s.seq.y + 1 }, item := .start }) ∨
    nextMacroblock s = { s with phase := .done, item := .start } := by
  unfold nextMacroblock
  split
  · exact .inl ⟨‹_›, rfl⟩
  · split
    · exact .inr (.inl ⟨Nat.le_of_not_lt ‹_›, ‹_›, rfl⟩)
    · exact .inr (.inr rfl)

theorem Half.toNat_add_one {x n : Half} (h : x.toNat + 1 < n.toNat) : (x + 1).toNat = x.toNat + 1 := by
  have := n.isLt
  have h1 : (1 : Half).toNat = 1 := rfl
  rw [BitVec.toNat_add, h1]; omega

theorem nextMacroblock_itemInv (h : s.ItemInv) (hp : s.phase = .decode) : (nextMacroblock s).ItemInv := by
  obtain ⟨hd, hx, hy⟩ := h.decoding hp
  obtain ⟨hx1, he⟩ | ⟨_, hy1, he⟩ | he := nextMacroblock_cases s <;> rw [he]
  · have := Half.toNat_add_one hx1
    exact { h with
      reader := { h.reader with }, frame := fun hf => { h.frame hf with }, itemK := Nat.zero_le 64
      itemRest := fun _ => rfl, decoding := fun _ => ⟨hd, this ▸ hx1, hy⟩ }
  · have := Half.toNat_add_one hy1
    exact { h with
      reader := { h.reader with }, frame := fun hf => { h.frame hf with }, itemK := Nat.zero_le 64
      itemRest := fun _ => rfl, decoding := fun _ => ⟨hd, (Nat.zero_le _).trans_lt hx, this ▸ hy1⟩ }
  · exact State.Stored.finished { h.stored with reader := { h.reader with }, frame := fun hf => { h.frame hf with } }
      rfl rfl (h.errClear (by simp [hp]))

theorem PartStep.itemInv (h : PartStep s t) (hs : s.ItemInv) (hp : s.phase = .decode) : t.ItemInv := by
  cases h with
  | error moved k o m b => exact (moved.itemInv hs).stored.raise k o m b
  | dc moved d first small =>
    have hu := moved.itemInv hs
    obtain ⟨r, rfl, _⟩ := moved
    exact hu.withItem hp _ _ (by decide : 1 ≤ 64)
  | ac moved blk k notFirst further last =>
    have hu := moved.itemInv hs
    obtain ⟨r, rfl, _⟩ := moved
    exact hu.withItem hp _ _ last
  | block complete hb => exact hs.withItem hp s.pred s.blk (Nat.zero_le 64)
  | macroblock complete sixth rendered =>
    have hu := rendered.itemInv hs
    obtain ⟨blk, m, rfl, _⟩ := rendered
    exact nextMacroblock_itemInv hu hp

/-- How many parts of the macroblock may still come. -/
def State.partsLeft (s : State) : Nat := 65 * (5 - s.item.blk.val) + (64 - s.item.k)

/-- A part ends the macroblock, or leaves fewer parts to come. -/
theorem PartStep.partsLeft (h : PartStep s t) (hk : s.item.k ≤ 64) :
    t.atBoundary = true ∨ t.partsLeft < s.partsLeft := by
  unfold State.partsLeft
  cases h with
  | error moved k o m b => exact .inl rfl
  | dc moved d first small =>
    obtain ⟨r, rfl, _⟩ := moved
    refine .inr ?_
    simp only [commitDc_item]; omega
  | ac moved blk k notFirst further last =>
    refine .inr ?_
    simp only; omega
  | block complete hb =>
    refine .inr ?_
    simp only; omega
  | macroblock complete sixth rendered =>
    rename_i u
    refine .inl ?_
    obtain ⟨_, he⟩ | ⟨_, _, he⟩ | he := nextMacroblock_cases u <;> rw [he] <;> simp [State.atBoundary]

/-- A macroblock keeps the invariant, and ends between macroblocks. -/
theorem itemsToBoundary_inv (hs : s.Inv) (hp : s.phase = .decode)
    (h : itemsToBoundary macroblockItems s = .next t) : t.Inv := by
  have keeps : ∀ s t : State, s.ItemInv → s.phase = .decode → itemStep s = .next t → t.ItemInv :=
    fun _ _ hs hp h => (itemStep_cases h).itemInv hs hp
  have ht : t.ItemInv := itemsToBoundary_keeps keeps _ hs.toItemInv hp h
  have hb : t.atBoundary = true := by
    refine itemsToBoundary_atBoundary (P := State.ItemInv) State.partsLeft (fun s t hs hp h => ?_) _ hs.toItemInv hp ?_ h
    · exact ((itemStep_cases h).partsLeft hs.itemK).imp id fun hl => ⟨keeps s t hs hp h, hl⟩
    · unfold State.partsLeft macroblockItems; omega
  refine ⟨ht, ?_⟩
  by_cases hd : t.phase = .decode
  · simpa [State.atBoundary, hd] using hb
  · exact ht.itemRest hd

/-! ### The host -/

theorem State.ItemInv.hostSide (h : s.ItemInv) (n : Word) (bgr : Bool) (r : Word) : (hostSide n bgr r s).ItemInv :=
  { h with reader := { h.reader with }, frame := fun hf => { h.frame hf with } }

theorem State.Inv.withMoves (h : s.Inv) (rest : List HostMove) : ({ s with hostMoves := rest } : State).Inv :=
  ⟨{ h with reader := { h.reader with }, frame := fun hf => { h.frame hf with } }, h.itemStart⟩

theorem State.Stored.cleared (h : s.Stored) : s.cleared.Stored :=
  { h with
    scanLen := Nat.zero_le _, reader := readerOk_zero rfl, tables := HuffStore.zero_wf, sofAfterSoi := nofun
    scanAfterSof := nofun, frame := nofun, slotsLoaded := nofun }

/-- The invariant after reset (10 R140). -/
theorem resetWith_inv {p : Params} (hp : p.wf) : (State.resetWith p).Inv where
  params := hp
  inMem := ⟨Memory.wf_nil, by simp [State.resetWith, Memory.below]⟩
  outMem := ⟨Memory.wf_nil, by simp [State.resetWith, Memory.below]⟩
  scan := ⟨Memory.wf_nil, by simp [State.resetWith, Memory.below]⟩
  scanLen := Nat.zero_le _
  reader := readerOk_zero rfl
  tables := HuffStore.zero_wf
  itemK := Nat.zero_le 64
  itemRest _ := rfl
  errSet := nofun
  errClear _ := rfl
  sofAfterSoi := nofun
  scanAfterSof := nofun
  frame := nofun
  slotsLoaded := nofun
  input := nofun
  output := nofun
  scanEmpty := nofun
  decoding := nofun
  itemStart := rfl

theorem HostStep.inv {mv : HostMove} (h : HostStep s mv t) (hs : s.Inv) : t.Inv := by
  have hi := hs.toItemInv
  cases h with
  | registers _ n bgr r => exact ⟨hi.hostSide n bgr r, hs.itemStart⟩
  | input off b rest inside =>
    exact ⟨{ hi with
      reader := { hi.reader with }, frame := fun hf => { hi.frame hf with }
      inMem := Memory.Keeps.write _ b inside hi.inMem }, hs.itemStart⟩
  | output off b rest inside =>
    exact ⟨{ hi with
      reader := { hi.reader with }, frame := fun hf => { hi.frame hf with }
      outMem := Memory.Keeps.write _ b inside hi.outMem }, hs.itemStart⟩
  | start v bit rest fits =>
    exact ⟨(hi.hostSide _ _ _).stored.cleared.parsing rfl rfl rfl ⟨fits, Nat.zero_le _⟩ nofun fun _ => rfl, rfl⟩
  | startTooLong v bit rest => exact ⟨(hi.hostSide _ _ _).stored.cleared.raise _ _ _ _, rfl⟩
  | reset => exact (resetWith_inv hi.params).withMoves _

theorem engineStep_inv (hs : s.Inv) (h : engineStep s = .next t) : t.Inv := by
  obtain ⟨hp, h⟩ | ⟨hp, h⟩ := engineStep_cases h
  · exact ⟨h.itemInv hs.toItemInv hp, h.item_start hs.itemStart⟩
  · exact itemsToBoundary_inv hs hp h

/-- What a step can do: the engine's step, of the state with the host's yield taken, or a move of the host (70 R927). -/
theorem step_cases (h : step s = .next t) : ∃ rest, engineStep { s with hostMoves := rest } = .next t ∨
      ∃ mv, s.hostMoves = mv :: rest ∧ HostStep { s with hostMoves := rest } mv t := by
  cases hm : s.hostMoves with
  | nil =>
    rw [step_engine hm] at h
    exact ⟨[], .inl (by rw [← hm]; exact h)⟩
  | cons mv rest =>
    rw [step_host hm] at h
    refine ⟨rest, ?_⟩
    unfold hostStep at h
    split at h
    · exact .inl h
    · exact .inr ⟨mv, rfl, hostTurn_cases h⟩

theorem step_inv (hs : s.Inv) (h : step s = .next t) : t.Inv := by
  obtain ⟨rest, h | ⟨mv, _, h⟩⟩ := step_cases h
  · exact engineStep_inv (hs.withMoves rest) h
  · exact h.inv (hs.withMoves rest)

end Sys2Proof.Machine
end

section
/-! SUPPORT. The obligations about the invariant. -/

namespace Sys2Proof.Machine

/-- Settles O52: each kind of step keeps the invariant, and so does each kind of part of a macroblock. -/
theorem stepKeepsInvariant : Obligations.StepKeepsInvariant :=
  ⟨fun _ _ hs h => step_inv hs h, fun _ _ hs hp h => (itemStep_cases h).itemInv hs hp⟩

/-- Settles O51, from the invariant after reset with any parameters that meet their constraints. -/
theorem resetMeetsInvariant : Obligations.ResetMeetsInvariant :=
  ⟨resetWith_inv (by decide), fun _ hp => resetWith_inv hp⟩

end Sys2Proof.Machine
end

section
/-! SUPPORT. The DC predictors grow by at most 2047 with each block of their component. -/

namespace Sys2Proof.Machine

open Sys2Proof.Claims

variable {s t u : State}

/-- The blocks of the macroblock in progress whose DC item is done. -/
def State.blocksHere (s : State) : Nat := s.item.blk.val + (if s.item.k = 0 then 0 else 1)

/-- The macroblocks decoded before the one in progress. -/
def State.macroblocksDone (s : State) : Nat := s.seq.y.toNat * s.seq.cols.toNat + s.seq.x.toNat

/-- The blocks of component `c` among the first `n` of a macroblock (48 R704). -/
def blocksAmong (n : Nat) : Fin 3 → Nat
  | 0 => min n 4
  | 1 => min (n - 4) 1
  | 2 => min (n - 5) 1

/-- The blocks of component `c` in a macroblock. -/
def blocksPer (c : Fin 3) : Nat := if c = 0 then 4 else 1

theorem State.blocksDone_eq (s : State) (c : Fin 3) :
    s.blocksDone c = blocksPer c * s.macroblocksDone + blocksAmong s.blocksHere c := by
  match c with
  | 0 => rfl
  | 1 => exact congrArg (· + _) (Nat.one_mul _).symm
  | 2 => exact congrArg (· + _) (Nat.one_mul _).symm

theorem blocksAmong_mono {m n : Nat} (h : m ≤ n) (c : Fin 3) : blocksAmong m c ≤ blocksAmong n c := by
  match c with
  | 0 | 1 | 2 => simp only [blocksAmong]; omega

theorem blocksAmong_six (c : Fin 3) : blocksAmong 6 c = blocksPer c := by revert c; decide

/-- A block adds one to the count of its component. -/
theorem blocksAmong_succ (b : Fin 6) : blocksAmong (b.val + 1) (comp b) = blocksAmong b.val (comp b) + 1 := by
  revert b; decide

/-- The grid has too few blocks for a predictor to overflow (10 R121). -/
theorem State.blocksDone_lt (s : State) (c : Fin 3) : s.blocksDone c < 2 ^ 35 := by
  have hy := s.seq.y.isLt
  have hc := s.seq.cols.isLt
  have hx := s.seq.x.isLt
  have hm : s.seq.y.toNat * s.seq.cols.toNat ≤ 2 ^ 16 * 2 ^ 16 := Nat.mul_le_mul hy.le hc.le
  have ha : blocksAmong s.blocksHere c ≤ 4 := by
    match c with
    | 0 | 1 | 2 => simp only [blocksAmong]; omega
  rw [State.blocksDone_eq]
  unfold blocksPer State.macroblocksDone
  split <;> omega

/-- The predictors stay within their bounds where no count of blocks falls. -/
theorem State.predictorsBounded.mono (h : s.predictorsBounded) (hp : s.phase = .decode) (hpred : t.pred = s.pred)
    (hc : ∀ c, s.blocksDone c ≤ t.blocksDone c) : t.predictorsBounded := fun _ c => by
  have h1 := h hp c
  have h2 := hc c
  rw [hpred]; omega

theorem State.blocksDone_mono (hseq : t.seq = s.seq) (h : s.blocksHere ≤ t.blocksHere) (c : Fin 3) :
    s.blocksDone c ≤ t.blocksDone c := by
  rw [State.blocksDone_eq, State.blocksDone_eq, State.macroblocksDone, State.macroblocksDone, hseq]
  exact Nat.add_le_add_left (blocksAmong_mono h c) _

/-- A sum that a 64-bit value holds is exact (10 R121). -/
theorem S64.natAbs_add_ofInt_le {x : S64} {d : Int} {a b : Nat} (hx : x.toInt.natAbs ≤ a) (hd : d.natAbs ≤ b)
    (h : a + b < 2 ^ 63) : (x + BitVec.ofInt 64 d).toInt.natAbs ≤ a + b := by
  rw [BitVec.toInt_add, BitVec.toInt_ofInt, Int.add_bmod_bmod, Int.bmod_eq_of_le (by omega) (by omega)]
  omega

theorem commitDc_pred_same (d : Int) (s : State) :
    (commitDc d s).pred[comp s.item.blk] = s.pred[comp s.item.blk] + BitVec.ofInt 64 d := by simp

theorem commitDc_pred_other (d : Int) {s : State} {c : Fin 3} (hc : c ≠ comp s.item.blk) :
    (commitDc d s).pred[c] = s.pred[c] := by
  have : (comp s.item.blk).val ≠ c.val := fun e => hc (Fin.ext e.symm)
  simp [this]

/-- A DC item adds a difference to the predictor of its component and counts a block of it (44 R552). -/
theorem commitDc_predictorsBounded {d : Int} (h : s.predictorsBounded) (hk : s.item.k = 0) (hd : d.natAbs ≤ 2047) :
    (commitDc d s).predictorsBounded := by
  intro hp c
  have hb := h hp c
  have hbefore : s.blocksHere = s.item.blk.val := by simp [State.blocksHere, hk]
  have hafter : (commitDc d s).blocksHere = s.item.blk.val + 1 := by simp [State.blocksHere]
  by_cases hc : c = comp s.item.blk
  · subst hc
    have hcount : (commitDc d s).blocksDone (comp s.item.blk) = s.blocksDone (comp s.item.blk) + 1 := by
      rw [State.blocksDone_eq, State.blocksDone_eq, hbefore, hafter, blocksAmong_succ]; rfl
    have hlt := s.blocksDone_lt (comp s.item.blk)
    have := S64.natAbs_add_ofInt_le hb hd (by omega)
    rw [commitDc_pred_same, hcount]; omega
  · have := State.blocksDone_mono (s := s) (t := commitDc d s) rfl (by omega) c
    rw [commitDc_pred_other d hc]; omega

/-- The whole macroblock is counted where the next one begins. -/
theorem nextMacroblock_predictorsBounded (h : s.predictorsBounded) (hp : s.phase = .decode)
    (hx : s.seq.x.toNat < s.seq.cols.toNat) (hk : s.item.k ≠ 0) (hb : s.item.blk.val = 5) :
    (nextMacroblock s).predictorsBounded := by
  have hhere : s.blocksHere = 6 := by simp [State.blocksHere, hk, hb]
  have next : ∀ t : State, t.pred = s.pred → t.macroblocksDone = s.macroblocksDone + 1 → t.predictorsBounded :=
    fun t hpred ht => h.mono hp hpred fun c => by
      rw [State.blocksDone_eq, State.blocksDone_eq, hhere, blocksAmong_six, ht, Nat.mul_succ]
      exact Nat.le_add_right _ _
  obtain ⟨hx1, he⟩ | ⟨hx1, hy1, he⟩ | he := nextMacroblock_cases s <;> rw [he]
  · exact next _ rfl (by simp only [State.macroblocksDone, Half.toNat_add_one hx1]; omega)
  · refine next _ rfl ?_
    have hcols : s.seq.cols.toNat = s.seq.x.toNat + 1 := by omega
    simp only [State.macroblocksDone, Half.toNat_add_one hy1, Nat.add_mul, Nat.one_mul]
    change _ + (0 : Half).toNat = _
    have h0 : (0 : Half).toNat = 0 := rfl
    omega
  · nofun

theorem PartStep.predictorsBounded (h : PartStep s t) (hs : s.ItemInv) (hp : s.phase = .decode)
    (hb : s.predictorsBounded) : t.predictorsBounded := by
  cases h with
  | error moved k o m b => nofun
  | dc moved d first small =>
    obtain ⟨r, rfl, _⟩ := moved
    exact commitDc_predictorsBounded (s := { s with br := r }) hb first small
  | ac moved blk k notFirst further last =>
    obtain ⟨r, rfl, _⟩ := moved
    refine hb.mono hp rfl (State.blocksDone_mono rfl ?_)
    have h1 : s.item.k ≠ 0 := by omega
    have h2 : k ≠ 0 := by omega
    simp [State.blocksHere, h1, h2]
  | block complete h =>
    refine hb.mono hp rfl (State.blocksDone_mono rfl ?_)
    have h1 : s.item.k ≠ 0 := by omega
    simp [State.blocksHere, h1]
  | macroblock complete sixth rendered =>
    obtain ⟨blk, m, rfl, _⟩ := rendered
    obtain ⟨_, hx, _⟩ := hs.decoding hp
    exact nextMacroblock_predictorsBounded hb hp hx (by simp only; omega) sixth

/-- Phase 2 begins with the predictors at 0 (48 R701). -/
theorem enterDecode_predictorsBounded (s : State) : (enterDecode s).predictorsBounded := fun _ c => by
  have : (enterDecode s).pred[c].toInt.natAbs = 0 := by
    change (predZero[c]).toInt.natAbs = 0
    revert c; decide
  omega

theorem ParseStep.predictorsBounded (h : ParseStep s t) (hp : s.phase = .parse) : t.predictorsBounded := by
  cases h with
  | error parsed k o m b => nofun
  | marker parsed fits noScan => intro ht; rw [parsed.parseFrame.phase, hp] at ht; cases ht
  | scan sh sof first slots appended =>
    obtain ⟨pc, m, n, rfl, _⟩ := appended
    intro ht; rw [show s.phase = .decode from ht] at hp; cases hp
  | decode pc cursor scanned => exact enterDecode_predictorsBounded _

theorem engineStep_predictorsBounded (hs : s.ItemInv) (hb : s.predictorsBounded) (h : engineStep s = .next t) :
    t.predictorsBounded := by
  obtain ⟨hp, h⟩ | ⟨hp, h⟩ := engineStep_cases h
  · exact h.predictorsBounded hp
  · have keeps : ∀ s t : State, s.ItemInv ∧ s.predictorsBounded → s.phase = .decode → itemStep s = .next t →
        t.ItemInv ∧ t.predictorsBounded := fun _ _ ⟨hs, hb⟩ hp h =>
      ⟨(itemStep_cases h).itemInv hs hp, (itemStep_cases h).predictorsBounded hs hp hb⟩
    exact (itemsToBoundary_keeps keeps _ ⟨hs, hb⟩ hp h).2

/-- The host starts no phase 2 and touches no predictor in it. -/
theorem HostStep.predictorsBounded {mv : HostMove} (h : HostStep s mv t) (hb : s.predictorsBounded) :
    t.predictorsBounded := by
  cases h with
  | registers _ n bgr r => exact hb
  | input off b rest inside => exact hb
  | output off b rest inside => exact hb
  | start v bit rest fits => nofun
  | startTooLong v bit rest => nofun
  | reset => nofun

/-- Settles O54: each DC item adds at most 2047 to one predictor and counts one block of its component. -/
theorem predictorsStayBounded : Obligations.PredictorsStayBounded := by
  refine ⟨fun s t hs hb h => ?_, fun s t hs hp hb h => (itemStep_cases h).predictorsBounded hs hp hb⟩
  obtain ⟨rest, h | ⟨mv, _, h⟩⟩ := step_cases h
  · exact engineStep_predictorsBounded (hs.withMoves rest).toItemInv hb h
  · exact h.predictorsBounded hb

end Sys2Proof.Machine
end

section
/-! SUPPORT. What a decode keeps, and the moves of PHASE. -/

namespace Sys2Proof.Machine

open Sys2Proof.Claims

variable {s t u : State}

/-- What a decode has accepted stays: the frame once SOF0 is accepted, the tables and the scan once it is extracted. -/
structure Accepted (s t : State) : Prop where
  frame : s.seenSof = true →
    t.seenSof = true ∧ t.fh = s.fh ∧ t.regs = s.regs ∧ t.seq.cols = s.seq.cols ∧ t.seq.rows = s.seq.rows
  scan : s.scanDone = true →
    t.scanDone = true ∧ t.qt = s.qt ∧ t.ht = s.ht ∧ t.sh = s.sh ∧ t.scan = s.scan ∧ t.scanLen = s.scanLen

theorem Accepted.trans (h : Accepted s t) (h' : Accepted t u) : Accepted s u := by
  refine ⟨fun hs => ?_, fun hs => ?_⟩
  · obtain ⟨ht, hfh, hregs, hcols, hrows⟩ := h.frame hs
    obtain ⟨hu, hfh', hregs', hcols', hrows'⟩ := h'.frame ht
    exact ⟨hu, hfh'.trans hfh, hregs'.trans hregs, hcols'.trans hcols, hrows'.trans hrows⟩
  · obtain ⟨ht, hqt, hht, hsh, hscan, hlen⟩ := h.scan hs
    obtain ⟨hu, hqt', hht', hsh', hscan', hlen'⟩ := h'.scan ht
    exact ⟨hu, hqt'.trans hqt, hht'.trans hht, hsh'.trans hsh, hscan'.trans hscan, hlen'.trans hlen⟩

/-- The other fields are free. -/
theorem Accepted.unrelated {err : ErrRecord} {phase : Phase} {pc : Word} {br : BitReader} {pred : Vector S64 3}
    {blk : Vector Block 6} {x y : Half} {m : Memory} {item : Item} :
    Accepted s { s with
      err := err, phase := phase, pc := pc, br := br, pred := pred, blk := blk, seq := { s.seq with x := x, y := y }
      outMem := m, item := item } :=
  ⟨fun h => ⟨h, rfl, rfl, rfl, rfl⟩, fun h => ⟨h, rfl, rfl, rfl, rfl, rfl⟩⟩

theorem Parsed.accepted (h : Parsed s u) : Accepted s u := by
  cases h with
  | soi first room => exact ⟨fun h => ⟨h, rfl, rfl, rfl, rfl⟩, fun h => ⟨h, rfl, rfl, rfl, rfl, rfl⟩⟩
  | tables loaded keep =>
    obtain ⟨pc, q, h, rfl, _⟩ := loaded
    refine ⟨fun h => ⟨h, rfl, rfl, rfl, rfl⟩, fun hd => ?_⟩
    obtain ⟨hq, hh⟩ := keep hd
    exact ⟨hd, hq, hh, rfl, rfl, rfl⟩
  | frame fh pc soi first accepted cursor =>
    exact ⟨fun hs => (by rw [first] at hs; cases hs), fun hd => ⟨hd, rfl, rfl, rfl, rfl, rfl⟩⟩
  | scan sh sof first appended =>
    obtain ⟨pc, m, n, rfl, _⟩ := appended
    exact ⟨fun hs => ⟨hs, rfl, rfl, rfl, rfl⟩, fun hd => (by rw [first] at hd; cases hd)⟩

theorem ParseStep.accepted (h : ParseStep s t) : Accepted s t := by
  cases h with
  | error parsed k o m b => exact parsed.accepted.trans .unrelated
  | marker parsed fits noScan => exact parsed.accepted
  | scan sh sof first slots appended =>
    obtain ⟨pc, m, n, rfl, _⟩ := appended
    exact ⟨fun hs => ⟨hs, rfl, rfl, rfl, rfl⟩, fun hd => (by rw [first] at hd; cases hd)⟩
  | decode pc cursor scanned => exact .unrelated

/-- A part of a macroblock writes nothing that a decode has accepted. -/
theorem PartStep.accepted (h : PartStep s t) : Accepted s t := by
  cases h with
  | error moved k o m b => obtain ⟨r, rfl, _⟩ := moved; exact .unrelated
  | dc moved d first small => obtain ⟨r, rfl, _⟩ := moved; exact .unrelated
  | ac moved blk k notFirst further last => obtain ⟨r, rfl, _⟩ := moved; exact .unrelated
  | block complete h => exact .unrelated
  | macroblock complete sixth rendered =>
    obtain ⟨blk, m, rfl, _⟩ := rendered
    obtain ⟨_, he⟩ | ⟨_, _, he⟩ | he := nextMacroblock_cases { s with blk := blk, outMem := m } <;> rw [he] <;>
      exact .unrelated

theorem engineStep_accepted (h : engineStep s = .next t) : Accepted s t := by
  obtain ⟨_, h⟩ | ⟨hp, h⟩ := engineStep_cases h
  · exact h.accepted
  · exact itemsToBoundary_keeps (P := Accepted s) (fun _ _ hu _ h => hu.trans (itemStep_cases h).accepted) _
      (⟨fun h => ⟨h, rfl, rfl, rfl, rfl⟩, fun h => ⟨h, rfl, rfl, rfl, rfl, rfl⟩⟩) hp h

theorem component_eq_comp (b : Fin 6) : component b = comp b := by revert b; decide

/-- A part of a macroblock leaves the predictors of the other components alone (48 R706). -/
theorem PartStep.pred_other (h : PartStep s t) {c : Fin 3} (hc : c ≠ comp s.item.blk) : t.pred[c] = s.pred[c] := by
  cases h with
  | error moved k o m b => obtain ⟨r, rfl, _⟩ := moved; rfl
  | dc moved d first small => obtain ⟨r, rfl, _⟩ := moved; exact commitDc_pred_other d hc
  | ac moved blk k notFirst further last => obtain ⟨r, rfl, _⟩ := moved; rfl
  | block complete h => rfl
  | macroblock complete sixth rendered =>
    obtain ⟨blk, m, rfl, _⟩ := rendered
    obtain ⟨_, he⟩ | ⟨_, _, he⟩ | he := nextMacroblock_cases { s with blk := blk, outMem := m } <;> simp only [he]

/-- Settles O56, from what each kind of engine step and of part leaves alone. -/
theorem acceptedDataStays : Obligations.AcceptedDataStays := by
  refine ⟨fun s t hm h => ?_, fun s t h c hc => ?_⟩
  · rw [step_engine hm] at h
    have ha := engineStep_accepted h
    exact ⟨fun hs => (ha.frame hs).2, fun hs => (ha.scan hs).2⟩
  · exact (itemStep_cases h).pred_other (component_eq_comp _ ▸ hc)

/-! ## The moves of PHASE -/

theorem ParseStep.phase (h : ParseStep s t) (hp : s.phase = .parse) :
    t.phase = .parse ∨ t.phase = .decode ∨ t.phase = .error := by
  cases h with
  | error parsed k o m b => exact .inr (.inr rfl)
  | marker parsed fits noScan => exact .inl (parsed.parseFrame.phase.trans hp)
  | scan sh sof first slots appended =>
    obtain ⟨pc, m, n, rfl, _⟩ := appended
    exact .inl hp
  | decode pc cursor scanned => exact .inr (.inl rfl)

theorem PartStep.phase (h : PartStep s t) (hp : s.phase = .decode) :
    t.phase = .decode ∨ t.phase = .done ∨ t.phase = .error := by
  cases h with
  | error moved k o m b => exact .inr (.inr rfl)
  | dc moved d first small => obtain ⟨r, rfl, _⟩ := moved; exact .inl hp
  | ac moved blk k notFirst further last => obtain ⟨r, rfl, _⟩ := moved; exact .inl hp
  | block complete h => exact .inl hp
  | macroblock complete sixth rendered =>
    obtain ⟨blk, m, rfl, _⟩ := rendered
    obtain ⟨_, he⟩ | ⟨_, _, he⟩ | he := nextMacroblock_cases { s with blk := blk, outMem := m } <;> rw [he]
    · exact .inl hp
    · exact .inl hp
    · exact .inr (.inl rfl)

theorem macroblock_phase (hp : s.phase = .decode) (h : itemsToBoundary macroblockItems s = .next t) :
    t.phase = .decode ∨ t.phase = .done ∨ t.phase = .error :=
  itemsToBoundary_keeps (P := fun t => t.phase = .decode ∨ t.phase = .done ∨ t.phase = .error)
    (fun _ _ _ hp h => (itemStep_cases h).phase hp) _ (.inl hp) hp h

theorem HostStep.phase {mv : HostMove} (h : HostStep s mv t) :
    t.phase = s.phase ∨ mv = .reset ∧ t.phase = .idle ∨
      ∃ v : Word, mv = .writeReg 0x00 v ∧ v.getLsbD 0 = true ∧ s.busy = false ∧ (t.phase = .parse ∨ t.phase = .error) := by
  cases h with
  | registers _ n bgr r => exact .inl rfl
  | input off b rest inside => exact .inl rfl
  | output off b rest inside => exact .inl rfl
  | start v bit rest fits => exact .inr (.inr ⟨v, rfl, bit, rest, .inl rfl⟩)
  | startTooLong v bit rest => exact .inr (.inr ⟨v, rfl, bit, rest, .inr rfl⟩)
  | reset => exact .inr (.inl ⟨rfl, rfl⟩)

/-- Settles O57, from the phase each kind of step ends in. -/
theorem phaseMoves : Obligations.PhaseMoves := by
  refine fun s t h => ⟨fun hm => ?_, fun mv rest hm hmv => ?_⟩
  · rw [step_engine hm] at h
    obtain ⟨hp, h⟩ | ⟨hp, h⟩ := engineStep_cases h
    · exact ⟨fun _ => h.phase hp, fun hd => (by rw [hp] at hd; cases hd), s.busy_iff.2 (.inl hp)⟩
    · exact ⟨fun hd => (by rw [hp] at hd; cases hd), fun _ => macroblock_phase hp h, s.busy_iff.2 (.inr hp)⟩
  · rw [step_host hm, hostStep_move hmv] at h
    exact (hostTurn_cases h).phase

end Sys2Proof.Machine
end

section
/-! SUPPORT. The registers: after reset, STATUS, and the host's reads. -/

namespace Sys2Proof.Machine

theorem resetWith_readReg (p : Params) (off : Nat) : (State.resetWith p).readReg off = 0 := by
  unfold State.readReg
  split <;> simp [State.resetWith, HostRegs.zero, ErrRecord.zero, State.status]

/-- Settles O10: the reset state holds each value of the table. -/
theorem resetTable : Obligations.ResetTable := by
  intro p
  refine ⟨rfl, rfl, rfl, rfl, rfl, rfl, rfl, rfl, rfl, fun slot i => ⟨?_, ?_⟩, fun tc th idx => ?_, rfl, rfl, fun c => ?_,
    rfl, rfl, rfl, resetWith_readReg p⟩
  · change (QuantStore.zero.vals[slot])[i] = 0
    simp [QuantStore.zero, QuantSlot.zero]
  · change QuantStore.zero.valid[slot] = false
    simp [QuantStore.zero]
  · change (HuffStore.zero.get tc th).entry idx = (0, 0)
    rw [HuffStore.get_zero, HuffTable.entry_nil]
  · change predZero[c] = 0
    revert c; decide

/-- Which bits of STATUS are set (10 R127). -/
theorem State.status_bit (s : State) (i : Nat) : s.status.getLsbD i = true ↔
    i = 0 ∧ (s.phase = .parse ∨ s.phase = .decode) ∨ i = 1 ∧ s.phase = .done ∨ i = 2 ∧ s.phase = .error := by
  have one : ∀ j < 32, (BitVec.twoPow 32 j).getLsbD i = true ↔ i = j := fun j hj => by
    simp only [BitVec.getLsbD_twoPow, Bool.and_eq_true, decide_eq_true_eq]; omega
  cases hp : s.phase <;> unfold State.status <;> simp only [hp]
  case idle => simp
  case parse => exact (one 0 (by decide)).trans (by simp)
  case decode => exact (one 0 (by decide)).trans (by simp)
  case done => exact (one 1 (by decide)).trans (by simp)
  case error => exact (one 2 (by decide)).trans (by simp)

/-- Settles O12: each bit of STATUS is set in its own phases, and these are disjoint. -/
theorem statusMirrorsPhase : Obligations.StatusMirrorsPhase := by
  intro s v
  have bit : ∀ i, v.getLsbD i = true ↔ _ := s.status_bit
  refine ⟨?_, ?_, ?_, fun i hi => ?_, fun i j hi hj => ?_, ?_⟩
  · rw [bit]; simp
  · rw [bit]; simp
  · rw [bit]; simp
  · rw [← Bool.not_eq_true, bit]; omega
  · rw [bit] at hi hj
    cases hp : s.phase <;> simp [hp] at hi hj <;> omega
  · change s.status = 0 ↔ _
    unfold State.status
    cases s.phase <;> decide

/-- Reserved bits and unmapped offsets read 0 (10 R135). -/
theorem State.readReg_unmapped (s : State) {off : Nat} (h : 0x30 ≤ off) : s.readReg off = 0 := by
  unfold State.readReg
  split
  case h_13 => rfl
  all_goals omega

/-- Settles O13: the step answers the register's value, which each offset gives. -/
theorem registerReads : Obligations.RegisterReads := by
  intro s off rest hm ha hl
  refine ⟨s.readReg off, ?_, ?_, ?_, ?_, ?_, ?_, ?_, ?_, ?_, ?_, ?_, ?_, ?_, s.readReg_unmapped⟩
  · rw [step_host hm, hostStep_move (by simp)]
    change (if registerOffset off then Host.Outcome.next _ else .refused _) = _
    rw [if_pos ⟨ha, hl⟩]
    rfl
  all_goals rintro rfl
  · change (if s.regs.ctrlBgr then (2 : Word) else 0).toNat = _
    cases s.regs.ctrlBgr <;> rfl
  · change s.status.toNat = _
    unfold State.status
    cases s.phase <;> rfl
  · rfl
  · exact BitVec.toNat_setWidth_of_le (by decide)
  · rfl
  · exact BitVec.toNat_setWidth_of_le (by decide)
  · exact BitVec.toNat_setWidth_of_le (by decide)
  · exact BitVec.toNat_setWidth_of_le (by decide)
  · exact BitVec.toNat_setWidth_of_le (by decide)
  · rfl
  · exact BitVec.extractLsb'_toNat 0 32 _
  · refine (BitVec.extractLsb'_toNat 32 32 _).trans ?_
    have hlt := s.regs.outLen.isLt
    rw [Nat.shiftRight_eq_div_pow]; omega

end Sys2Proof.Machine
end

section
/-! SUPPORT. What no step of the engine writes. -/

namespace Sys2Proof.Machine

variable {s t u : State} {lim : Nat}

/-- The engine has left alone what is not its own: IN, OUT from offset `lim` on, the host's side, what START latched, and
the parameters. Registers of the engine are free. -/
structure OutsideKept (lim : Nat) (s t : State) : Prop where
  params : t.params = s.params
  inMem : t.inMem = s.inMem
  inLenL : t.inLenL = s.inLenL
  bgrL : t.bgrL = s.bgrL
  inLen : t.regs.inLen = s.regs.inLen
  ctrlBgr : t.regs.ctrlBgr = s.regs.ctrlBgr
  rdata : t.rdata = s.rdata
  hostMoves : t.hostMoves = s.hostMoves
  beyond : ∀ a, lim ≤ a → t.outMem.read a = s.outMem.read a

theorem outsideKept_writeSet (lim : Nat) : WriteSet (OutsideKept lim) where
  refl _ := ⟨rfl, rfl, rfl, rfl, rfl, rfl, rfl, rfl, fun _ _ => rfl⟩
  trans h h' :=
    { params := h'.params.trans h.params
      inMem := h'.inMem.trans h.inMem
      inLenL := h'.inLenL.trans h.inLenL
      bgrL := h'.bgrL.trans h.bgrL
      inLen := h'.inLen.trans h.inLen
      ctrlBgr := h'.ctrlBgr.trans h.ctrlBgr
      rdata := h'.rdata.trans h.rdata
      hostMoves := h'.hostMoves.trans h.hostMoves
      beyond := fun a ha => (h'.beyond a ha).trans (h.beyond a ha) }

/-- The engine's own registers and buffers are free, and of OUT the bytes below `lim`. -/
theorem OutsideKept.ofOwn {width height : Half} {stride : Word} {outLen : BitVec 64} {err : ErrRecord} {phase : Phase}
    {pc : Word} {soi sof scanned : Bool} {fh : FrameHeader} {sh : ScanHeader} {qt : QuantStore} {ht : HuffStore}
    {scan : Memory} {scanLen : Word} {br : BitReader} {pred : Vector S64 3} {blk : Vector Block 6} {seq : Sequencer}
    {m : Memory} {item : Item} (hm : ∀ a, lim ≤ a → m.read a = s.outMem.read a) :
    OutsideKept lim s { s with
      regs := { s.regs with width := width, height := height, stride := stride, outLen := outLen }
      err := err, phase := phase, pc := pc, seenSoi := soi, seenSof := sof, scanDone := scanned, fh := fh, sh := sh
      qt := qt, ht := ht, scan := scan, scanLen := scanLen, br := br, pred := pred, blk := blk, seq := seq, outMem := m
      item := item } :=
  ⟨rfl, rfl, rfl, rfl, rfl, rfl, rfl, rfl, hm⟩

/-- A raise writes the error record and ends the part (60 R802). -/
theorem OutsideKept.raise (h : OutsideKept lim s u) (k : ErrKind) (o : Nat) (m : Byte) (b : Option Byte) :
    OutsideKept lim s (u.raise k o m b) :=
  (outsideKept_writeSet lim).trans h (.ofOwn fun _ _ => rfl)

/-! ## PARSE: no byte of OUT is written -/

theorem Parsed.outsideKept (h : Parsed s u) : OutsideKept lim s u := by
  cases h with
  | soi first room => exact .ofOwn fun _ _ => rfl
  | tables loaded keep => obtain ⟨pc, q, h, rfl, _⟩ := loaded; exact .ofOwn fun _ _ => rfl
  | frame fh pc soi first accepted cursor => exact .ofOwn fun _ _ => rfl
  | scan sh sof first appended => obtain ⟨pc, m, n, rfl, _⟩ := appended; exact .ofOwn fun _ _ => rfl

theorem ParseStep.outsideKept (h : ParseStep s t) : OutsideKept lim s t := by
  cases h with
  | error parsed k o m b => exact parsed.outsideKept.raise k o m b
  | marker parsed fits noScan => exact parsed.outsideKept
  | scan sh sof first slots appended => obtain ⟨pc, m, n, rfl, _⟩ := appended; exact .ofOwn fun _ _ => rfl
  | decode pc cursor scanned => exact .ofOwn fun _ _ => rfl

/-! ## DECODE: OUT_LEN stays, and OUT is written below it -/

theorem nextMacroblock_outsideKept (u : State) :
    OutsideKept lim u (nextMacroblock u) ∧ (nextMacroblock u).regs = u.regs := by
  obtain ⟨_, he⟩ | ⟨_, _, he⟩ | he := nextMacroblock_cases u <;> rw [he] <;> exact ⟨.ofOwn fun _ _ => rfl, rfl⟩

/-- A part of a macroblock writes OUT below OUT_LEN alone, and neither OUT_LEN nor another register of `regs`. -/
theorem PartStep.outsideKept (h : PartStep s t) : OutsideKept s.regs.outLen.toNat s t ∧ t.regs = s.regs := by
  cases h with
  | error moved k o m b => obtain ⟨r, rfl, _⟩ := moved; exact ⟨.ofOwn fun _ _ => rfl, rfl⟩
  | dc moved d first small => obtain ⟨r, rfl, _⟩ := moved; exact ⟨.ofOwn fun _ _ => rfl, rfl⟩
  | ac moved blk k notFirst further last => obtain ⟨r, rfl, _⟩ := moved; exact ⟨.ofOwn fun _ _ => rfl, rfl⟩
  | block complete h => exact ⟨.ofOwn fun _ _ => rfl, rfl⟩
  | macroblock complete sixth rendered =>
    obtain ⟨blk, m, rfl, hm⟩ := rendered
    obtain ⟨hkept, hregs⟩ := nextMacroblock_outsideKept { s with blk := blk, outMem := m }
    exact ⟨(outsideKept_writeSet _).trans (.ofOwn hm.beyond) hkept, hregs⟩

/-- A whole macroblock: since each part keeps the registers, one bound of OUT serves all of them. -/
theorem macroblock_outsideKept (hp : s.phase = .decode) (h : itemsToBoundary macroblockItems s = .next t) :
    OutsideKept s.regs.outLen.toNat s t := by
  have hw := outsideKept_writeSet s.regs.outLen.toNat
  refine (itemsToBoundary_keeps (P := fun u => OutsideKept s.regs.outLen.toNat s u ∧ u.regs = s.regs) ?_ _
    ⟨hw.refl s, rfl⟩ hp h).1
  intro u v ⟨hu, hr⟩ _ hv
  obtain ⟨hkept, hregs⟩ := (itemStep_cases hv).outsideKept
  rw [hr] at hkept hregs
  exact ⟨hw.trans hu hkept, hregs⟩

/-- Settles O55: in PARSE OUT is not written, in DECODE below OUT_LEN alone, and the rest is no part's to write. -/
theorem engineStepFrame : Obligations.EngineStepFrame := by
  intro s t hm h
  rw [step_engine hm] at h
  have hk : OutsideKept s.regs.outLen.toNat s t := by
    obtain ⟨_, h⟩ | ⟨hp, h⟩ := engineStep_cases h
    · exact h.outsideKept
    · exact macroblock_outsideKept hp h
  obtain ⟨hparams, hin, hinLenL, hbgrL, hinLen, hbgr, hrdata, hmoves, hout⟩ := hk
  exact ⟨hparams, hin, hinLenL, hbgrL, hinLen, hbgr, hrdata, hmoves.trans hm, hout⟩

end Sys2Proof.Machine
end

section
/-! SUPPORT. What the decoder reads: the maps of 30 R340 to R342, the scan pair, and the host's write, in both
directions. -/

namespace Sys2Proof

/-! ## The container map (30 R340) -/

theorem decode_appn (n : BitVec 4) : decode (.marker (markerWord 0xFF (0xE#4 ++ n))) = .ok (.appn n) := by
  revert n; decide +kernel

theorem decode_unsupRst (n : BitVec 3) : decode (.marker (markerWord 0xFF (0x1A#5 ++ n))) = .ok (.unsupRst n) := by
  revert n; decide +kernel

section marker
variable {m : Byte}

theorem decode_unsupSof1to3 (h : 0xC1 ≤ m ∧ m ≤ 0xC3) :
    decode (.marker (markerWord 0xFF m)) = .ok (.unsupSof1to3 m) := by
  revert m; decide +kernel

theorem decode_unsupSof5to7 (h : 0xC5 ≤ m ∧ m ≤ 0xC7) :
    decode (.marker (markerWord 0xFF m)) = .ok (.unsupSof5to7 m) := by
  revert m; decide +kernel

theorem decode_unsupSof9to11 (h : 0xC9 ≤ m ∧ m ≤ 0xCB) :
    decode (.marker (markerWord 0xFF m)) = .ok (.unsupSof9to11 m) := by
  revert m; decide +kernel

theorem decode_unsupSof13to15 (h : 0xCD ≤ m ∧ m ≤ 0xCF) :
    decode (.marker (markerWord 0xFF m)) = .ok (.unsupSof13to15 m) := by
  revert m; decide +kernel

theorem decode_unknownRes (h : 0x02 ≤ m ∧ m ≤ 0xBF) :
    decode (.marker (markerWord 0xFF m)) = .ok (.unknownRes m) := by
  revert m; decide +kernel

theorem decode_unknownJpgn (h : 0xF0 ≤ m ∧ m ≤ 0xFD) :
    decode (.marker (markerWord 0xFF m)) = .ok (.unknownJpgn m) := by
  revert m; decide +kernel

end marker

/-! ## The entropy maps (30 R341, R342) -/

theorem decode_dcDiff {b : Byte} (h : 0x01 ≤ b ∧ b ≤ 0x0B) : decode (.dcSymbol b) = .ok (.dcDiff b) := by
  revert b; decide +kernel

theorem decode_dcInvalid {b : Byte} (h : 0x0C ≤ b) : decode (.dcSymbol b) = .ok (.dcInvalid b) := by
  revert b; decide +kernel

theorem decode_acBadzero {r : BitVec 4} (h : 1 ≤ r ∧ r ≤ 14) :
    decode (.acSymbol (acByte r 0)) = .ok (.acBadzero r) := by
  revert r; decide +kernel

theorem decode_acCoef {r s : BitVec 4} (h : 1 ≤ s ∧ s ≤ 10) : decode (.acSymbol (acByte r s)) = .ok (.acCoef r s) := by
  revert r s; decide +kernel

theorem decode_acBadsize {r s : BitVec 4} (h : 11 ≤ s) : decode (.acSymbol (acByte r s)) = .ok (.acBadsize r s) := by
  revert r s; decide +kernel

/-! ## Every operand at every value -/

/-- Settles O1: the map of each context gives the instruction of each encoding, over the range `wf` gives its
operand. -/
theorem decodeOfEncodeIsIdentity : Obligations.DecodeOfEncodeIsIdentity := by
  intro i h
  cases i with
  | appn n => exact decode_appn n
  | unsupRst n => exact decode_unsupRst n
  | unsupSof1to3 m => exact decode_unsupSof1to3 (by simpa [Instr.wf] using h)
  | unsupSof5to7 m => exact decode_unsupSof5to7 (by simpa [Instr.wf] using h)
  | unsupSof9to11 m => exact decode_unsupSof9to11 (by simpa [Instr.wf] using h)
  | unsupSof13to15 m => exact decode_unsupSof13to15 (by simpa [Instr.wf] using h)
  | unknownRes m => exact decode_unknownRes (by simpa [Instr.wf] using h)
  | unknownJpgn m => exact decode_unknownJpgn (by simpa [Instr.wf] using h)
  | dcDiff s => exact decode_dcDiff (by simpa [Instr.wf] using h)
  | dcInvalid s => exact decode_dcInvalid (by simpa [Instr.wf] using h)
  | acBadzero r => exact decode_acBadzero (by simpa [Instr.wf] using h)
  | acCoef r s => exact decode_acCoef (by simpa [Instr.wf] using h)
  | acBadsize r s => exact decode_acBadsize (by simpa [Instr.wf] using h)
  | hostStart v => exact (decode_hostWrite ctrlOffset v).trans (if_pos ⟨rfl, h⟩)
  | soi | com | dqt | dht | sof0 | sos | eoi | unsupDac | unsupDnl | unsupDri | unsupDhp | unsupExp | unsupTem
  | unknown00 | unknownJpg | unknownFill | scanStuff | dcZero | eob | zrl => rfl

/-- Settles O3: a code that stands alone decodes by computation, and each range has its lemma. -/
theorem markerCodeMap : Obligations.MarkerCodeMap := by
  intro m
  refine ⟨?soi, ?appn, ?com, ?dqt, ?dht, ?sof0, ?sos, ?eoi, decode_unsupSof1to3, decode_unsupSof5to7,
    decode_unsupSof9to11, decode_unsupSof13to15, ?dac, ?rst, ?dnl, ?dri, ?dhp, ?exp, ?tem, ?zero, decode_unknownRes,
    ?jpg, decode_unknownJpgn, ?fill⟩
  case appn => rintro n rfl; exact decode_appn n
  case rst => rintro n rfl; exact decode_unsupRst n
  all_goals rintro rfl; rfl

/-- Settles O4: each range of symbols has its lemma. -/
theorem entropySymbolMaps : Obligations.EntropySymbolMaps := by
  refine ⟨fun b => ⟨?_, decode_dcDiff, decode_dcInvalid⟩, fun r s => ⟨?_, ?_, ?_, decode_acCoef, decode_acBadsize⟩⟩
  · rintro rfl; rfl
  · rintro ⟨rfl, rfl⟩; rfl
  · rintro ⟨rfl, rfl⟩; rfl
  · rintro ⟨hl, hu, rfl⟩; exact decode_acBadzero ⟨hl, hu⟩

/-- Settles O5: each word runs through the decoder. -/
theorem writtenWordsDecode : Obligations.WrittenWordsDecode :=
  ⟨rfl, decode_appn 3, rfl, rfl, rfl, rfl, rfl, decode_dcDiff (by decide), decode_acCoef (r := 2) (s := 3) (by decide),
    decode_hostWrite 0 3⟩

/-! ## What is decoded is what was encoded -/

/-- The answer of a context comes from one of its rows, which matches the word. -/
theorem exists_hit_of_readRows {n : Nat} {rows : List (Row n)} {w : BitVec n} {i : Instr} {why : Reject}
    (h : orReject why (readRows rows w) = .ok i) : ∃ r ∈ rows, r.hits w = true ∧ r.read w = i := by
  unfold readRows at h
  cases hr : rows.find? (·.hits w) with
  | none => rw [hr] at h; cases h
  | some r =>
    rw [hr] at h; cases h
    have hits : r.hits w = true := List.find?_some (p := fun r : Row n => r.hits w) hr
    exact ⟨r, List.mem_of_find?_eq_some hr, hits, rfl⟩

/-- The instruction is well-formed, and the code word is its encoding. -/
abbrev Instr.Encodes (i : Instr) (c : Code) : Prop := i.wf = true ∧ encode i = c

/-- Each row of the container map reads a marker it matches as an instruction that encodes to that marker. -/
theorem markerRows_encode : ∀ r ∈ markerRows, ∀ m : Byte, r.hits (markerWord 0xFF m) = true →
    (r.read (markerWord 0xFF m)).Encodes (.marker (markerWord 0xFF m)) := by decide +kernel

theorem dcRows_encode : ∀ r ∈ dcRows, ∀ b : Byte, r.hits b = true → (r.read b).Encodes (.dcSymbol b) := by
  decide +kernel

theorem acRows_encode : ∀ r ∈ acRows, ∀ b : Byte, r.hits b = true → (r.read b).Encodes (.acSymbol b) := by
  decide +kernel

/-- A row whose mask keeps every bit matches its pattern alone. -/
theorem Row.eq_of_hits {n : Nat} {r : Row n} {w : BitVec n} (hm : r.mask = BitVec.allOnes n) (h : r.hits w = true) :
    w = r.pat := by
  simpa [Row.hits, hm] using h

theorem scanRows_encode : ∀ r ∈ scanRows, ∀ w : Half, r.hits w = true → (r.read w).Encodes (.scanPair w) := by
  intro r hr w h
  obtain rfl := List.mem_singleton.1 hr
  obtain rfl : w = 0xFF00 := Row.eq_of_hits rfl h
  exact ⟨rfl, rfl⟩

/-- A marker word is its lead byte and its code byte (30 R300). -/
theorem markerWord_fields (w : Half) : markerWord (field 15 8 w) (field 7 0 w) = w := by
  have h : field 15 8 w ++ field 7 0 w = w.extractLsb' 0 16 :=
    BitVec.extractLsb'_append_extractLsb'_eq_extractLsb' (by decide)
  exact h.trans BitVec.extractLsb'_eq_self

/-- Settles O2: in each context, the row that matched the word reads an instruction that encodes to it. -/
theorem decodedInstrEncodesBack : Obligations.DecodedInstrEncodesBack := by
  intro c i h
  cases c with
  | marker w =>
    change (if field 15 8 w = 0xFF#8 then orReject .noRow (readRows markerRows w) else .error .notALeadByte) = _ at h
    split at h
    · next hl =>
      obtain ⟨r, hr, hw, rfl⟩ := exists_hit_of_readRows h
      have hm := markerWord_fields w
      rw [hl] at hm
      rw [← hm] at hw ⊢
      exact markerRows_encode r hr _ hw
    · cases h
  | scanPair w => obtain ⟨r, hr, hw, rfl⟩ := exists_hit_of_readRows h; exact scanRows_encode r hr w hw
  | dcSymbol b => obtain ⟨r, hr, hw, rfl⟩ := exists_hit_of_readRows h; exact dcRows_encode r hr b hw
  | acSymbol b => obtain ⟨r, hr, hw, rfl⟩ := exists_hit_of_readRows h; exact acRows_encode r hr b hw
  | hostWrite off v =>
    rw [decode_hostWrite] at h
    split at h
    · next hs => obtain ⟨rfl, hv⟩ := hs; cases h; exact ⟨hv, rfl⟩
    · cases h

end Sys2Proof
end

section
/-! SUPPORT. The extend rule and the zigzag map. -/

namespace Sys2Proof.Machine

/-! ## The extend rule (30 R321, R322) -/

/-- The extra bits that stand for `d` in category `n + 1`: a negative value is held as its distance from the least. -/
def extraBits (n : Nat) (d : Int) : Nat := if 0 ≤ d then d.toNat else (d + 2 ^ (n + 1) - 1).toNat

/-- The values of category `n + 1`, the signed range without the dead zone (30 R322). -/
def InCategory (n : Nat) (d : Int) : Prop := 2 ^ n ≤ d.natAbs ∧ d.natAbs ≤ 2 ^ (n + 1) - 1

theorem extend_succ (v n : Nat) : extend v (n + 1) = if v < 2 ^ n then (v : Int) - (2 ^ (n + 1) - 1) else v :=
  if_neg n.succ_ne_zero

/-- The extend rule and its inverse: `extraBits` are the only bits that give `d`, and each `d` of the category
has them. -/
theorem extend_eq_iff (n v : Nat) (d : Int) :
    v < 2 ^ (n + 1) ∧ extend v (n + 1) = d ↔ v = extraBits n d ∧ InCategory n d := by
  have hZ : (2 : Int) ^ (n + 1) = 2 * (2 ^ n : Nat) := by push_cast; ring
  have hN : 2 ^ (n + 1) = 2 * 2 ^ n := by ring
  have hpos := Nat.two_pow_pos n
  rw [extend_succ, extraBits, InCategory, hZ, hN]
  generalize 2 ^ n = half at *
  constructor
  · rintro ⟨hv, hd⟩
    split at hd <;> split <;> omega
  · rintro ⟨hv, hl, hu⟩
    split at hv <;> split <;> omega

/-- Settles O41: by `extend_eq_iff` a value has extra bits exactly when it is in the category, and then one pattern. -/
theorem extendCoversSignedRange : Obligations.ExtendCoversSignedRange := by
  refine ⟨rfl, fun s hs _ => ?_⟩
  obtain ⟨n, rfl⟩ : ∃ n, s = n + 1 := ⟨s - 1, by omega⟩
  refine ⟨fun v _ => extend_succ v n, fun d => ?_⟩
  simp only [extend_eq_iff]
  constructor
  · rintro ⟨v, ⟨_, hc⟩, _⟩; exact hc
  · exact fun hc => ⟨extraBits n d, ⟨rfl, hc⟩, fun _ ⟨hv, _⟩ => hv⟩

/-! ## The zigzag map (30 R330, R331) -/

theorem zz_zzInv : ∀ i : Fin 64, zz (zzInv i) = i := by decide +kernel

theorem zzInv_zz (k : Fin 64) : zzInv (zz k) = k := zz_injective _ _ (zz_zzInv (zz k))

/-- The anti-diagonal of a natural index: its row plus its column. -/
def antiDiagonal (i : Fin 64) : Nat := i.val / 8 + i.val % 8

theorem antiDiagonal_zz_succ : ∀ j : Fin 63, antiDiagonal (zz j.castSucc) ≤ antiDiagonal (zz j.succ) ∧
    antiDiagonal (zz j.succ) ≤ antiDiagonal (zz j.castSucc) + 1 := by decide +kernel

/-- Settles O42: the inverse is the table of the positions, and the anti-diagonal moves as stated from each position
to the next. -/
theorem zigzagIsBijection : Obligations.ZigzagIsBijection := by
  refine ⟨zz_zzInv, zzInv_zz, fun j k h => ?_⟩
  have hj : j.val < 63 := by omega
  obtain rfl : k = Fin.succ ⟨j, hj⟩ := Fin.ext h
  exact antiDiagonal_zz_succ ⟨j, hj⟩

end Sys2Proof.Machine
end

section
/-! SUPPORT. The bit reader: the position law of `peek` and `read`, and what an exhausted SCAN raises. -/

namespace Sys2Proof.Machine

open Sys2Proof.Claims

/-! ## Raising in phase 2 (60 R802) -/

theorem classOf_eq : ∀ b : Fin 6, classOf b = if comp b ≠ 0 then 1 else 0 := by decide

/-- `ERR_TABLE` of a table byte is its number with the valid bit above it. -/
theorem errTable_tableByte : ∀ tc th : Bool, errTable (some (tableByte tc th)) =
    BitVec.ofNat 9 (0x100 + ((if tc then 16 else 0) + if th then 1 else 0)) := by decide

/-- Raising for the table of the current item is the record of a phase-2 error. -/
theorem State.raise_itemTable (s : State) (o : Nat) :
    s.raise .corruptBitstream o 0 (some s.itemTable) =
      corrupt s o ((if s.item.k = 0 then 0 else 16) + classOf s.item.blk) := by
  simp [State.raise, State.itemTable, errTable_tableByte, corrupt, classOf_eq, State.acNext, State.th, ErrKind.code]

/-! ## The position of the reader (41 R405) -/

section position
variable {s t : State} {n v : Nat}

/-- `peek(n)` loads enough bytes. -/
theorem State.le_cnt_add_refills (n : Nat) (s : State) : n ≤ s.br.cnt + 8 * s.refills n := by
  unfold State.refills; omega

/-- A load leaves the position where it was, and consuming `k` of the bits held moves it by `k`. -/
theorem consumed_readerAfter {r k : Nat} (h : s.ReaderOk) (hr : s.br.pos.toNat + r ≤ s.scanLen.toNat)
    (hk : k ≤ s.br.cnt + 8 * r) :
    State.consumed { s with br := s.readerAfter r k } = s.consumed + k := by
  have hh := h.held
  have hpos : (s.readerAfter r k).pos.toNat = s.br.pos.toNat + r :=
    readerAt_pos_toNat _ _ (hr.trans_lt s.scanLen_toNat_lt)
  simp only [State.consumed, hpos]
  simp only [State.readerAfter, readerAt_cnt]
  omega

/-- Loading nothing and consuming nothing leaves the reader as it is. -/
theorem State.ReaderOk.readerAfter_zero (h : s.ReaderOk) : s.readerAfter 0 0 = s.br := h.br_eq.symm

/-- A reader that holds `n` bits peeks them with no load. -/
theorem peek_held (h : s.ReaderOk) (hn : n ≤ 16) (hc : n ≤ s.br.cnt) : peek n s = .ok (s.scan.bits s.consumed n) s := by
  have h0 : s.refills n = 0 := by unfold State.refills; omega
  rw [peek_ok h hn (by rw [State.hasBits, h0]; exact h.pos), h0, h.readerAfter_zero]

/-- `peek(n)` goes on only where SCAN has the bits. -/
theorem hasBits_of_peek (h : s.ReaderOk) (hn : n ≤ 16) (hp : peek n s = .ok v t) : s.hasBits n := by
  by_contra hb
  rw [peek_short h hn hb] at hp
  cases hp

theorem readBits_of_peek (hp : peek n s = .ok v t) : readBits n s = .ok v (dropBits n t) := by
  rw [readBits, hp, Eff.bind_ok]

theorem skip_of_readBits (hr : readBits n s = .ok v t) : skip n s = .ok () t := by
  rw [skip, hr, Eff.bind_ok]

/-- `peek(n)` consumes nothing. -/
theorem consumed_of_peek (h : s.ReaderOk) (hn : n ≤ 16) (hp : peek n s = .ok v t) : t.consumed = s.consumed := by
  have hb := hasBits_of_peek h hn hp
  rw [peek_ok h hn hb] at hp
  cases hp
  exact consumed_readerAfter h hb (Nat.zero_le _)

/-- A second `peek(n)` gives the same value and changes nothing. -/
theorem peek_idem (h : s.ReaderOk) (hn : n ≤ 16) (hp : peek n s = .ok v t) : peek n t = .ok v t := by
  have hb := hasBits_of_peek h hn hp
  have hc := consumed_of_peek h hn hp
  rw [peek_ok h hn hb] at hp
  cases hp
  have hheld : n ≤ (s.readerAfter (s.refills n) 0).cnt := s.le_cnt_add_refills n
  rw [peek_held (readerOk_after h hn hb) hn hheld, hc]

/-- `read(n)` consumes `n` bits. -/
theorem consumed_of_readBits (h : s.ReaderOk) (hn : n ≤ 16) (hr : readBits n s = .ok v t) :
    t.consumed = s.consumed + n := by
  by_cases hb : s.hasBits n
  · rw [readBits_ok h hn hb] at hr
    cases hr
    exact consumed_readerAfter h hb (s.le_cnt_add_refills n)
  · rw [readBits_short h hn hb] at hr
    cases hr

end position

/-- Settles O34: `peek_ok` where SCAN has the bits, `peek_short` where it is exhausted. -/
theorem peekGivesNextBits : Obligations.PeekGivesNextBits := by
  refine fun s n _ hn h => ⟨fun hb => ?_, fun hb => ?_⟩
  · have hp := peek_ok h hn hb
    exact ⟨_, hp, consumed_of_peek h hn hp, readerAt_pos_toNat _ _ (hb.trans_lt s.scanLen_toNat_lt),
      readerOk_after h hn hb⟩
  · have hc := State.raise_itemTable { s with br := s.readerAfter (s.scanLen.toNat - s.br.pos.toNat) 0 } s.scanLen.toNat
    exact ⟨_, (peek_short h hn hb).trans (congrArg Eff.raised hc)⟩

/-- Settles O35: a second `peek` finds the same value and state, so both reads drop the same bits from there. -/
theorem readAfterPeekAgrees : Obligations.ReadAfterPeekAgrees := by
  intro s t n v _ hn h hp
  have hr : readBits n s = .ok v (dropBits n t) := readBits_of_peek hp
  exact ⟨_, readBits_of_peek (peek_idem h hn hp), hr, consumed_of_readBits h hn hr, consumed_of_peek h hn hp,
    skip_of_readBits hr⟩

end Sys2Proof.Machine
end

section
/-! SUPPORT. A marker up to its segment: the order check, the segment header, and what a rejection records. -/

namespace Sys2Proof.Machine

open Sys2Proof.Claims

/-! ## The record of a phase-1 error (60 R802) -/

/-- `ERR_TABLE` of a table byte is its number with the valid bit above it. -/
theorem errTable_some : ∀ b : Byte, errTable (some b) = BitVec.ofNat 9 (0x100 + b.toNat) := by decide +kernel

theorem State.raise_eq_rejected (k : ErrKind) (o : Nat) (m : Byte) (b : Option Byte) (s : State) :
    s.raise k o m b = rejected s k.code o m b := by
  cases b with
  | none => rfl
  | some b => simp only [State.raise, rejected, errTable_some]

theorem Eff.raised_outcome {k : ErrKind} {o : Nat} {m : Byte} {b : Option Byte} {s : State} :
    (Eff.raised (s.raise k o m b)).outcome = .next (rejected s k.code o m b) := by
  rw [Eff.outcome_raised, State.raise_eq_rejected]

/-! ## The order check (42 R430) -/

/-- The code byte of a marker word. -/
theorem field_markerWord : ∀ m : Byte, field 7 0 (markerWord 0xFF m) = m := by decide +kernel

theorem marker_injective {m m' : Byte} (h : Code.marker (markerWord 0xFF m) = .marker (markerWord 0xFF m')) :
    m = m' := by
  have hw := congrArg (field 7 0) (Code.marker.inj h)
  rwa [field_markerWord, field_markerWord] at hw

variable {s : State} {i : Instr} {m : Byte} {k : ErrKind}

/-- Every marker begins with the order check (42 R420, R430). -/
theorem exec_eq_checkOrder (h : hasCode i m) :
    ∃ f : Unit → State → Eff Unit, exec i s = ((checkOrder m s).bind f).outcome := by
  obtain ⟨_, hc⟩ := h
  cases i with
  | soi | appn | com | dqt | dht | sof0 | sos | eoi | unsupSof1to3 | unsupSof5to7 | unsupSof9to11 | unsupSof13to15
  | unsupDac | unsupRst | unsupDnl | unsupDri | unsupDhp | unsupExp | unsupTem | unknown00 | unknownRes | unknownJpg
  | unknownJpgn | unknownFill => obtain rfl := marker_injective hc; exact ⟨_, rfl⟩
  | scanStuff | dcZero | dcDiff | dcInvalid | eob | zrl | acBadzero | acCoef | acBadsize | hostStart => cases hc

/-- A marker that fails the order check raises at its own offset. -/
theorem exec_of_orderError (h : hasCode i m) (hk : orderError m s = some k) :
    exec i s = .next (rejected s k.code s.pc.toNat m none) := by
  obtain ⟨f, hf⟩ := exec_eq_checkOrder (s := s) h
  rw [hf, checkOrder_bad hk, Eff.bind_raised, Eff.raised_outcome]

theorem orderError_beforeSoi (h : s.seenSoi = false) (hm : m ≠ 0xD8) : orderError m s = some .malformedContainer :=
  if_pos ⟨h, hm⟩

/-- The order check once SOI has been seen, for a marker other than SOI. -/
theorem orderError_afterSoi (h : s.seenSoi = true) (hm : m ≠ 0xD8) : orderError m s =
    if isUnsupported m then some .unsupportedFeature
    else if isUnknown m then some .unknownMarker
    else if m = 0xC0 ∧ s.seenSof = true then some .malformedContainer
    else if m = 0xDA ∧ s.seenSof = false then some .malformedContainer
    else if m = 0xDA ∧ s.scanDone = true then some .unsupportedFeature
    else if (m = 0xDB ∨ m = 0xC4) ∧ s.scanDone = true then some .unsupportedFeature
    else if m = 0xD9 ∧ s.scanDone = false then some .malformedContainer
    else none := by
  rw [orderError, if_neg (by simp [h]), if_neg fun hc => hm hc.2]

theorem orderError_secondSoi (h : s.seenSoi = true) : orderError 0xD8 s = some .malformedContainer := by
  simp [orderError, h]

theorem orderError_unsupported (h : s.seenSoi = true) (hu : isUnsupported m = true) :
    orderError m s = some .unsupportedFeature := by
  have hm : m ≠ 0xD8 := by rintro rfl; cases hu
  rw [orderError_afterSoi h hm, if_pos hu]

/-- No code is both unsupported and unknown (30 R340). -/
theorem isUnsupported_of_isUnknown : ∀ m : Byte, isUnknown m = true → isUnsupported m = false := by decide +kernel

theorem orderError_unknown (h : s.seenSoi = true) (hu : isUnknown m = true) :
    orderError m s = some .unknownMarker := by
  have hm : m ≠ 0xD8 := by rintro rfl; cases hu
  rw [orderError_afterSoi h hm, isUnsupported_of_isUnknown m hu, if_neg Bool.false_ne_true, if_pos hu]

/-- Settles O19: a marker that fails the order check raises the error of the check, and each clause is one check. -/
theorem markerOrderCheck : Obligations.MarkerOrderCheck := by
  intro s i m hi
  refine ⟨fun h hm => exec_of_orderError hi (orderError_beforeSoi h hm),
    fun h => ⟨?soi, ?unsup, ?unknown, ?sof, ?sosFirst, ?sosAgain, ?table, ?eoi⟩⟩
  case soi => rintro rfl; exact exec_of_orderError hi (orderError_secondSoi h)
  case unsup => exact fun hu => exec_of_orderError hi (orderError_unsupported h hu)
  case unknown => exact fun hu => exec_of_orderError hi (orderError_unknown h hu)
  case sof =>
    rintro rfl hs
    exact exec_of_orderError (k := .malformedContainer) hi (by rw [orderError_afterSoi h (by decide), hs]; rfl)
  case sosFirst =>
    rintro rfl hs
    exact exec_of_orderError (k := .malformedContainer) hi (by rw [orderError_afterSoi h (by decide), hs]; rfl)
  case sosAgain =>
    rintro rfl hs hd
    exact exec_of_orderError (k := .unsupportedFeature) hi (by rw [orderError_afterSoi h (by decide), hs, hd]; rfl)
  case table =>
    rintro (rfl | rfl) hd
    · exact exec_of_orderError (k := .unsupportedFeature) hi (by rw [orderError_afterSoi h (by decide), hd]; rfl)
    · exact exec_of_orderError (k := .unsupportedFeature) hi (by rw [orderError_afterSoi h (by decide), hd]; rfl)
  case eoi =>
    rintro rfl hd
    exact exec_of_orderError (k := .malformedContainer) hi (by rw [orderError_afterSoi h (by decide), hd]; rfl)

/-! ## The segment header (42 R425) -/

theorem readBE_segLen (s : State) : s.inMem.readBE (s.pc.toNat + 2) 2 = segLen s := Memory.readBE_two _ _

/-- The segment of the marker `m` at `pc`. -/
def segAt (m : Byte) (s : State) : Seg := ⟨m, s.pc.toNat, segLen s, segEnd s⟩

theorem segHeader_fits (h : headerFits s) : segHeader m s = .ok (segAt m s) (s.atPc (s.pc.toNat + 4)) := by
  obtain ⟨h4, h2, he⟩ := h
  rw [segHeader_ok h4 (by rwa [readBE_segLen]) (by rwa [readBE_segLen]), readBE_segLen]
  rfl

theorem segHeader_rejects (h : ¬headerFits s) :
    segHeader m s = .raised (s.raise .malformedContainer (s.pc.toNat + 2) m none) := by
  refine segHeader_bad ?_
  rw [readBE_segLen]
  by_contra hn
  simp only [not_or, Nat.not_lt] at hn
  exact h hn

section segment
variable {f : Seg → State → Eff Unit} (ho : orderError m s = none)

include ho

/-- A marker with a segment, up to the rule for its fields. -/
theorem markerSegment_fits (h : headerFits s) :
    ((checkOrder m s).bind fun _ s => (segHeader m s).bind f) = f (segAt m s) (s.atPc (s.pc.toNat + 4)) := by
  rw [checkOrder_ok ho, Eff.bind_ok, segHeader_fits h, Eff.bind_ok]

theorem markerSegment_rejected (h : ¬headerFits s) :
    ((checkOrder m s).bind fun _ s => (segHeader m s).bind f).outcome =
      .next (rejected s 1 (s.pc.toNat + 2) m none) := by
  rw [checkOrder_ok ho, Eff.bind_ok, segHeader_rejects h, Eff.bind_raised, Eff.raised_outcome]
  rfl

end segment

/-- The codes of APPn are past every check of the order check once SOI has been seen. -/
theorem appn_code : ∀ n : BitVec 4, 0xE0#8 ≤ 0xE#4 ++ n ∧ 0xE#4 ++ n ≤ 0xEF#8 := by decide

theorem orderError_appn (h : s.seenSoi = true) (n : BitVec 4) : orderError (0xE#4 ++ n) s = none :=
  orderError_skipped h (.inl (appn_code n))

theorem orderError_com (h : s.seenSoi = true) : orderError 0xFE s = none := orderError_skipped h (.inr rfl)

/-- Settles O22: each of these markers passes the order check and then reads its segment header, which is rejected. -/
theorem segmentHeaderRejected : Obligations.SegmentHeaderRejected := by
  intro s i m hi h hf hcase
  obtain ⟨_, hc⟩ := hi
  rcases hcase with ⟨n, rfl⟩ | rfl | ⟨rfl | rfl, hd⟩ | ⟨rfl, hs⟩ | ⟨rfl, hs, hd⟩ <;> obtain rfl := marker_injective hc
  · exact markerSegment_rejected (orderError_appn h n) hf
  · exact markerSegment_rejected (orderError_com h) hf
  · exact markerSegment_rejected (orderError_table h hd (.inl rfl)) hf
  · exact markerSegment_rejected (orderError_table h hd (.inr rfl)) hf
  · exact markerSegment_rejected (orderError_sof0 h hs) hf
  · exact markerSegment_rejected (orderError_sos h hs hd) hf

/-! ## Markers without fields -/

/-- Settles O20: SOI passes the order check. -/
theorem soiCompletes : Obligations.SoiCompletes := by
  intro s h
  change ((checkOrder 0xD8 s).bind _).outcome = _
  rw [checkOrder_ok (orderError_soi h), Eff.bind_ok, Eff.outcome_ok]

theorem skipSegment_fits (ho : orderError m s = none) (h : headerFits s) :
    (skipSegment m s).outcome = .next { s with pc := BitVec.ofNat 32 (segEnd s) } := by
  rw [skipSegment, markerSegment_fits ho h]
  rfl

/-- Settles O21: both skip their segment, APPn with any of its codes. -/
theorem skippedSegmentsComplete : Obligations.SkippedSegmentsComplete :=
  fun _ h hf => ⟨fun n => skipSegment_fits (orderError_appn h n) hf, skipSegment_fits (orderError_com h) hf⟩

theorem exec_unsupported (h : s.seenSoi = true) (hi : hasCode i m) (hu : isUnsupported m = true) :
    exec i s = .next (rejected s 2 s.pc.toNat m none) := exec_of_orderError hi (orderError_unsupported h hu)

theorem exec_unknown (h : s.seenSoi = true) (hi : hasCode i m) (hu : isUnknown m = true) :
    exec i s = .next (rejected s 3 s.pc.toNat m none) := exec_of_orderError hi (orderError_unknown h hu)

theorem unsupRst_code : ∀ n : BitVec 3,
    0x1A#5 ++ n = BitVec.ofNat 8 (0xD0 + n.toNat) ∧ isUnsupported (0x1A#5 ++ n) = true := by decide

/-- The check of `Instr.wf` on an operand with a range. -/
theorem wf_of_range {a b : Byte} (hl : a ≤ m) (hu : m ≤ b) : (decide (a ≤ m) && decide (m ≤ b)) = true := by
  simp [hl, hu]

theorem isUnsupported_sof : ∀ m : Byte, 0xC1 ≤ m ∧ m ≤ 0xC3 ∨ 0xC5 ≤ m ∧ m ≤ 0xC7 ∨ 0xC9 ≤ m ∧ m ≤ 0xCB ∨
    0xCD ≤ m ∧ m ≤ 0xCF → isUnsupported m = true := by decide +kernel

theorem isUnknown_range : ∀ m : Byte, 0x02 ≤ m ∧ m ≤ 0xBF ∨ 0xF0 ≤ m ∧ m ≤ 0xFD → isUnknown m = true := by
  decide +kernel

/-- Settles O33: each of these markers already fails the order check, as unsupported or as unknown. -/
theorem rejectedMarkersRaise : Obligations.RejectedMarkersRaise := by
  intro s h
  refine ⟨?sof1, ?sof5, ?sof9, ?sof13, ?rst, ?dac, ?dnl, ?dri, ?dhp, ?exp, ?tem, ?res, ?jpgn, ?zero, ?jpg, ?fill⟩
  case rst =>
    intro n
    rw [← (unsupRst_code n).1]
    exact exec_unsupported h ⟨rfl, rfl⟩ (unsupRst_code n).2
  case dac | dnl | dri | dhp | exp | tem => exact exec_unsupported h ⟨rfl, rfl⟩ rfl
  case zero | jpg | fill => exact exec_unknown h ⟨rfl, rfl⟩ rfl
  case sof1 => exact fun m hl hu => exec_unsupported h ⟨wf_of_range hl hu, rfl⟩ (isUnsupported_sof m (.inl ⟨hl, hu⟩))
  case sof5 =>
    exact fun m hl hu => exec_unsupported h ⟨wf_of_range hl hu, rfl⟩ (isUnsupported_sof m (.inr (.inl ⟨hl, hu⟩)))
  case sof9 =>
    exact fun m hl hu => exec_unsupported h ⟨wf_of_range hl hu, rfl⟩ (isUnsupported_sof m (.inr (.inr (.inl ⟨hl, hu⟩))))
  case sof13 =>
    exact fun m hl hu => exec_unsupported h ⟨wf_of_range hl hu, rfl⟩ (isUnsupported_sof m (.inr (.inr (.inr ⟨hl, hu⟩))))
  case res => exact fun m hl hu => exec_unknown h ⟨wf_of_range hl hu, rfl⟩ (isUnknown_range m (.inl ⟨hl, hu⟩))
  case jpgn => exact fun m hl hu => exec_unknown h ⟨wf_of_range hl hu, rfl⟩ (isUnknown_range m (.inr ⟨hl, hu⟩))

/-! ## The parse loop (42 R420) -/

/-- A PARSE step inside the input does what the fetch of a marker finds. -/
theorem step_fetchMarker (hm : s.hostMoves = []) (hp : s.phase = .parse) (hl : s.pc.toNat < s.inLenL.toNat) :
    step s = (Turn.ofFetch (fetchMarker s)).outcome := by
  rw [step_engine hm, engineStep_parse hp, parseTurn_marker hl]

theorem step_endOfInput (hm : s.hostMoves = []) (hp : s.phase = .parse) (hl : s.inLenL.toNat ≤ s.pc.toNat) :
    step s = (endOfInput s).outcome := by
  rw [step_engine hm, engineStep_parse hp, parseTurn_end hl]
  rfl

/-- Settles O6: the fetch decodes the marker and leaves the state as it is. -/
theorem stepRunsMarkerAtPc : Obligations.StepRunsMarkerAtPc := by
  intro s hm hp hl hff
  obtain ⟨i, hi, hf⟩ := fetchMarker_ok hl hff
  refine ⟨i, hi, ?_⟩
  rw [step_fetchMarker hm hp (by omega), hf]
  rfl

theorem step_noMarker (hm : s.hostMoves = []) (hp : s.phase = .parse) (hl : s.pc.toNat < s.inLenL.toNat)
    (h : s.inMem.read s.pc.toNat ≠ 0xFF ∨ s.inLenL.toNat ≤ s.pc.toNat + 1) :
    step s = .next (rejected s 1 s.pc.toNat 0 none) := by
  rw [step_fetchMarker hm hp hl, fetchMarker_bad hl h]
  exact Eff.raised_outcome

/-- Settles O9: the end of input acts by SCAN_DONE, and inside the input the fetch raises. -/
theorem parseStepWithoutMarker : Obligations.ParseStepWithoutMarker := by
  intro s hm hp
  refine ⟨fun hl hd => ?_, fun hl hd => ?_, fun hl hff => step_noMarker hm hp hl (.inl hff),
    fun hl => step_noMarker hm hp (by omega) (.inr (by omega))⟩
  · rw [step_endOfInput hm hp hl, endOfInput, if_pos hd]
    rfl
  · rw [step_endOfInput hm hp hl, endOfInput, if_neg (by simp [hd])]
    exact Eff.raised_outcome

end Sys2Proof.Machine
end

section
/-! SUPPORT. DQT: its loop over the specifications of the segment, what they leave in the slots, and the first bad
one. -/

namespace Sys2Proof.Machine

open Sys2Proof.Claims

variable {s : State} {n : Nat}

/-! ## What the specifications leave (42 R434 to R436) -/

/-- The slot that a specification names. -/
theorem slotOf_eq_iff {b : Byte} (h : b.toNat < 4) (t : Fin 4) : slotOf b = t ↔ b.toNat = t.val := by
  rw [← slotOf_val h, Fin.ext_iff]

/-- The last specification of a slot decides it: by induction on the number of specifications. -/
theorem dqtLoaded_loadSpecs (s : State) (a : Nat) : ∀ n : Nat, (∀ j < n, (s.inMem.read (a + 65 * j)).toNat < 4) →
    dqtLoaded s a n (s.qt.loadSpecs s.inMem a n)
  | 0, _ => fun _ => ⟨fun _ => ⟨rfl, rfl⟩, fun _ hj => absurd hj (Nat.not_lt_zero _)⟩
  | n + 1, hb => fun t => by
    obtain ⟨ihNone, ihLast⟩ := dqtLoaded_loadSpecs s a n (fun j hj => hb j (by omega)) t
    have hslot := slotOf_eq_iff (hb n n.lt_succ_self) t
    have hother (ht : (s.inMem.read (a + 65 * n)).toNat ≠ t.val) :=
      (s.qt.loadSpecs s.inMem a n).loadSpec_other s.inMem (a + 65 * n) (mt hslot.1 ht)
    rw [QuantStore.loadSpecs]
    constructor
    · intro hnone
      obtain ⟨hvalid, hvals⟩ := hother (hnone n n.lt_succ_self)
      rw [hvalid, hvals]
      exact ihNone fun j hj => hnone j (by omega)
    · intro j hj hjt hlast
      rcases Nat.lt_succ_iff_lt_or_eq.1 hj with hjn | rfl
      · obtain ⟨hvalid, hvals⟩ := hother (hlast n n.lt_succ_self hjn)
        rw [hvalid, hvals]
        exact ihLast j hjn hjt fun j' hj' => hlast j' (by omega)
      · obtain rfl := hslot.2 hjt
        exact QuantStore.loadSpec_same _ _ _

/-! ## The segment -/

/-- The state after `n` specifications of a DQT segment at `pc`. -/
def dqtAfter (s : State) (n : Nat) : State :=
  ({ s with qt := s.qt.loadSpecs s.inMem (s.pc.toNat + 4) n } : State).atPc (s.pc.toNat + 4 + 65 * n)

section segment
variable (h : s.seenSoi = true) (hd : s.scanDone = false) (hf : headerFits s)
  (hb : ∀ j < n, (s.inMem.read (s.pc.toNat + 4 + 65 * j)).toNat < 4) (hn : s.pc.toNat + 4 + 65 * n ≤ segEnd s)

include h hd hf hb hn

/-- DQT up to the end of the `n`-th specification. -/
theorem exec_dqt_eq : exec .dqt s =
    (segWhile (segAt 0xDB s) (dqtSpec (segAt 0xDB s)) (segLen s - n) (dqtAfter s n)).outcome := by
  have hlen : n ≤ segLen s := by rw [segEnd] at hn; omega
  change Eff.outcome _ = _
  rw [markerSegment_fits (orderError_table h hd (.inl rfl)) hf]
  exact congrArg Eff.outcome (dqtLoop_run hf.2.2 hb hn hlen)

/-- A bad specification after `n` accepted ones ends the decode. -/
theorem exec_dqt_raised (hp : s.pc.toNat + 4 + 65 * n < segEnd s) {t : State}
    (ht : dqtSpec (segAt 0xDB s) (dqtAfter s n) = .raised t) : exec .dqt s = .next t := by
  have hfuel : n < segLen s := by rw [segEnd] at hp; omega
  have hin := hf.2.2
  have hpc : (dqtAfter s n).pc.toNat = s.pc.toNat + 4 + 65 * n :=
    State.atPc_pc_toNat _ _ ((hn.trans hin).trans_lt s.inLenL_toNat_lt)
  rw [exec_dqt_eq h hd hf hb hn, segWhile_raised (by rw [hpc]; exact hp) ht (by omega), Eff.outcome_raised]

end segment

/-- Settles O23: the loop runs the `n` specifications up to the end of the segment. -/
theorem dqtLoadsTables : Obligations.DqtLoadsTables := by
  intro s n h hd hf hlen hb
  have hend : s.pc.toNat + 4 + 65 * n = segEnd s := by rw [segEnd]; omega
  refine ⟨s.qt.loadSpecs s.inMem (s.pc.toNat + 4) n, ?_, dqtLoaded_loadSpecs s _ n hb⟩
  have hpc : (dqtAfter s n).pc.toNat = segEnd s :=
    (State.atPc_pc_toNat _ _ (hend ▸ hf.2.2.trans_lt s.inLenL_toNat_lt)).trans hend
  rw [exec_dqt_eq h hd hf hb hend.le, segWhile_end hpc.ge, dqtAfter, hend]
  rfl

/-- Settles O24: the loop runs the accepted specifications, and the next one raises. -/
theorem dqtRejectsSpecification : Obligations.DqtRejectsSpecification := by
  intro s n h hd hf a p b hp hb
  have hq := dqtLoaded_loadSpecs s a n hb
  refine ⟨fun h16 => ?precision, fun h4 h16 => ?slot, fun h4 hcut => ?cut⟩
  case precision =>
    refine ⟨BitVec.ofNat 32 (p + 1), _, hq, ?_⟩
    rw [exec_dqt_raised h hd hf hb hp.le hp (dqtSpec_bad hf.2.2 _ hp (le_trans (by decide) h16)), if_pos h16,
      State.raise_eq_rejected]
    rfl
  case slot =>
    refine ⟨BitVec.ofNat 32 (p + 1), _, hq, ?_⟩
    rw [exec_dqt_raised h hd hf hb hp.le hp (dqtSpec_bad hf.2.2 _ hp h4), if_neg (Nat.not_le.2 h16),
      State.raise_eq_rejected]
    rfl
  case cut =>
    obtain ⟨q', hvalid, hvals, hraise⟩ := dqtSpec_cut (g := segAt 0xDB s) hf.2.2 (s.qt.loadSpecs s.inMem a n) h4 hp hcut
    refine ⟨BitVec.ofNat 32 (segEnd s), _, q', hq, ?_, hvalid, fun t ht => hvals t ?_⟩
    · rw [exec_dqt_raised h hd hf hb hp.le hp hraise, State.raise_eq_rejected]
      rfl
    · rw [Ne, slotOf_eq_iff h4]
      exact Ne.symm ht

end Sys2Proof.Machine
end

section
/-! SUPPORT. DHT: one specification, the loop over those of the segment, what they leave in the tables, and the first
bad one. -/

namespace Sys2Proof.Claims

open Sys2Proof.Machine

/-! ## A specification in IN (30 R304) -/

theorem inBytes_add (s : State) (k : Nat) : ∀ n a : Nat, s.inBytes a (n + k) = s.inBytes a n ++ s.inBytes (a + n) k
  | 0, a => by rw [Nat.zero_add, State.inBytes_zero, List.nil_append, Nat.add_zero]
  | n + 1, a => by
    rw [Nat.succ_add, State.inBytes_succ, inBytes_add s k n, State.inBytes_succ, List.cons_append, Nat.add_right_comm,
      Nat.add_assoc]

/-- A run of IN that holds two lists one after the other holds each at its place. -/
theorem inBytes_eq_append {s : State} {a : Nat} {xs ys : List Byte}
    (h : s.inBytes a (xs ++ ys).length = xs ++ ys) :
    s.inBytes a xs.length = xs ∧ s.inBytes (a + xs.length) ys.length = ys := by
  rw [List.length_append, inBytes_add] at h
  exact List.append_inj h (s.inBytes_length a _)

variable {d : DhtSpec} {s : State} {p : Nat}

theorem DhtSpec.bytes_length (hc : d.complete) : d.bytes.length = 17 + d.symbols.length := by
  rw [DhtSpec.bytes, List.length_cons, List.length_append, hc.1]
  omega

/-- The fields of a complete specification that stands in IN. -/
theorem DhtSpec.fields (hc : d.complete) (hb : s.inBytes p d.bytes.length = d.bytes) :
    s.inMem.read p = d.byte ∧ s.inBytes (p + 1) 16 = d.counts ∧ s.inBytes (p + 17) d.symbols.length = d.symbols := by
  rw [DhtSpec.bytes, List.length_cons, State.inBytes_succ, List.cons.injEq] at hb
  obtain ⟨hbyte, hrest⟩ := hb
  obtain ⟨hcounts, hsymbols⟩ := inBytes_eq_append hrest
  rw [hc.1] at hcounts hsymbols
  exact ⟨hbyte, hcounts, hsymbols⟩

theorem tcth_fields : ∀ tc th : Bool, let b := BitVec.ofNat 8 ((if tc then 16 else 0) + if th then 1 else 0)
    b.toNat < 32 ∧ b.toNat % 16 < 2 ∧ b.getLsbD 4 = tc ∧ b.getLsbD 0 = th ∧ tableByte tc th = b := by decide

/-- What the parser reads in the TcTh byte, and the byte it records as the table's (42 R437, 60 R802). -/
theorem DhtSpec.byte_fields (d : DhtSpec) : d.byte.toNat < 32 ∧ d.byte.toNat % 16 < 2 ∧ d.byte.getLsbD 4 = d.tc ∧
    d.byte.getLsbD 0 = d.th ∧ tableByte d.tc d.th = d.byte := tcth_fields d.tc d.th

/-! ## Building its table (43 R500 to R505) -/

/-- The table that a specification builds. -/
def DhtSpec.table (d : DhtSpec) : HuffTable := (buildFrom d.counts d.symbols).tbl

theorem DhtSpec.table_law (hc : d.complete) (hf : d.fits) : d.law d.table :=
  fun idx _ => buildFrom_entry hc.1 hc.2 hf idx

/-- `build_table` on a specification: its table, and an overflow exactly where a code does not fit. -/
theorem DhtSpec.buildTable_eq (hc : d.complete) : buildTable d.tc d.th d.counts d.symbols p s =
    raiseIf (¬d.fits) .malformedContainer p 0xC4 (some d.byte) { s with ht := s.ht.set d.tc d.th d.table } := by
  obtain ⟨hfit, hover⟩ := buildFrom_eq hc.1 hc.2
  obtain ⟨_, _, _, _, htable⟩ := d.byte_fields
  rw [buildTable, htable]
  by_cases hf : d.fits
  · rw [raiseIf_false (by simp [(hfit hf).1]), raiseIf_false (not_not.2 hf)]
    rfl
  · rw [raiseIf_true (hover hf), raiseIf_true hf]
    rfl

/-- The tables of `h` after the specifications `ds`. -/
def built (h : HuffStore) (ds : List DhtSpec) : HuffStore := ds.foldl (fun h d => h.set d.tc d.th d.table) h

/-- Specifications that do not name a table leave it. -/
theorem get_built_other {tc th : Bool} : ∀ (ds : List DhtSpec) (h : HuffStore), (∀ d ∈ ds, ¬(d.tc = tc ∧ d.th = th)) →
    (built h ds).get tc th = h.get tc th
  | [], _, _ => rfl
  | d :: ds, h, hds => by
    have hd : (d.tc, d.th) ≠ (tc, th) := fun e => hds d List.mem_cons_self (Prod.mk.injEq .. ▸ e)
    rw [built, List.foldl_cons]
    exact (get_built_other ds _ fun d' hd' => hds d' (List.mem_cons_of_mem _ hd')).trans
      (h.get_set_other _ _ _ _ _ hd)

/-- The last specification of a table decides it. -/
theorem dhtBuilt_built {ds : List DhtSpec} (hds : ∀ d ∈ ds, d.complete ∧ d.fits) (tc th : Bool) :
    dhtBuilt s ds (built s.ht ds) tc th := by
  refine ⟨get_built_other ds s.ht, ?_⟩
  rintro before d after rfl rfl rfl hafter
  obtain ⟨hc, hf⟩ := hds d (by simp)
  have hlast : (built s.ht (before ++ d :: after)).get d.tc d.th = d.table := by
    rw [built, List.foldl_append, List.foldl_cons]
    exact (get_built_other after _ hafter).trans (HuffStore.get_set _ _ _ _)
  rw [hlast]
  exact DhtSpec.table_law hc hf

/-- What the specifications leave in a table depends on that table alone. -/
theorem dhtBuilt_congr {ds : List DhtSpec} {h h' : HuffStore} {tc th : Bool} (he : h'.get tc th = h.get tc th)
    (hb : dhtBuilt s ds h tc th) : dhtBuilt s ds h' tc th := by
  unfold dhtBuilt
  rwa [he]

end Sys2Proof.Claims

namespace Sys2Proof.Machine

open Sys2Proof.Claims

/-! ## The segment (42 R437) -/

variable {g : Seg} {s : State} {d : DhtSpec} {ds : List DhtSpec} {p : Nat}

/-- A complete specification inside its segment: its table is built. -/
theorem dhtSpec_complete (hg : g.segEnd ≤ s.inLenL.toNat) (h : HuffStore) (hc : d.complete)
    (hb : s.inBytes p d.bytes.length = d.bytes) (he : p + d.bytes.length ≤ g.segEnd) :
    dhtSpec g (({ s with ht := h } : State).atPc p) =
      raiseIf (¬d.fits) .malformedContainer p 0xC4 (some d.byte)
        (({ s with ht := h.set d.tc d.th d.table } : State).atPc (p + d.bytes.length)) := by
  obtain ⟨hbyte, hcounts, hsymbols⟩ := DhtSpec.fields hc hb
  obtain ⟨h32, h16, htc, hth, _⟩ := d.byte_fields
  have hsum : countSum (s.inBytes (p + 1) 16) = d.symbols.length := hcounts ▸ hc.2.symm
  have hlen := DhtSpec.bytes_length hc
  rw [dhtSpec_run hg h (by rwa [hbyte]) (by rwa [hbyte]) (by omega), hbyte, htc, hth, hsum, hcounts, hsymbols,
    DhtSpec.buildTable_eq hc, hlen, Nat.add_assoc]
  rfl

/-- The loop of DHT over specifications that are accepted. -/
theorem dhtLoop_run (hg : g.segEnd ≤ s.inLenL.toNat) : ∀ (ds : List DhtSpec) (h : HuffStore) (p fuel : Nat),
    (∀ d ∈ ds, d.complete ∧ d.fits) →
    s.inBytes p (ds.flatMap DhtSpec.bytes).length = ds.flatMap DhtSpec.bytes →
    p + (ds.flatMap DhtSpec.bytes).length ≤ g.segEnd → ds.length ≤ fuel →
    segWhile g (dhtSpec g) fuel (({ s with ht := h } : State).atPc p) =
      segWhile g (dhtSpec g) (fuel - ds.length)
        (({ s with ht := built h ds } : State).atPc (p + (ds.flatMap DhtSpec.bytes).length))
  | [], _, _, _, _, _, _, _ => rfl
  | d :: ds, h, p, 0, _, _, _, hfuel => absurd hfuel (by simp)
  | d :: ds, h, p, fuel + 1, hds, hb, he, hfuel => by
    obtain ⟨hc, hf⟩ := hds d List.mem_cons_self
    have hlen := DhtSpec.bytes_length hc
    rw [List.flatMap_cons] at hb he
    obtain ⟨hbd, hbds⟩ := inBytes_eq_append hb
    rw [List.length_append] at he
    rw [List.length_cons] at hfuel
    have hpc : (({ s with ht := h } : State).atPc p).pc.toNat = p :=
      State.atPc_pc_toNat _ _ (by have := s.inLenL_toNat_lt; omega)
    have hrec := dhtLoop_run hg ds (h.set d.tc d.th d.table) (p + d.bytes.length) fuel
      (fun d' hd' => hds d' (List.mem_cons_of_mem _ hd')) hbds (by omega) (by omega)
    rw [segWhile, if_pos (by omega), dhtSpec_complete hg h hc hbd (by omega), raiseIf_false (not_not.2 hf), Eff.bind_ok,
      hrec, List.flatMap_cons, List.length_append, List.length_cons, Nat.add_sub_add_right, Nat.add_assoc]
    rfl

theorem length_le_flatMap_bytes (ds : List DhtSpec) : ds.length ≤ (ds.flatMap DhtSpec.bytes).length := by
  induction ds with
  | nil => exact le_rfl
  | cons d ds ih =>
    rw [List.flatMap_cons, List.length_append, List.length_cons, DhtSpec.bytes, List.length_cons]
    omega

/-- The state after the specifications `ds` of a DHT segment at `pc`. -/
def dhtAfter (s : State) (ds : List DhtSpec) : State :=
  ({ s with ht := built s.ht ds } : State).atPc (s.pc.toNat + 4 + (ds.flatMap DhtSpec.bytes).length)

section segment
variable (h : s.seenSoi = true) (hd : s.scanDone = false) (hf : headerFits s)
  (hds : ∀ d ∈ ds, d.complete ∧ d.fits)
  (hb : s.inBytes (s.pc.toNat + 4) (ds.flatMap DhtSpec.bytes).length = ds.flatMap DhtSpec.bytes)

include h hd hf hds hb

/-- DHT up to the end of the specifications `ds`. -/
theorem exec_dht_eq (he : s.pc.toNat + 4 + (ds.flatMap DhtSpec.bytes).length ≤ segEnd s) : exec .dht s =
    (segWhile (segAt 0xC4 s) (dhtSpec (segAt 0xC4 s)) (segLen s - ds.length) (dhtAfter s ds)).outcome := by
  have hle := length_le_flatMap_bytes ds
  have hlen : ds.length ≤ segLen s := by rw [segEnd] at he; omega
  change Eff.outcome _ = _
  rw [markerSegment_fits (orderError_table h hd (.inr rfl)) hf]
  exact congrArg Eff.outcome (dhtLoop_run (g := segAt 0xC4 s) hf.2.2 ds s.ht _ _ hds hb he hlen)

/-- A bad specification after accepted ones ends the decode. -/
theorem exec_dht_raised (hp : s.pc.toNat + 4 + (ds.flatMap DhtSpec.bytes).length < segEnd s) {t : State}
    (ht : dhtSpec (segAt 0xC4 s) (dhtAfter s ds) = .raised t) : exec .dht s = .next t := by
  have hle := length_le_flatMap_bytes ds
  have hfuel : ds.length < segLen s := by rw [segEnd] at hp; omega
  have hin := hf.2.2
  have hpc : (dhtAfter s ds).pc.toNat = s.pc.toNat + 4 + (ds.flatMap DhtSpec.bytes).length :=
    State.atPc_pc_toNat _ _ ((hp.le.trans hin).trans_lt s.inLenL_toNat_lt)
  rw [exec_dht_eq h hd hf hds hb hp.le, segWhile_raised (by rw [hpc]; exact hp) ht (by omega), Eff.outcome_raised]

end segment

/-- Settles O26: the loop runs the accepted specifications, and the next one raises. -/
theorem dhtRejectsSpecification : Obligations.DhtRejectsSpecification := by
  intro s ds h hd hf a k p b hp hb hds
  have hbuilt := dhtBuilt_built (s := s) hds
  have hin := hf.2.2
  refine ⟨fun h32 => ?reserved, fun h32 h2 => ?cls, fun h32 h2 => ⟨fun hcut => ?cut,
    fun d hbyte hc hbytes hlen hnf => ?overflow⟩⟩
  case reserved =>
    refine ⟨BitVec.ofNat 32 (p + 1), _, ?_, fun tc th _ => hbuilt tc th⟩
    rw [exec_dht_raised h hd hf hds hb hp (dhtSpec_bad hin _ hp (.inl h32)), if_pos h32, State.raise_eq_rejected]
    rfl
  case cls =>
    refine ⟨BitVec.ofNat 32 (p + 1), _, ?_, fun tc th _ => hbuilt tc th⟩
    rw [exec_dht_raised h hd hf hds hb hp (dhtSpec_bad hin _ hp (.inr h2)), if_neg (Nat.not_le.2 h32),
      State.raise_eq_rejected]
    rfl
  case cut =>
    refine ⟨BitVec.ofNat 32 (segEnd s), _, ?_, fun tc th _ => hbuilt tc th⟩
    rw [exec_dht_raised h hd hf hds hb hp (dhtSpec_cut hin _ hp h32 h2 hcut), State.raise_eq_rejected]
    rfl
  case overflow =>
    rw [← DhtSpec.bytes_length hc] at hbytes
    rw [Nat.add_assoc, ← DhtSpec.bytes_length hc] at hlen
    refine ⟨BitVec.ofNat 32 (p + d.bytes.length), (built s.ht ds).set d.tc d.th d.table, ?_, fun tc th hne => ?_⟩
    · rw [exec_dht_raised h hd hf hds hb hp
        ((dhtSpec_complete hin _ hc hbytes hlen).trans (raiseIf_true hnf ..)), State.raise_eq_rejected, hbyte]
      rfl
    · refine dhtBuilt_congr (HuffStore.get_set_other _ _ _ _ _ _ fun e => hne ?_) (hbuilt tc th)
      exact Prod.mk.injEq .. ▸ e

end Sys2Proof.Machine
end

section
/-! SUPPORT. The fields and checks of a header rule, in their order, against the list of checks of the statements;
and SOF0. -/

namespace Sys2Proof.Machine

open Sys2Proof.Claims

/-! ## A rule that does a list of checks (42 R425, 60 R803) -/

/-- `e`, a part of the rule of the marker `m` at `pc` in `s`, does the checks `cs` in their order: the first that fails
is raised, nothing but the cursor having moved, and where all pass `e` goes on with `v` in `t`. -/
def Eff.Checks {α : Type} (s : State) (m : Byte) (cs : List Check) (e : Eff α) (v : α) (t : State) : Prop :=
  match firstFailure cs with
  | some c => ∃ pc, e = .raised (rejected { s with pc := pc } c.code (s.pc.toNat + c.off) m c.table)
  | none => e = .ok v t

theorem firstFailure_cons (c : Check) (cs : List Check) :
    firstFailure (c :: cs) = if c.fails then some c else firstFailure cs := by
  rw [firstFailure, List.find?_cons]
  cases c.fails <;> rfl

theorem firstFailure_append (cs cs' : List Check) :
    firstFailure (cs ++ cs') = (firstFailure cs).or (firstFailure cs') := List.find?_append

section checks
variable {α β : Type} {s t u : State} {m : Byte} {cs cs' : List Check} {e : Eff β} {f : β → State → Eff α}
  {v : α} {w : β}

theorem Eff.Checks.ok (v : α) (t : State) : Eff.Checks s m [] (.ok v t) v t := rfl

theorem Eff.Checks.bind (he : Eff.Checks s m cs e w u) (hf : Eff.Checks s m cs' (f w u) v t) :
    Eff.Checks s m (cs ++ cs') (e.bind f) v t := by
  unfold Eff.Checks at *
  rw [firstFailure_append]
  cases hc : firstFailure cs with
  | none =>
    rw [hc] at he
    rw [he, Eff.bind_ok]
    exact hf
  | some c =>
    rw [hc] at he
    obtain ⟨pc, rfl⟩ := he
    exact ⟨pc, rfl⟩

/-- A check that fails is the first failure. -/
theorem Eff.Checks.of_raised {c : Check} {p o : Nat} {k : ErrKind} (hc : c.fails = true) (hk : k.code = c.code)
    (ho : o = s.pc.toNat + c.off) (he : e = .raised ((s.atPc p).raise k o m c.table)) :
    Eff.Checks s m (c :: cs) (e.bind f) v t := by
  rw [Eff.Checks, firstFailure_cons, if_pos hc]
  refine ⟨BitVec.ofNat 32 p, ?_⟩
  rw [he, Eff.bind_raised, State.raise_eq_rejected, hk, ho]
  rfl

/-- A check that passes leaves the rest. -/
theorem Eff.Checks.of_ok {c : Check} (hc : c.fails = false) (he : e = .ok w u) (hf : Eff.Checks s m cs (f w u) v t) :
    Eff.Checks s m (c :: cs) (e.bind f) v t := by
  rw [Eff.Checks, firstFailure_cons, if_neg (by simp [hc]), he]
  exact hf

/-- A check of the rule is the check of the list that fails under the same condition. -/
theorem Eff.Checks.raiseIf {c : Prop} [Decidable c] {fails : Bool} {k : ErrKind} {o o' p : Nat} {b : Option Byte}
    {f : Unit → State → Eff α} (hc : c ↔ fails = true) (ho : o' = s.pc.toNat + o)
    (hf : ¬c → Eff.Checks s m cs (f () (s.atPc p)) v t) :
    Eff.Checks s m (⟨fails, k.code, o, b⟩ :: cs) ((Machine.raiseIf c k o' m b (s.atPc p)).bind f) v t := by
  by_cases h : c
  · exact .of_raised (hc.1 h) rfl ho (raiseIf_true h ..)
  · exact .of_ok (Bool.eq_false_iff.2 (mt hc.2 h)) (raiseIf_false h ..) (hf h)

end checks

/-! ## Fields of the segment at `pc` (42 R425) -/

section fields
variable {α : Type} {s t : State} {m : Byte} {cs : List Check} {v : α} {j : Nat} (hfit : headerFits s)
include hfit

/-- Every field of the segment starts at an offset that the cursor can hold. -/
theorem segOffset_lt (hj : j ≤ segLen s + 2) : s.pc.toNat + j < 2 ^ 32 := by
  have hin : segEnd s ≤ s.inLenL.toNat := hfit.2.2
  have := s.inLenL_toNat_lt
  rw [segEnd] at hin
  omega

theorem segByte_inside (hj : j + 1 ≤ segLen s + 2) :
    segByte (segAt m s) (s.atPc (s.pc.toNat + j)) = .ok (at_ s j) (s.atPc (s.pc.toNat + (j + 1))) :=
  segByte_ok hfit.2.2 (by change _ ≤ segEnd s; rw [segEnd]; omega)

/-- A byte that is known to be inside its segment. -/
theorem Eff.Checks.byte {f : Byte → State → Eff α} (hj : j + 1 ≤ segLen s + 2)
    (hf : Eff.Checks s m cs (f (at_ s j) (s.atPc (s.pc.toNat + (j + 1)))) v t) :
    Eff.Checks s m cs ((segByte (segAt m s) (s.atPc (s.pc.toNat + j))).bind f) v t := by
  rwa [segByte_inside hfit hj, Eff.bind_ok]

/-- A byte that may be outside its segment. -/
theorem Eff.Checks.byteField {f : Byte → State → Eff α} (hj : j ≤ segLen s + 2)
    (hf : j + 1 ≤ segLen s + 2 → Eff.Checks s m cs (f (at_ s j) (s.atPc (s.pc.toNat + (j + 1)))) v t) :
    Eff.Checks s m (.field s j 1 :: cs) ((segByte (segAt m s) (s.atPc (s.pc.toNat + j))).bind f) v t := by
  by_cases h : segLen s + 2 < j + 1
  · refine .of_raised (k := .malformedContainer) (decide_eq_true h) rfl rfl (segByte_short (segOffset_lt hfit hj) ?_)
    change segEnd s ≤ _
    rw [segEnd]; omega
  · have hin := Nat.le_of_not_lt h
    exact .of_ok (decide_eq_false h) (segByte_inside hfit hin) (hf hin)

/-- A 16-bit field that may be outside its segment. -/
theorem Eff.Checks.halfField {f : Half → State → Eff α} (hj : j ≤ segLen s + 2)
    (hf : j + 2 ≤ segLen s + 2 → Eff.Checks s m cs
      (f (BitVec.ofNat 16 ((at_ s j).toNat * 256 + (at_ s (j + 1)).toNat)) (s.atPc (s.pc.toNat + (j + 2)))) v t) :
    Eff.Checks s m (.field s j 2 :: cs) ((segHalf (segAt m s) (s.atPc (s.pc.toNat + j))).bind f) v t := by
  by_cases h : segLen s + 2 < j + 2
  · refine .of_raised (k := .malformedContainer) (decide_eq_true h) rfl rfl (segHalf_short (segOffset_lt hfit hj) ?_)
    change segEnd s < _
    rw [segEnd]; omega
  · have hin := Nat.le_of_not_lt h
    refine .of_ok (decide_eq_false h) ((segHalf_ok hfit.2.2 ?_).trans (by rw [Memory.readBE_two]; rfl)) (hf hin)
    change _ ≤ segEnd s
    rw [segEnd]; omega

end fields

/-! ## SOF0 (42 R440) -/

/-- A 16-bit field is 0 exactly when both its bytes are. -/
theorem half_eq_zero_iff (a b : Byte) : BitVec.ofNat 16 (a.toNat * 256 + b.toNat) = 0 ↔ a = 0 ∧ b = 0 := by
  have ha := a.isLt
  have hb := b.isLt
  simp only [← BitVec.toNat_inj, BitVec.ofNat_eq_ofNat, BitVec.toNat_ofNat]
  omega

section sof0
variable {s : State} (hfit : headerFits s)
include hfit

/-- The fields of component `i`, the segment having its length. -/
theorem sofComponent_checks (hlen : segLen s = 17) (i : Nat) (hi : i < 3) :
    Eff.Checks s 0xC0
      [⟨at_ s (3 * i + 11) ≠ samplingByte i, 2, 3 * i + 11, none⟩,
        ⟨3 < (at_ s (3 * i + 12)).toNat, 1, 3 * i + 12, some (at_ s (3 * i + 12))⟩]
      (sofComponent (segAt 0xC0 s) i (s.atPc (s.pc.toNat + (3 * i + 10))))
      (at_ s (3 * i + 10), at_ s (3 * i + 11), at_ s (3 * i + 12)) (s.atPc (s.pc.toNat + (3 * i + 13))) := by
  unfold sofComponent
  refine .byte hfit (by omega) (.byte hfit (by omega) ?_)
  refine .raiseIf (k := .unsupportedFeature) decide_eq_true_iff.symm (by simp only [segAt]; omega) fun _ => ?_
  refine .byte hfit (by omega) ?_
  exact .raiseIf (k := .malformedContainer) decide_eq_true_iff.symm (by simp only [segAt]; omega) fun _ => .ok _ _

theorem sofFields_checks : Eff.Checks s 0xC0 (sof0Checks s) (sofFields (segAt 0xC0 s) (s.atPc (s.pc.toNat + 4)))
    (frameCommitted s).fh (s.atPc (s.pc.toNat + 19)) := by
  have h2 := hfit.2.1
  unfold sofFields sof0Checks
  refine .byteField hfit (by omega) fun h4 => ?_
  refine .raiseIf (k := .unsupportedFeature) decide_eq_true_iff.symm rfl fun _ => ?_
  refine .halfField hfit h4 fun h6 => ?_
  refine .raiseIf (k := .unsupportedFeature) ((half_eq_zero_iff _ _).trans decide_eq_true_iff.symm) rfl fun _ => ?_
  refine .halfField hfit h6 fun h8 => ?_
  refine .raiseIf (k := .malformedContainer) ((half_eq_zero_iff _ _).trans decide_eq_true_iff.symm) rfl fun _ => ?_
  refine .byteField hfit h8 fun _ => ?_
  refine .raiseIf (k := .unsupportedFeature) decide_eq_true_iff.symm rfl fun _ => ?_
  refine .raiseIf (k := .malformedContainer) decide_eq_true_iff.symm rfl fun hlen => ?_
  have hlen : segLen s = 17 := not_not.1 hlen
  refine .bind (sofComponent_checks hfit hlen 0 (by decide)) ?_
  refine .bind (sofComponent_checks hfit hlen 1 (by decide)) ?_
  exact .bind (sofComponent_checks hfit hlen 2 (by decide)) (.ok _ _)

end sof0

/-- Settles O28: the first check that fails is raised before the header is committed. -/
theorem sof0ReportsFirstFailure : Obligations.Sof0ReportsFirstFailure := by
  intro s c h hs hfit hc
  have hchecks := sofFields_checks hfit
  rw [Eff.Checks, hc] at hchecks
  obtain ⟨pc', he⟩ := hchecks
  refine ⟨pc', ?_⟩
  change Eff.outcome _ = _
  rw [markerSegment_fits (orderError_sof0 h hs) hfit, he, Eff.bind_raised, Eff.outcome_raised]

end Sys2Proof.Machine
end

section
/-! SUPPORT. SOS: its header against the list of its checks, and the extraction of the scan. -/

namespace Sys2Proof.Machine

open Sys2Proof.Claims

/-! ## The scan header (42 R445, R446) -/

section header
variable {s : State} {p : Nat}

/-- The fields of component `i`, the segment having its length. -/
theorem sosComponent_checks (hfit : headerFits s) (hlen : segLen s = 12) (i : Fin 3) :
    Eff.Checks s 0xDA
      [⟨at_ s (2 * i.val + 5) ≠ s.fh.c[i], 1, 2 * i.val + 5, none⟩,
        ⟨at_ s (2 * i.val + 6) ≠ selectorByte i.val, 2, 2 * i.val + 6, some (at_ s (2 * i.val + 6))⟩]
      (sosComponent (segAt 0xDA s) i (s.atPc (s.pc.toNat + (2 * i.val + 5))))
      (at_ s (2 * i.val + 5), at_ s (2 * i.val + 6)) (s.atPc (s.pc.toNat + (2 * i.val + 7))) := by
  unfold sosComponent
  refine .byte hfit (by omega) ?_
  refine .raiseIf (k := .malformedContainer) decide_eq_true_iff.symm (by simp only [segAt]; omega) fun _ => ?_
  refine .byte hfit (by omega) ?_
  exact .raiseIf (k := .unsupportedFeature) decide_eq_true_iff.symm (by simp only [segAt]; omega) fun _ => .ok _ _

/-- The loaded-slot check fails for a slot that is not loaded. -/
theorem not_slotLoaded_iff (b : Byte) : s.slotLoaded b = false ↔ decide (¬s.slotLoaded b = true) = true := by simp

theorem checkSlots_checks : Eff.Checks s 0xDA
    [⟨¬s.slotLoaded s.fh.tq[0], 1, 0, some s.fh.tq[0]⟩, ⟨¬s.slotLoaded s.fh.tq[1], 1, 0, some s.fh.tq[1]⟩,
      ⟨¬s.slotLoaded s.fh.tq[2], 1, 0, some s.fh.tq[2]⟩]
    (Eff.forEach (checkSlot (segAt 0xDA s)) (List.finRange 3) (s.atPc p)) () (s.atPc p) := by
  refine .raiseIf (k := .malformedContainer) (not_slotLoaded_iff _) rfl fun _ => ?_
  refine .raiseIf (k := .malformedContainer) (not_slotLoaded_iff _) rfl fun _ => ?_
  exact .raiseIf (k := .malformedContainer) (not_slotLoaded_iff _) rfl fun _ => .ok _ _

theorem sosFields_checks (hfit : headerFits s) : Eff.Checks s 0xDA (sosChecks s)
    (sosFields (segAt 0xDA s) (s.atPc (s.pc.toNat + 4))) (scanHeaderCommitted s).sh (s.atPc (s.pc.toNat + 14)) := by
  have h2 := hfit.2.1
  unfold sosFields sosChecks
  refine .byteField hfit (by omega) fun _ => ?_
  refine .raiseIf (k := .unsupportedFeature) decide_eq_true_iff.symm rfl fun _ => ?_
  refine .raiseIf (k := .malformedContainer) decide_eq_true_iff.symm rfl fun hlen => ?_
  have hlen : segLen s = 12 := not_not.1 hlen
  refine .bind (sosComponent_checks hfit hlen 0) (.bind (sosComponent_checks hfit hlen 1) ?_)
  refine .bind (sosComponent_checks hfit hlen 2) (.byte hfit (by omega) ?_)
  refine .raiseIf (k := .unsupportedFeature) decide_eq_true_iff.symm rfl fun _ => .byte hfit (by omega) ?_
  refine .raiseIf (k := .unsupportedFeature) decide_eq_true_iff.symm rfl fun _ => .byte hfit (by omega) ?_
  exact .bind checkSlots_checks (.ok _ _)

/-- A scan header that passes its checks has its length. -/
theorem segLen_of_sosChecks (h : firstFailure (sosChecks s) = none) : segLen s = 12 := by
  have hpass := List.find?_eq_none.1 h ⟨segLen s ≠ 12, 1, 2, none⟩ (by simp [sosChecks])
  simpa using hpass

end header

/-! ## The extraction (42 R450) -/

section extract
variable {s : State}

theorem scanAppend_scanPlus {bs : List Byte} {b : Byte} (hcap : s.scanLen.toNat + bs.length < s.params.scanMemBytes)
    (hword : s.scanLen.toNat + bs.length < 2 ^ 32) :
    scanAppend b (s.scanPlus bs) = .ok () (s.scanPlus (bs ++ [b])) := by
  have hlen : (s.scanPlus bs).scanLen.toNat = s.scanLen.toNat + bs.length :=
    (BitVec.toNat_ofNat _ _).trans (Nat.mod_eq_of_lt hword)
  rw [scanAppend_ok (hlen ▸ hcap), hlen]
  simp only [State.scanPlus, Memory.writeList_append, Memory.writeList, List.length_append, List.length_singleton,
    ← Nat.add_assoc, BitVec.ofNat_add]
  rfl

/-- The extraction begun at IN offset `p`, with `n` bytes of the input left and an empty SCAN (42 R450). -/
theorem extract_run {p n : Nat} (hp : s.pc.toNat = p) (hn : s.inLenL.toNat = p + n) (hw : s.params.wf)
    (hin : s.inLenL.toNat ≤ s.params.inMemBytes) (h0 : s.scanLen = 0) :
    (∀ data k, destuffed (s.inBytes p n) = some (data, k) →
      extract s = .ok () ((s.scanPlus (data ++ [0, 0])).atPc (p + k))) ∧
    (destuffed (s.inBytes p n) = none → ∃ data : List Byte,
      extract s = .raised (((s.scanPlus data).atPc (p + n - 1)).raise .malformedContainer (p + n - 1) 0xDA none)) := by
  obtain ⟨hmin, hmax, _⟩ := hw
  have hcap : s.params.scanMemBytes = s.params.inMemBytes + 2 := rfl
  have hempty : s.scanLen.toNat = 0 := by rw [h0]; rfl
  obtain ⟨hgood, hlone⟩ :=
    extractLoop_run n s.inLenL.toNat p s hn (by omega) hp hin (by omega) (by omega)
  constructor
  · intro data k hd
    obtain ⟨hdk, hkn⟩ := destuffed_length _ _ _ hd
    rw [State.inBytes_length] at hkn
    rw [extract, hgood data k hd, Eff.bind_ok]
    change (scanAppend 0 ((s.atPc (p + k)).scanPlus data)).bind _ = _
    have hlen : (s.atPc (p + k)).scanLen.toNat = 0 := hempty
    rw [scanAppend_scanPlus (by rw [hlen, State.atPc_params]; omega) (by omega), Eff.bind_ok,
      scanAppend_scanPlus (by rw [hlen, State.atPc_params, List.length_append, List.length_singleton]; omega)
        (by rw [hlen, List.length_append, List.length_singleton]; omega), List.append_assoc]
    rfl
  · intro hd
    obtain ⟨data, _, he⟩ := hlone hd
    exact ⟨data, by rw [extract, he, Eff.bind_raised]⟩

end extract

/-! ## SOS (42 R445, R450) -/

section sos
variable {s : State} (h : s.seenSoi = true) (hs : s.seenSof = true) (hd : s.scanDone = false) (hfit : headerFits s)
include h hs hd hfit

theorem exec_sos_of_failure {c : Check} (hc : firstFailure (sosChecks s) = some c) :
    ∃ pc', exec .sos s = .next (rejected { s with pc := pc' } c.code (s.pc.toNat + c.off) 0xDA c.table) := by
  have hchecks := sosFields_checks hfit
  rw [Eff.Checks, hc] at hchecks
  obtain ⟨pc', he⟩ := hchecks
  refine ⟨pc', ?_⟩
  change Eff.outcome _ = _
  rw [markerSegment_fits (orderError_sos h hs hd) hfit, he, Eff.bind_raised, Eff.outcome_raised]

/-- With every check passing, SOS commits the scan header and extracts the scan. -/
theorem exec_sos_of_pass (hpass : firstFailure (sosChecks s) = none) : exec .sos s =
    ((extract (scanHeaderCommitted s)).bind fun _ t => .ok () { t with scanDone := true }).outcome := by
  have hchecks := sosFields_checks hfit
  rw [Eff.Checks, hpass] at hchecks
  have hend : segEnd s = s.pc.toNat + 14 := by rw [segEnd, segLen_of_sosChecks hpass]
  change Eff.outcome _ = _
  rw [markerSegment_fits (orderError_sos h hs hd) hfit, hchecks, Eff.bind_ok, closeSegment, Eff.bind_ok]
  simp only [segAt, hend]
  rfl

end sos

/-- The input from the end of an accepted SOS segment on. -/
theorem inLenL_eq_of_sosChecks {s : State} (hfit : headerFits s) (hpass : firstFailure (sosChecks s) = none) :
    s.inLenL.toNat = s.pc.toNat + 14 + (s.inLenL.toNat - (s.pc.toNat + 14)) := by
  have hin := hfit.2.2
  rw [segEnd, segLen_of_sosChecks hpass] at hin
  omega

theorem scanHeaderCommitted_pc {s : State} (hfit : headerFits s) (hpass : firstFailure (sosChecks s) = none) :
    (scanHeaderCommitted s).pc.toNat = s.pc.toNat + 14 :=
  s.atPc_pc_toNat _ (by have := inLenL_eq_of_sosChecks hfit hpass; have := s.inLenL_toNat_lt; omega)

/-- Settles O29: the header passes its checks, and the extraction appends the data bytes and the padding to SCAN. -/
theorem sosExtractsScan : Obligations.SosExtractsScan := by
  intro s data n h hs hd hfit hpass hin hw hwf h0 hdata
  have hlen := inLenL_eq_of_sosChecks hfit hpass
  have hrun := (extract_run (scanHeaderCommitted_pc hfit hpass) hlen hw hin h0).1 data n hdata
  have hempty : (scanHeaderCommitted s).scanLen.toNat = 0 := congrArg BitVec.toNat h0
  refine ⟨s.scan.writeList 0 (data ++ [0, 0]), ?_, fun j b hb => ?_, fun j hj => ?_⟩
  · rw [exec_sos_of_pass h hs hd hfit hpass, hrun, Eff.bind_ok, Eff.outcome_ok, State.scanPlus, hempty, Nat.zero_add,
      List.length_append]
    rfl
  · have := Memory.read_writeList_same (data ++ [0, 0]) s.scan 0 j b hwf hb
    rwa [Nat.zero_add] at this
  · exact Memory.read_writeList_other _ _ _ (.inr (by rw [List.length_append]; change 0 + (data.length + 2) ≤ j; omega))

/-- Settles O30: a header check raises before the commit, a lone 0xFF in the extraction after it. -/
theorem sosReportsFirstFailure : Obligations.SosReportsFirstFailure := by
  intro s h hs hd hfit
  refine ⟨fun c hc => exec_sos_of_failure h hs hd hfit hc, fun hpass hin hw _ h0 hnone => ?_⟩
  have hlen := inLenL_eq_of_sosChecks hfit hpass
  obtain ⟨data, he⟩ := (extract_run (scanHeaderCommitted_pc hfit hpass) hlen hw hin h0).2 hnone
  rw [exec_sos_of_pass h hs hd hfit hpass, he, Eff.bind_raised, Eff.raised_outcome, ← hlen]
  exact ⟨_, _, rfl⟩

/-! ## SCAN_STUFF (42 R450, 30 R307) -/

theorem stuffedPair_ok {s : State} (hc : s.scanLen.toNat < s.params.scanMemBytes) : stuffedPair s =
    .ok () { s with pc := s.pc + 2, scan := s.scan.write s.scanLen.toNat 0xFF, scanLen := s.scanLen + 1 } := by
  rw [stuffedPair, scanAppend_ok hc, Eff.bind_ok]

/-- The extraction loop at a pair `FF 00`. -/
theorem extractLoop_stuffed {s : State} (n : Nat) (hl : s.pc.toNat + 1 < s.inLenL.toNat)
    (hff : s.inMem.read s.pc.toNat = 0xFF) (hz : s.inMem.read (s.pc.toNat + 1) = 0) :
    extractLoop (n + 1) s = (stuffedPair s).bind fun _ t => extractLoop n t := by
  rw [extractLoop, if_neg (by omega), memRead_ok (by omega), Eff.bind_ok, Memory.readBE_one, hff, if_neg (by decide),
    raiseIf_false (by omega), Eff.bind_ok, memRead_ok (by omega), Eff.bind_ok, Memory.readBE_one, hz]
  exact if_pos rfl

/-- Settles O31: the pair appends one byte, and the loop at a pair runs it and goes on. -/
theorem scanStuffAppendsOneByte : Obligations.ScanStuffAppendsOneByte := by
  intro s hc hwf
  have hpair := stuffedPair_ok hc
  refine ⟨_, congrArg Eff.outcome hpair, ⟨_, rfl, ?_, fun j hj => ?_⟩, fun n hl hff hz => ?_⟩
  · exact s.scan.read_write_same _ _ hwf
  · exact s.scan.read_write_other _ hj.symm
  · rw [extractLoop_stuffed n hl hff hz, hpair, Eff.bind_ok]

end Sys2Proof.Machine
end

section
/-! SUPPORT. DHT over a segment of accepted specifications. -/

namespace Sys2Proof.Machine

open Sys2Proof.Claims

/-- Specifications that are the body of a segment end where it ends (42 R425). -/
theorem segEnd_of_dhtBody {s : State} {ds : List DhtSpec} (hf : headerFits s)
    (hb : s.inBytes (s.pc.toNat + 4) (segLen s - 2) = ds.flatMap DhtSpec.bytes) :
    s.pc.toNat + 4 + (ds.flatMap DhtSpec.bytes).length = segEnd s := by
  obtain ⟨_, hlen, _⟩ := hf
  rw [← hb, State.inBytes_length, segEnd]
  omega

/-- Settles O25: the loop runs the specifications up to the end of the segment. -/
theorem dhtBuildsTables : Obligations.DhtBuildsTables := by
  intro s ds h hd hf hb hds
  have hend := segEnd_of_dhtBody hf hb
  have hbytes : s.inBytes (s.pc.toNat + 4) (ds.flatMap DhtSpec.bytes).length = ds.flatMap DhtSpec.bytes := by
    rw [← hb, State.inBytes_length]
  have hpc : (dhtAfter s ds).pc.toNat = segEnd s :=
    (State.atPc_pc_toNat _ _ (hend ▸ hf.2.2.trans_lt s.inLenL_toNat_lt)).trans hend
  refine ⟨built s.ht ds, ?_, dhtBuilt_built hds⟩
  rw [exec_dht_eq h hd hf hds hbytes hend.le, segWhile_end hpc.ge, dhtAfter, hend]
  rfl

end Sys2Proof.Machine
end

section
/-! SUPPORT. The entropy symbols, after the code of the symbol has been consumed: the DC items, the AC items, and the
symbols that are corrupt (44 R552 to R561). -/

namespace Sys2Proof.Machine

open Sys2Proof.Claims

variable {s : State}

/-! ## Raising at BR_POS (60 R802 rows 37 to 43) -/

theorem raiseCorrupt_eq {α : Type} (s : State) : (raiseCorrupt s : Eff α) =
    .raised (corrupt s s.br.pos.toNat ((if s.item.k = 0 then 0 else 16) + classOf s.item.blk)) :=
  congrArg Eff.raised (s.raise_itemTable _)

/-- In a DC item the table is the DC table of the class. -/
theorem raiseCorrupt_dcItem {α : Type} (hk : s.item.k = 0) :
    (raiseCorrupt s : Eff α) = .raised (corrupt s s.br.pos.toNat (classOf s.item.blk)) := by
  rw [raiseCorrupt_eq, if_pos hk, Nat.zero_add]

/-- In an AC item the table is the AC table of the class. -/
theorem raiseCorrupt_acItem {α : Type} (hk : 1 ≤ s.item.k) :
    (raiseCorrupt s : Eff α) = .raised (corrupt s s.br.pos.toNat (16 + classOf s.item.blk)) := by
  rw [raiseCorrupt_eq, if_neg (Nat.one_le_iff_ne_zero.1 hk)]

/-- Settles O40: each of these symbols only raises, in a DC or in an AC item. -/
theorem invalidSymbolsAreCorrupt : Obligations.InvalidSymbolsAreCorrupt := fun _ =>
  ⟨fun hk _ => congrArg Eff.outcome (raiseCorrupt_dcItem hk), fun hk =>
    ⟨fun _ => congrArg Eff.outcome (raiseCorrupt_acItem hk), fun _ _ => congrArg Eff.outcome (raiseCorrupt_acItem hk)⟩⟩

/-! ## The extra bits of a symbol (30 R321) -/

section extraBits
variable {n : Nat}

theorem readExtended_eq (h1 : 1 ≤ n) (s : State) :
    readExtended n s = (readBits n s).bind fun v s => .ok (extend v n) s :=
  if_neg (Nat.one_le_iff_ne_zero.1 h1)

theorem readExtended_ok (h : s.ReaderOk) (h1 : 1 ≤ n) (hn : n ≤ 16) (hb : s.hasBits n) :
    readExtended n s =
      .ok (extend (s.scan.bits s.consumed n) n) { s with br := s.readerAfter (s.refills n) n } := by
  rw [readExtended_eq h1, readBits_ok h hn hb, Eff.bind_ok]

theorem readExtended_short (h : s.ReaderOk) (h1 : 1 ≤ n) (hn : n ≤ 16) (hb : ¬s.hasBits n) :
    readExtended n s = .raised (corrupt { s with br := s.readerAfter (s.scanLen.toNat - s.br.pos.toNat) 0 }
      s.scanLen.toNat ((if s.item.k = 0 then 0 else 16) + classOf s.item.blk)) := by
  rw [readExtended_eq h1, readBits_short h hn hb, Eff.bind_raised]
  exact congrArg Eff.raised
    (State.raise_itemTable { s with br := s.readerAfter (s.scanLen.toNat - s.br.pos.toNat) 0 } _)

end extraBits

/-! ## DC items (44 R552 to R555) -/

theorem dcBlock_eq_dcOnly (v : S64) : dcBlock v = dcOnly v := by
  ext i hi
  simp [dcBlock, dcOnly, Vector.getElem_set, eq_comm]

theorem commitDc_eq_dcDone (d : Int) (s : State) : commitDc d s = dcDone s d := by
  simp only [commitDc, dcDone, component_eq_comp, dcBlock_eq_dcOnly]

/-- A difference of 0 leaves the predictors as they are. -/
theorem dcDone_zero (s : State) : dcDone s 0 =
    { s with blk := s.blk.set s.item.blk (dcOnly s.pred[component s.item.blk]), item := ⟨s.item.blk, 1⟩ } := by
  simp [dcDone]

/-- Settles O36: DC_ZERO commits the difference 0. -/
theorem dcZeroRepeatsPredictor : Obligations.DcZeroRepeatsPredictor := fun s =>
  congrArg Host.Outcome.next ((commitDc_eq_dcDone 0 s).trans (dcDone_zero s))

theorem exec_dcDiff_eq (n : Byte) (s : State) :
    exec (.dcDiff n) s = ((readExtended n.toNat s).bind fun d t => .ok () (commitDc d t)).outcome := rfl

/-- Settles O37: the difference is the extended bits, committed where SCAN has them. -/
theorem dcDiffAddsDifference : Obligations.DcDiffAddsDifference := by
  refine fun s n h1 h11 h => ⟨fun hb => ?_, fun hb => ?_⟩
  · rw [exec_dcDiff_eq, readExtended_ok h h1 (by omega) hb, Eff.bind_ok, Eff.outcome_ok, commitDc_eq_dcDone]
  · rw [exec_dcDiff_eq, readExtended_short h h1 (by omega) hb, Eff.bind_raised, Eff.outcome_raised]

/-! ## AC items (44 R557 to R560) -/

theorem exec_zrl_inside (h : s.item.k + 16 ≤ 64) : exec .zrl s = .next (s.withK (s.item.k + 16)) :=
  congrArg Eff.outcome (if_neg h.not_gt)

theorem exec_zrl_past (h : 64 < s.item.k + 16) : exec .zrl s = (raiseCorrupt s : Eff Unit).outcome :=
  congrArg Eff.outcome (if_pos h)

/-- Settles O39: ZRL goes on or raises by where its 16 positions end. -/
theorem eobAndZrlMoveSpectralIndex : Obligations.EobAndZrlMoveSpectralIndex := by
  refine fun s => ⟨rfl, exec_zrl_inside, fun hk hpast => ?_⟩
  rw [exec_zrl_past hpast, raiseCorrupt_acItem hk, Eff.outcome_raised]

/-- A run that ends at a position `j` of the block. -/
theorem exec_acCoef_inside {r n : BitVec 4} {j : Fin 64} (hj : j.val = s.item.k + r.toNat) :
    exec (.acCoef r n) s =
      ((readExtended n.toNat s).bind fun v t =>
        .ok () ((t.setCoef (zz j) v).withK (s.item.k + r.toNat + 1))).outcome := by
  have hin : s.item.k + r.toNat ≤ 63 := by omega
  rw [show j = ⟨s.item.k + r.toNat, by omega⟩ from Fin.ext hj]
  exact congrArg Eff.outcome (dif_pos hin)

theorem exec_acCoef_past {r n : BitVec 4} (h : 63 < s.item.k + r.toNat) :
    exec (.acCoef r n) s = (raiseCorrupt s : Eff Unit).outcome :=
  congrArg Eff.outcome (dif_neg h.not_ge)

/-- Settles O38: a run inside the block reads its bits and stores them, a run past it raises. -/
theorem acCoefStoresAtZigzag : Obligations.AcCoefStoresAtZigzag := by
  refine fun s r n h1 h10 hk h => ⟨fun j hj => ⟨fun hb => ?_, fun hb => ?_⟩, fun hpast => ?_⟩
  · rw [exec_acCoef_inside hj, readExtended_ok h h1 (by omega) hb]
    rfl
  · rw [exec_acCoef_inside hj, readExtended_short h h1 (by omega) hb, Eff.bind_raised, Eff.outcome_raised,
      if_neg (Nat.one_le_iff_ne_zero.1 hk)]
  · rw [exec_acCoef_past hpast, raiseCorrupt_acItem hk, Eff.outcome_raised]

end Sys2Proof.Machine
end

section
/-! SUPPORT. The Dequantizer (45 R600, R601). -/

namespace Sys2Proof.Machine

open Sys2Proof.Claims

/-- A coefficient below `2^37` times a table value is exact in s64 (45 R600, 10 R121). -/
theorem S64.toInt_mul_setWidth {x : S64} (hx : x.toInt.natAbs < 2 ^ 37) (q : Byte) :
    (x * q.setWidth 64).toInt = x.toInt * q.toNat := by
  have hq : q.toNat ≤ 255 := Nat.le_of_lt_succ q.isLt
  have hprod : (x.toInt * q.toNat).natAbs ≤ 2 ^ 37 * 255 := by
    rw [Int.natAbs_mul, Int.natAbs_natCast]
    exact Nat.mul_le_mul hx.le hq
  rw [BitVec.toInt_mul, BitVec.toInt_setWidth, Int.mul_bmod_bmod, Int.bmod_eq_of_le (by omega) (by omega)]

theorem dequantBlock_getElem (q : QuantSlot) (blk : Block) (i : Fin 64) :
    (dequantBlock q blk)[i] = blk[i] * q[i].setWidth 64 :=
  Vector.getElem_ofFn i.isLt

/-- A block whose component names the slot `t` is dequantized with that slot's values. -/
theorem dequantize_ok {s : State} {b : Fin 6} {t : Fin 4} (ht : (s.fh.tq[component b]).toNat = t.val) :
    dequantize b s = .ok () { s with blk := s.blk.set b (dequantBlock s.qt.vals[t] s.blk[b]) } := by
  simp only [component_eq_comp] at ht
  simp only [dequantize, ht, t.isLt, dif_pos]
  rfl

/-- Settles O43: the block takes the slot's products, and none of them wraps. -/
theorem dequantizeScalesExactly : Obligations.DequantizeScalesExactly := by
  refine fun s b t ht hb => ⟨_, dequantize_ok ht, fun i => ?_⟩
  rw [dequantBlock_getElem, S64.toInt_mul_setWidth (hb i)]

end Sys2Proof.Machine
end

section
/-! SUPPORT. The ring of the inverse DCT, read in the real numbers: its operations are those of ℝ and its signs are
exact (46 R622). -/

namespace Sys2Proof.Machine

/-! ## The ring in the reals -/

/-- `√(2 + √2)`, the second root. -/
noncomputable def root2 : ℝ := √(2 + √2)

/-- `√(2 + √(2 + √2))`, the third root. -/
noncomputable def root3 : ℝ := √(2 + root2)

theorem root2_pos : 0 < root2 := by unfold root2; positivity

theorem root3_pos : 0 < root3 := Real.sqrt_pos.2 (add_pos two_pos root2_pos)

theorem root2_mul_self : root2 * root2 = 2 + √2 := Real.mul_self_sqrt (by positivity)

theorem root3_mul_self : root3 * root3 = 2 + root2 := Real.mul_self_sqrt (add_pos two_pos root2_pos).le

theorem sqrt_two_le_two : √2 ≤ 2 := Real.sqrt_le_iff.2 (by norm_num)

theorem root2_le_two : root2 ≤ 2 := Real.sqrt_le_iff.2 ⟨two_pos.le, by linarith [sqrt_two_le_two]⟩

theorem root3_le_two : root3 ≤ 2 := Real.sqrt_le_iff.2 ⟨two_pos.le, by linarith [root2_le_two]⟩

/-- The real number that a ring element stands for. -/
noncomputable def Root1.toReal (x : Root1) : ℝ := x.a + x.b * √2

@[inherit_doc Root1.toReal]
noncomputable def Root2.toReal (x : Root2) : ℝ := x.a.toReal + x.b.toReal * root2

@[inherit_doc Root1.toReal]
noncomputable def Root3.toReal (x : Root3) : ℝ := x.a.toReal + x.b.toReal * root3

@[simp] theorem Root1.toReal_zero : Root1.zero.toReal = 0 := by simp [Root1.zero, Root1.toReal]

@[simp] theorem Root1.toReal_add (x y : Root1) : (x.add y).toReal = x.toReal + y.toReal := by
  simp only [Root1.add, Root1.toReal, Int.cast_add]
  ring

@[simp] theorem Root1.toReal_neg (x : Root1) : x.neg.toReal = -x.toReal := by
  simp only [Root1.neg, Root1.toReal, Int.cast_neg]
  ring

@[simp] theorem Root1.toReal_mul (x y : Root1) : (x.mul y).toReal = x.toReal * y.toReal := by
  have hsq : √2 * √2 = (2 : ℝ) := Real.mul_self_sqrt two_pos.le
  simp only [Root1.mul, Root1.toReal]
  push_cast
  linear_combination -(x.b * y.b : ℝ) * hsq

@[simp] theorem radicand2_toReal : radicand2.toReal = root2 * root2 := by
  simp [radicand2, Root1.toReal, root2_mul_self]

@[simp] theorem Root2.toReal_zero : Root2.zero.toReal = 0 := by simp [Root2.zero, Root2.toReal]

@[simp] theorem Root2.toReal_add (x y : Root2) : (x.add y).toReal = x.toReal + y.toReal := by
  simp only [Root2.add, Root2.toReal, Root1.toReal_add]
  ring

@[simp] theorem Root2.toReal_neg (x : Root2) : x.neg.toReal = -x.toReal := by
  simp only [Root2.neg, Root2.toReal, Root1.toReal_neg]
  ring

@[simp] theorem Root2.toReal_mul (x y : Root2) : (x.mul y).toReal = x.toReal * y.toReal := by
  simp only [Root2.mul, Root2.toReal, Root1.toReal_add, Root1.toReal_mul, radicand2_toReal]
  ring

@[simp] theorem radicand3_toReal : radicand3.toReal = root3 * root3 := by
  simp [radicand3, Root2.toReal, Root1.toReal, root3_mul_self]

@[simp] theorem Root3.toReal_zero : Root3.zero.toReal = 0 := by simp [Root3.zero, Root3.toReal]

@[simp] theorem Root3.toReal_add (x y : Root3) : (x.add y).toReal = x.toReal + y.toReal := by
  simp only [Root3.add, Root3.toReal, Root2.toReal_add]
  ring

@[simp] theorem Root3.toReal_neg (x : Root3) : x.neg.toReal = -x.toReal := by
  simp only [Root3.neg, Root3.toReal, Root2.toReal_neg]
  ring

@[simp] theorem Root3.toReal_mul (x y : Root3) : (x.mul y).toReal = x.toReal * y.toReal := by
  simp only [Root3.mul, Root3.toReal, Root2.toReal_add, Root2.toReal_mul, radicand3_toReal]
  ring

@[simp] theorem Root3.toReal_ofInt (n : Int) : (Root3.ofInt n).toReal = n := by
  simp [Root3.ofInt, Root3.toReal, Root2.toReal, Root1.toReal, Root1.zero, Root2.zero]

@[simp] theorem sumRoots_toReal (xs : List Root3) : (sumRoots xs).toReal = (xs.map Root3.toReal).sum := by
  induction xs with
  | nil => exact Root3.toReal_zero
  | cons x xs ih => rw [List.map_cons, List.sum_cons, ← ih]; exact Root3.toReal_add x _

/-- A sum over the indices of a row or column. -/
theorem sumRoots_finRange_toReal {n : Nat} (f : Fin n → Root3) :
    (sumRoots ((List.finRange n).map f)).toReal = ∑ i, (f i).toReal := by
  rw [sumRoots_toReal, List.map_map, Fin.sum_univ_def]
  rfl

/-! ## Exact signs -/

/-- Two numbers of one sign add up to a number of that sign. -/
theorem sign_add_of_sign_eq {a b : ℝ} (h : SignType.sign a = SignType.sign b) :
    SignType.sign (a + b) = SignType.sign a := by
  rcases lt_trichotomy a 0 with ha | rfl | ha
  · rw [sign_neg ha] at h ⊢
    exact sign_neg (add_neg ha (sign_eq_neg_one_iff.1 h.symm))
  · rw [zero_add, h]
  · rw [sign_pos ha] at h ⊢
    exact sign_pos (add_pos ha (sign_eq_one_iff.1 h.symm))

theorem rootSign_coe (sa sb sd : SignType) : rootSign sa sb sd =
    ((if sb = 0 then sa else if sa = 0 then sb else if sa = sb then sa else sa * sd : SignType) : Int) := by
  decide +revert

theorem signType_eq_neg_of_ne {s t : SignType} (hs : s ≠ 0) (ht : t ≠ 0) (h : s ≠ t) : s = -t := by decide +revert

/-- The sign rule of the ring is right: where `a` and `b r` have opposite signs, `a - b r` has the sign of `a`, and the
product of the two conjugates is `a² - b² r²`. -/
theorem rootSign_eq_sign {a b r : ℝ} (hr : 0 < r) :
    rootSign (SignType.sign a) (SignType.sign b) (SignType.sign (a * a - r * r * (b * b))) =
      SignType.sign (a + b * r) := by
  have hbr : SignType.sign (b * r) = SignType.sign b := by rw [sign_mul, sign_pos hr, mul_one]
  rw [rootSign_coe]
  congr 1
  split_ifs with hb ha hab
  · rw [sign_eq_zero_iff.1 hb, zero_mul, add_zero]
  · rw [sign_eq_zero_iff.1 ha, zero_add, hbr]
  · exact (sign_add_of_sign_eq (hab.trans hbr.symm)).symm
  · have hconj : SignType.sign (a - b * r) = SignType.sign a := by
      rw [sub_eq_add_neg]
      exact sign_add_of_sign_eq (by rw [Left.sign_neg, hbr]; exact signType_eq_neg_of_ne ha hb hab)
    have hsq : SignType.sign a * SignType.sign a = 1 := by
      rw [← sign_mul]
      exact sign_pos (mul_self_pos.2 (sign_ne_zero.1 ha))
    have hfac : a * a - r * r * (b * b) = (a - b * r) * (a + b * r) := by ring
    rw [hfac, sign_mul, hconj, ← mul_assoc, hsq, one_mul]

theorem intSign_eq_sign (n : Int) : n.sign = SignType.sign (n : ℝ) := by
  rw [sign_intCast, Int.sign_eq_sign]

theorem Root1.sign_eq (x : Root1) : x.sign = SignType.sign x.toReal := by
  have hnorm : ((x.a * x.a - 2 * (x.b * x.b) : Int) : ℝ) = x.a * x.a - √2 * √2 * (x.b * x.b) := by
    rw [Real.mul_self_sqrt two_pos.le]
    push_cast
    rfl
  simp only [Root1.sign, intSign_eq_sign, hnorm]
  exact rootSign_eq_sign (by positivity)

theorem Root2.sign_eq (x : Root2) : x.sign = SignType.sign x.toReal := by
  simp only [Root2.sign, Root1.sign_eq, Root1.toReal_add, Root1.toReal_neg, Root1.toReal_mul, radicand2_toReal,
    ← sub_eq_add_neg]
  exact rootSign_eq_sign root2_pos

theorem Root3.sign_eq (x : Root3) : x.sign = SignType.sign x.toReal := by
  simp only [Root3.sign, Root2.sign_eq, Root2.toReal_add, Root2.toReal_neg, Root2.toReal_mul, radicand3_toReal,
    ← sub_eq_add_neg]
  exact rootSign_eq_sign root3_pos

theorem Root3.zero_le_sign_iff (x : Root3) : 0 ≤ x.sign ↔ 0 ≤ x.toReal := by
  have hcoe : ∀ s : SignType, (0 : Int) ≤ (s : Int) ↔ 0 ≤ s := by decide
  rw [Root3.sign_eq, hcoe, sign_nonneg_iff]

/-! ## Magnitudes -/

theorem abs_add_mul_le {a b r : ℝ} {m n : Nat} (ha : |a| ≤ m) (hb : |b| ≤ n) (h0 : 0 ≤ r) (h2 : r ≤ 2) :
    |a + b * r| ≤ (m + 2 * n : Nat) := by
  calc |a + b * r| ≤ |a| + |b| * r := (abs_add_le _ _).trans_eq (by rw [abs_mul, abs_of_nonneg h0])
    _ ≤ m + n * 2 := by gcongr
    _ = (m + 2 * n : Nat) := by push_cast; ring

theorem abs_intCast_le_natAbs (n : Int) : |(n : ℝ)| ≤ n.natAbs := by rw [Nat.cast_natAbs, Int.cast_abs]

theorem Root1.abs_toReal_le (x : Root1) : |x.toReal| ≤ x.bound :=
  abs_add_mul_le (abs_intCast_le_natAbs x.a) (abs_intCast_le_natAbs x.b) (Real.sqrt_nonneg 2) sqrt_two_le_two

theorem Root2.abs_toReal_le (x : Root2) : |x.toReal| ≤ x.bound :=
  abs_add_mul_le x.a.abs_toReal_le x.b.abs_toReal_le root2_pos.le root2_le_two

theorem Root3.abs_toReal_le (x : Root3) : |x.toReal| ≤ x.bound :=
  abs_add_mul_le x.a.abs_toReal_le x.b.abs_toReal_le root3_pos.le root3_le_two

end Sys2Proof.Machine
end

section
/-! SUPPORT. Exact rounding in the ring (00 R16, 46 R622). -/

namespace Sys2Proof.Machine

open Sys2Proof.Claims

theorem sixteenthAtLeast_iff (x : Root3) (n : Nat) : sixteenthAtLeast x n = true ↔ (n : ℝ) ≤ x.toReal / 16 := by
  rw [sixteenthAtLeast, decide_eq_true_iff, Root3.zero_le_sign_iff, Root3.toReal_add, Root3.toReal_ofInt]
  push_cast
  constructor <;> intro h <;> linarith

/-- The search narrows `q ≤ x / 16 < q + 2^k` down to `k = 0`, where `q` is the floor. -/
theorem floorSearch_eq_floor {x : Root3} : ∀ {k q : Nat},
    (q : ℝ) ≤ x.toReal / 16 → x.toReal / 16 < (q + 2 ^ k : Nat) → floorSearch x k q = ⌊x.toReal / 16⌋₊
  | 0, q, hlo, hhi => ((Nat.floor_eq_iff (q.cast_nonneg.trans hlo)).2 ⟨hlo, by simpa using hhi⟩).symm
  | k + 1, q, hlo, hhi => by
    rw [floorSearch]
    split
    · next hbit =>
      exact floorSearch_eq_floor ((sixteenthAtLeast_iff x _).1 hbit) (by rwa [add_assoc, ← two_mul, ← pow_succ'])
    · next hbit => exact floorSearch_eq_floor hlo (not_le.1 (mt (sixteenthAtLeast_iff x _).2 hbit))

theorem floorSixteenth_eq_floor {x : Root3} (hx : 0 ≤ x.toReal) : (floorSixteenth x : Int) = ⌊x.toReal / 16⌋ := by
  have hbound : x.toReal / 16 < (0 + 2 ^ (Nat.log2 x.bound + 1) : Nat) := by
    have hpow : (x.bound : ℝ) < (2 ^ (Nat.log2 x.bound + 1) : Nat) := Nat.cast_lt.2 Nat.lt_log2_self
    have hle := (abs_le.1 x.abs_toReal_le).2
    rw [zero_add]
    linarith
  rw [floorSixteenth, floorSearch_eq_floor (by simpa using div_nonneg hx (by norm_num)) hbound,
    Int.natCast_floor_eq_floor (by positivity)]

/-- The model rounds a ring element's sixteenth as the real number it is. -/
theorem roundSixteenth_eq_roundR (x : Root3) : roundSixteenth x = roundR (x.toReal / 16) := by
  have hhalf (r : ℝ) : (r + 8) / 16 = r / 16 + 1 / 2 := by ring
  have hsign : 0 ≤ x.toReal / 16 ↔ 0 ≤ x.toReal := by constructor <;> intro h <;> linarith
  have hadd (y : Root3) (hy : 0 ≤ y.toReal) : (floorSixteenth (y.add (.ofInt 8)) : Int) = ⌊y.toReal / 16 + 1 / 2⌋ := by
    have h8 : (y.add (.ofInt 8)).toReal = y.toReal + 8 := by simp
    rw [floorSixteenth_eq_floor (by linarith), h8, hhalf]
  simp only [roundSixteenth, roundR, Root3.zero_le_sign_iff, hsign]
  split
  · next h => exact hadd x h
  · next h => rw [hadd x.neg (by rw [Root3.toReal_neg]; linarith), Root3.toReal_neg, neg_div]

/-! ## The rounding law -/

theorem roundR_zero : roundR 0 = 0 := by norm_num [roundR]

/-- Halves go away from zero, so rounding is odd (46 R625 (b)). -/
theorem roundR_neg (r : ℝ) : roundR (-r) = -roundR r := by
  rcases lt_trichotomy r 0 with h | rfl | h
  · simp [roundR, h.le, h.not_ge]
  · simp [roundR_zero]
  · simp [roundR, h.le, h.not_ge]

theorem roundR_ratCast (q : ℚ) : roundR q = roundQ q := by
  have hfloor (p : ℚ) : ⌊(p : ℝ) + 1 / 2⌋ = ⌊p + 1 / 2⌋ := by
    rw [← Rat.floor_cast (α := ℝ) (p + 1 / 2)]
    push_cast
    rfl
  have hneg := hfloor (-q)
  rw [Rat.cast_neg] at hneg
  simp only [roundR, roundQ, hfloor, hneg, Rat.cast_nonneg]

theorem abs_roundR_le {r : ℝ} {n : Nat} (h : |r| ≤ n) : |roundR r| ≤ n := by
  obtain ⟨hlo, hhi⟩ := abs_le.1 h
  have hfloor {t : ℝ} (ht0 : 0 ≤ t) (ht : t ≤ n) : 0 ≤ ⌊t + 1 / 2⌋ ∧ ⌊t + 1 / 2⌋ ≤ n := by
    refine ⟨Int.floor_nonneg.2 (by linarith), Int.lt_add_one_iff.1 (Int.floor_lt.2 ?_)⟩
    push_cast
    linarith
  rw [abs_le, roundR]
  split
  · next hr =>
    have := hfloor hr hhi
    omega
  · next hr =>
    have := hfloor (t := -r) (by linarith) (by linarith)
    omega

end Sys2Proof.Machine
end

section
/-! SUPPORT. The inverse DCT: the basis, the exact product, and the laws of 46 R622 to R625. -/

namespace Sys2Proof.Machine

open Sys2Proof.Claims

/-! ## The basis -/

theorem twoCos_mod (m : Nat) : twoCos (m % 32) = twoCos m := by simp only [twoCos, Nat.mod_mod]

theorem twoCos_recurrence_period :
    ∀ m < 32, (twoCos 1).mul (twoCos (m + 1)) = (twoCos (m + 2)).add (twoCos m) := by decide

/-- `2 cos θ · 2 cos (m + 1) θ = 2 cos (m + 2) θ + 2 cos m θ`, in the ring. -/
theorem twoCos_recurrence (m : Nat) : (twoCos 1).mul (twoCos (m + 1)) = (twoCos (m + 2)).add (twoCos m) := by
  have h := twoCos_recurrence_period (m % 32) (Nat.mod_lt m (by decide))
  rw [← twoCos_mod (m % 32 + 1), ← twoCos_mod (m % 32 + 2)] at h
  simpa only [Nat.mod_add_mod, twoCos_mod] using h

theorem twoCos_zero_toReal : (twoCos 0).toReal = 2 := by
  simp [twoCos, cosFirstHalf, Root3.toReal, Root2.toReal, Root1.toReal]

theorem twoCos_one_toReal : (twoCos 1).toReal = 2 * Real.cos (Real.pi / 16) := by
  have hroot : (twoCos 1).toReal = root3 := by simp [twoCos, cosFirstHalf, Root3.toReal, Root2.toReal, Root1.toReal]
  rw [hroot, Real.cos_pi_div_sixteen, mul_div_cancel₀ _ two_ne_zero]
  rfl

theorem twoCos_toReal : ∀ m : Nat, (twoCos m).toReal = 2 * Real.cos (m * (Real.pi / 16))
  | 0 => by rw [twoCos_zero_toReal]; simp
  | 1 => by rw [twoCos_one_toReal]; simp
  | m + 2 => by
    have hrec := congrArg Root3.toReal (twoCos_recurrence m)
    rw [Root3.toReal_mul, Root3.toReal_add, twoCos_one_toReal, twoCos_toReal (m + 1), twoCos_toReal m] at hrec
    have hcos := Real.cos_add_cos ((m + 2 : Nat) * (Real.pi / 16)) (m * (Real.pi / 16))
    have hmean : ((m + 2 : Nat) * (Real.pi / 16) + m * (Real.pi / 16)) / 2 = (m + 1 : Nat) * (Real.pi / 16) := by
      push_cast
      ring
    have hdiff : ((m + 2 : Nat) * (Real.pi / 16) - m * (Real.pi / 16)) / 2 = Real.pi / 16 := by
      push_cast
      ring
    rw [hmean, hdiff] at hcos
    linarith

theorem sqrt_quarter : √(1 / 4 : ℝ) = 1 / 2 := by
  rw [show (1 / 4 : ℝ) = (1 / 2) ^ 2 by norm_num, Real.sqrt_sq (by norm_num)]

theorem basis_zero (x : Fin 8) : basis 0 x = √(1 / 8) := by simp [basis]

theorem basis_of_ne_zero {y : Fin 8} (hy : y.val ≠ 0) (x : Fin 8) :
    basis y x = 1 / 2 * Real.cos ((2 * x.val + 1) * y.val * Real.pi / 16) := by rw [basis, if_neg hy, sqrt_quarter]

theorem basis4_toReal (y x : Fin 8) : (basis4 y x).toReal = 4 * basis y x := by
  by_cases hy : y.val = 0
  · obtain rfl : y = 0 := Fin.ext hy
    have hsqrt : √(1 / 8 : ℝ) = √2 / 4 := by
      rw [show (1 / 8 : ℝ) = 2 / 4 ^ 2 by norm_num, Real.sqrt_div two_pos.le, Real.sqrt_sq (by norm_num)]
    have hangle : ((4 : Nat) : ℝ) * (Real.pi / 16) = Real.pi / 4 := by push_cast; ring
    rw [basis_zero, hsqrt, basis4, if_pos hy, twoCos_toReal, hangle, Real.cos_pi_div_four]
    ring
  · rw [basis_of_ne_zero hy, basis4, if_neg hy, twoCos_toReal]
    push_cast
    ring_nf

theorem abs_basis_le (y x : Fin 8) : |basis y x| ≤ 1 / 2 := by
  by_cases hy : y.val = 0
  · obtain rfl : y = 0 := Fin.ext hy
    rw [basis_zero, abs_of_nonneg (Real.sqrt_nonneg _), ← sqrt_quarter]
    exact Real.sqrt_le_sqrt (by norm_num)
  · rw [basis_of_ne_zero hy, abs_mul, abs_of_pos (by norm_num)]
    linarith [Real.abs_cos_le_one ((2 * x.val + 1) * y.val * Real.pi / 16)]

/-! ## The exact product -/

theorem rowTransform_getElem (blk : Block) (v x : Fin 8) : ((rowTransform blk)[v][x]).toReal =
    ∑ u : Fin 8, cell blk v u * (4 * basis u x) := by
  simp only [rowTransform, Fin.getElem_fin, Vector.getElem_ofFn, sumRoots_finRange_toReal, Root3.toReal_mul,
    Root3.toReal_ofInt, basis4_toReal]

/-- The two compositions give sixteen times the exact sample (46 R621). -/
theorem sample16_toReal (blk : Block) (y x : Fin 8) :
    (sample16 (rowTransform blk) y x).toReal = 16 * exactSample blk y x := by
  simp only [sample16, sumRoots_finRange_toReal, Root3.toReal_mul, basis4_toReal, rowTransform_getElem, exactSample,
    Finset.mul_sum]
  refine Finset.sum_congr rfl fun v _ => Finset.sum_congr rfl fun u _ => ?_
  ring

/-- A term of the exact product is at most a quarter of its coefficient, and there are 64. -/
theorem abs_exactSample_le {blk : Block} {n : Nat} (h : ∀ y x, (cell blk y x).natAbs ≤ n) (y x : Fin 8) :
    |exactSample blk y x| ≤ (16 * n : Nat) := by
  have hterm (v u : Fin 8) : |basis v y * (cell blk v u : ℝ) * basis u x| ≤ 1 / 2 * n * (1 / 2) := by
    rw [abs_mul, abs_mul]
    gcongr
    · exact abs_basis_le v y
    · exact (abs_intCast_le_natAbs _).trans (Nat.cast_le.2 (h v u))
    · exact abs_basis_le u x
  calc |exactSample blk y x| ≤ ∑ v : Fin 8, ∑ u : Fin 8, |basis v y * (cell blk v u : ℝ) * basis u x| :=
        (Finset.abs_sum_le_sum_abs _ _).trans (Finset.sum_le_sum fun v _ => Finset.abs_sum_le_sum_abs _ _)
    _ ≤ ∑ _v : Fin 8, ∑ _u : Fin 8, (1 / 2 * n * (1 / 2) : ℝ) :=
        Finset.sum_le_sum fun v _ => Finset.sum_le_sum fun u _ => hterm v u
    _ = (16 * n : Nat) := by
      simp only [Finset.sum_const, Finset.card_univ, Fintype.card_fin, nsmul_eq_mul]
      push_cast
      ring

theorem S64.toInt_ofInt_of_abs_lt {z : Int} (h : |z| < 2 ^ 63) : (BitVec.ofInt 64 z).toInt = z := by
  rw [abs_lt] at h
  rw [BitVec.toInt_ofInt, Int.bmod_eq_of_le (by omega) (by omega)]

theorem cell_idctBlock (blk : Block) (y x : Fin 8) : cell (idctBlock blk) y x =
    (BitVec.ofInt 64 (roundR (exactSample blk y x))).toInt := by
  have hy : (⟨(8 * y.val + x.val) / 8, by omega⟩ : Fin 8) = y := Fin.ext (by simp only; omega)
  have hx : (⟨(8 * y.val + x.val) % 8, by omega⟩ : Fin 8) = x := Fin.ext (by simp only; omega)
  have h16 : 16 * exactSample blk y x / 16 = exactSample blk y x := by ring
  simp only [cell, idctBlock, Vector.getElem_ofFn, roundSixteenth_eq_roundR, hy, hx, sample16_toReal, h16]

/-- The bound of 10 R121 on the coefficients of a block. -/
def CellsBounded (blk : Block) : Prop := ∀ y x : Fin 8, (cell blk y x).natAbs < 2 ^ 45

theorem cellsBounded_of_getElem {blk : Block} (h : ∀ i : Fin 64, (blk[i]).toInt.natAbs < 2 ^ 45) : CellsBounded blk :=
  fun y x => h ⟨8 * y.val + x.val, by omega⟩

/-- Within the bound of 10 R121 no sample wraps, so the transform is the exact product, rounded once (46 R622). -/
theorem cell_idctBlock_eq_roundR {blk : Block} (h : CellsBounded blk) (y x : Fin 8) :
    cell (idctBlock blk) y x = roundR (exactSample blk y x) := by
  rw [cell_idctBlock, S64.toInt_ofInt_of_abs_lt]
  exact (abs_roundR_le (abs_exactSample_le (fun v u => (h v u).le) y x)).trans_lt (by norm_num)

/-- Settles O44: the model's sixteenths are the exact product, and its integer rounding is that of the reals. -/
theorem idctIsExactlyRounded : Obligations.IdctIsExactlyRounded :=
  fun _ _ h => ⟨_, rfl, cell_idctBlock_eq_roundR (cellsBounded_of_getElem h)⟩

/-! ## A block with only its DC term -/

theorem cell_dcOnly (d : S64) (v u : Fin 8) : cell (dcOnly d) v u = if v = 0 ∧ u = 0 then d.toInt else 0 := by
  have hidx : 0 = 8 * v.val + u.val ↔ v = 0 ∧ u = 0 := by omega
  simp only [cell, dcOnly, Vector.getElem_set, hidx, apply_ite BitVec.toInt, Vector.getElem_replicate]
  rfl

theorem exactSample_dcOnly (d : S64) (y x : Fin 8) : exactSample (dcOnly d) y x = ((d.toInt / 8 : ℚ) : ℝ) := by
  rw [exactSample, Fintype.sum_eq_single 0, Fintype.sum_eq_single 0]
  · have hsq : √(1 / 8 : ℝ) * √(1 / 8) = 1 / 8 := Real.mul_self_sqrt (by norm_num)
    rw [basis_zero, basis_zero, cell_dcOnly, if_pos ⟨rfl, rfl⟩]
    push_cast
    linear_combination (d.toInt : ℝ) * hsq
  · intro u hu
    simp [cell_dcOnly, hu]
  · intro v hv
    simp [cell_dcOnly, hv]

/-- Settles O45: the exact product of a DC-only block is `d / 8` everywhere, as `C[0][y] · C[0][x] = 1/8`. -/
theorem idctOfDcOnlyBlock : Obligations.IdctOfDcOnlyBlock := by
  intro d hd y x
  have hbound : CellsBounded (dcOnly d) := by
    intro v u
    rw [cell_dcOnly]
    split
    · exact hd
    · decide
  rw [cell_idctBlock_eq_roundR hbound, exactSample_dcOnly, roundR_ratCast]

/-! ## Symmetries -/

theorem Block.ext_cell {b b' : Block} (h : ∀ y x : Fin 8, cell b y x = cell b' y x) : b = b' := by
  ext1 i hi
  have hcell := h ⟨i / 8, by omega⟩ ⟨i % 8, by omega⟩
  simp only [cell, Nat.div_add_mod] at hcell
  exact BitVec.eq_of_toInt_eq hcell

theorem exactSample_neg {b b' : Block} (h : ∀ y x : Fin 8, cell b' y x = -cell b y x) (y x : Fin 8) :
    exactSample b' y x = -exactSample b y x := by
  simp only [exactSample, h, Int.cast_neg, mul_neg, neg_mul, Finset.sum_neg_distrib]

theorem exactSample_transpose {b b' : Block} (h : ∀ y x : Fin 8, cell b' y x = cell b x y) (y x : Fin 8) :
    exactSample b' y x = exactSample b x y := by
  simp only [exactSample, h]
  rw [Finset.sum_comm]
  refine Finset.sum_congr rfl fun u _ => Finset.sum_congr rfl fun v _ => ?_
  ring

theorem idctBlock_zero : idctBlock (Vector.replicate 64 0) = Vector.replicate 64 0 := by
  have hcell (y x : Fin 8) : cell (Vector.replicate 64 0) y x = 0 := by rw [cell, Vector.getElem_replicate]; rfl
  have hsample (y x : Fin 8) : exactSample (Vector.replicate 64 0) y x = 0 := by
    simp only [exactSample, hcell, Int.cast_zero, mul_zero, zero_mul, Finset.sum_const_zero]
  refine Block.ext_cell fun y x => ?_
  rw [cell_idctBlock, hsample, roundR_zero, hcell]
  rfl

/-- Settles O46: the exact product has the three laws, and rounding is odd. -/
theorem idctSymmetries : Obligations.IdctSymmetries := by
  refine ⟨idctBlock_zero, fun b b' hb => ?_⟩
  have hbound := cellsBounded_of_getElem hb
  refine ⟨fun hneg y x => ?_, fun htr y x => ?_⟩
  · have hbound' : CellsBounded b' := fun v u => by rw [hneg, Int.natAbs_neg]; exact hbound v u
    rw [cell_idctBlock_eq_roundR hbound', cell_idctBlock_eq_roundR hbound, exactSample_neg hneg, roundR_neg]
  · have hbound' : CellsBounded b' := fun v u => by rw [htr]; exact hbound u v
    rw [cell_idctBlock_eq_roundR hbound', cell_idctBlock_eq_roundR hbound, exactSample_transpose htr]

end Sys2Proof.Machine
end

section
/-! SUPPORT. The ColorConverter: the colour matrix in exact rationals, the place of a pixel in OUT, and the writes of a
macroblock. -/

namespace Sys2Proof.Machine

open Sys2Proof.Claims

/-! ## The colour matrix (47 R654) -/

/-- Integer division after doubling is the floor of the quotient and a half. -/
theorem floor_div_add_half (n : Int) {d : Nat} (hd : 0 < d) : ⌊(n : ℚ) / d + 1 / 2⌋ = (2 * n + d) / (2 * d) := by
  have hquot : (n : ℚ) / d + 1 / 2 = ((2 * n + d : Int) : ℚ) / ((2 * d : Nat) : ℚ) := by
    have : (d : ℚ) ≠ 0 := by exact_mod_cast hd.ne'
    push_cast
    field_simp
  rw [hquot, Rat.floor_intCast_div_natCast]
  push_cast
  rfl

/-- The rounding of the model is that of the exact quotient (00 R16). -/
theorem roundHalfAway_eq_roundQ (n : Int) {d : Nat} (hd : 0 < d) : roundHalfAway n d = roundQ ((n : ℚ) / d) := by
  have hd' : (0 : ℚ) < d := by exact_mod_cast hd
  have hsign : 0 ≤ (n : ℚ) / d ↔ 0 ≤ n := by rw [le_div_iff₀ hd', zero_mul, Int.cast_nonneg_iff]
  have hneg := floor_div_add_half (-n) hd
  rw [Int.cast_neg, neg_div, mul_neg, ← neg_mul] at hneg
  rw [roundHalfAway, roundQ, floor_div_add_half n hd, hneg]
  simp only [hsign]

theorem clamp_eq_min_max (v : Int) : clamp v 0 255 = min (max v 0) 255 := by
  unfold clamp
  split
  · omega
  · split <;> omega

/-- A channel is its exact value, rounded and clamped. -/
theorem channel_eq_channelOf (n : Int) : channel n = channelOf ((n : ℚ) / 1000) := by
  rw [channel, channelOf, clamp_eq_min_max, roundHalfAway_eq_roundQ n (by decide)]
  rfl

/-- The clamp is the byte's range, so the byte loses nothing. -/
theorem channelOf_toNat (q : ℚ) : ((channelOf q).toNat : Int) = min (max (roundQ q) 0) 255 := by
  rw [channelOf, BitVec.toNat_ofInt]
  omega

/-- The numerators of the matrix over 1000 are its exact rows. -/
theorem toPixel_eq_channelOf (l cb cr : Int) :
    toPixel l cb cr =
      { r := channelOf ((l + 128 : ℚ) + 1402 / 1000 * cr)
        g := channelOf ((l + 128 : ℚ) - 344 / 1000 * cb - 714 / 1000 * cr)
        b := channelOf ((l + 128 : ℚ) + 1772 / 1000 * cb) } := by
  simp only [toPixel, channel_eq_channelOf, Pixel.mk.injEq]
  refine ⟨?_, ?_, ?_⟩ <;> congr 1 <;> push_cast <;> ring

/-- Settles O47: each channel is `channelOf` of its exact row, and the byte holds the clamped value. -/
theorem colourMatrixIsExact : Obligations.ColourMatrixIsExact := by
  intro l cb cr
  dsimp only
  rw [toPixel_eq_channelOf]
  exact ⟨channelOf_toNat _, channelOf_toNat _, channelOf_toNat _⟩

/-! ## The pixels of a macroblock (47 R650 to R653, R658) -/

theorem mem_macroblockPixels (p : Fin 16 × Fin 16) : p ∈ macroblockPixels :=
  List.mem_flatMap.2 ⟨p.2, List.mem_finRange _, List.mem_map.2 ⟨p.1, List.mem_finRange _, rfl⟩⟩

theorem Pixel.bytes_length (p : Pixel) (bgr : Bool) : (p.bytes bgr).length = 3 := by cases bgr <;> rfl

/-- A pixel of the block buffers has the exact channels in the byte order of the frame. -/
theorem State.pixel_bytes (s : State) (x y : Fin 16) :
    (s.pixel x y).bytes s.bgrL = pixelBytes (fun b => s.blk[b]) s.bgrL x y := by
  rw [State.pixel, toPixel_eq_channelOf]
  rfl

section place
variable {stride mx my : Nat}

/-- The bytes of a pixel end inside its row when the macroblock does (47 R651). -/
theorem pixelOffset_add_three_le (hmx : 48 * (mx + 1) ≤ stride) (x y : Fin 16) :
    pixelOffset stride mx my x y + 3 ≤ (16 * my + y + 1) * stride := by
  rw [pixelOffset, add_one_mul]
  omega

/-- The pixels of a row of the macroblock stand before those of a later row. -/
theorem pixelOffset_add_three_le_of_lt (hmx : 48 * (mx + 1) ≤ stride) {y y' : Fin 16} (hy : y < y') (x x' : Fin 16) :
    pixelOffset stride mx my x y + 3 ≤ pixelOffset stride mx my x' y' :=
  calc
    _ ≤ (16 * my + y + 1) * stride := pixelOffset_add_three_le hmx x y
    _ ≤ (16 * my + y') * stride := Nat.mul_le_mul_right _ (by omega)
    _ ≤ _ := Nat.le_add_right _ _

/-- Two pixels of the macroblock share no byte. -/
theorem pixelOffset_apart (hmx : 48 * (mx + 1) ≤ stride) {p q : Fin 16 × Fin 16} (h : p ≠ q) :
    pixelOffset stride mx my p.1 p.2 + 3 ≤ pixelOffset stride mx my q.1 q.2 ∨
      pixelOffset stride mx my q.1 q.2 + 3 ≤ pixelOffset stride mx my p.1 p.2 := by
  rcases lt_trichotomy p.2 q.2 with hy | hy | hy
  · exact .inl (pixelOffset_add_three_le_of_lt hmx hy _ _)
  · have hx : p.1.val ≠ q.1.val := fun hx => h (Prod.ext (Fin.ext hx) hy)
    rw [pixelOffset, pixelOffset, hy]
    omega
  · exact .inr (pixelOffset_add_three_le_of_lt hmx hy _ _)

end place

/-! ## Writing runs of bytes -/

/-- The bytes of each item written from its offset on, one item after the other. -/
def Memory.writeRuns {ι : Type} (off : ι → Nat) (bytes : ι → List Byte) (items : List ι) (m : Memory) : Memory :=
  items.foldl (fun m i => m.writeList (off i) (bytes i)) m

section runs
variable {ι : Type} {off : ι → Nat} {bytes : ι → List Byte}

theorem Memory.writeRuns_cons (i : ι) (items : List ι) (m : Memory) :
    m.writeRuns off bytes (i :: items) = (m.writeList (off i) (bytes i)).writeRuns off bytes items := rfl

/-- Outside every run a byte is as before. -/
theorem Memory.read_writeRuns_other {c : Nat} : ∀ (items : List ι) (m : Memory),
    (∀ i ∈ items, c < off i ∨ off i + (bytes i).length ≤ c) → (m.writeRuns off bytes items).read c = m.read c
  | [], _, _ => rfl
  | i :: items, m, h => by
    rw [Memory.writeRuns_cons, Memory.read_writeRuns_other items _ fun k hk => h k (List.mem_cons_of_mem _ hk)]
    exact Memory.read_writeList_other _ _ _ (h i List.mem_cons_self)

/-- A byte of a run that is outside the runs of all other items is the one its item wrote. -/
theorem Memory.read_writeRuns_same {i : ι} {j : Nat} {b : Byte} (hb : (bytes i)[j]? = some b)
    (hother : ∀ k, k ≠ i → off i + j < off k ∨ off k + (bytes k).length ≤ off i + j) :
    ∀ (items : List ι) (m : Memory), m.wf → i ∈ items → (m.writeRuns off bytes items).read (off i + j) = b
  | k :: items, m, hm, hi => by
    rw [Memory.writeRuns_cons]
    by_cases hlater : i ∈ items
    · exact Memory.read_writeRuns_same hb hother items _ (Memory.writeList_wf _ _ _ hm) hlater
    · obtain rfl : i = k := (List.mem_cons.1 hi).resolve_right hlater
      rw [Memory.read_writeRuns_other items _ fun k hk => hother k (ne_of_mem_of_not_mem hk hlater)]
      exact Memory.read_writeList_same _ _ _ _ _ hm hb

end runs

/-! ## The writes of colour conversion (47 R650) -/

/-- A run below OUT_LEN is written whole (70 R924). -/
theorem writeBytes_ok {s : State} (hcap : s.regs.outLen.toNat ≤ s.params.outMemBytes) :
    ∀ (bs : List Byte) (a : Nat) (m : Memory), a + bs.length ≤ s.regs.outLen.toNat →
      writeBytes a bs { s with outMem := m } = .ok () { s with outMem := m.writeList a bs }
  | [], _, _, _ => rfl
  | b :: bs, a, m, h => by
    rw [List.length_cons] at h
    rw [writeBytes, memWrite_ok (by dsimp only; omega) (by dsimp only; omega), Eff.bind_ok]
    exact writeBytes_ok hcap bs (a + 1) _ (by omega)

/-- `m` with the pixels `ps` of macroblock (mx, my) written at their places, one after the other. -/
def State.painted (s : State) (mx my : Nat) (ps : List (Fin 16 × Fin 16)) (m : Memory) : Memory :=
  m.writeRuns (fun p => pixelOffset s.regs.stride.toNat mx my p.1 p.2) (fun p => (s.pixel p.1 p.2).bytes s.bgrL) ps

theorem forEach_writePixel_ok {s : State} {mx my : Nat} (hcap : s.regs.outLen.toNat ≤ s.params.outMemBytes)
    (hin : ∀ x y, pixelOffset s.regs.stride.toNat mx my x y + 3 ≤ s.regs.outLen.toNat) :
    ∀ (ps : List (Fin 16 × Fin 16)) (m : Memory),
      Eff.forEach (fun p s => writePixel mx my p.1 p.2 s) ps { s with outMem := m } =
        .ok () { s with outMem := s.painted mx my ps m }
  | [], _ => rfl
  | p :: ps, m => by
    have hp : writePixel mx my p.1 p.2 { s with outMem := m } = .ok () { s with outMem := s.painted mx my [p] m } :=
      writeBytes_ok hcap _ _ m (by rw [Pixel.bytes_length]; exact hin p.1 p.2)
    rw [Eff.forEach_cons, hp, Eff.bind_ok]
    exact forEach_writePixel_ok hcap hin ps _

section painted
variable {s : State} {mx my : Nat}

/-- A painted pixel's bytes stand at its place. -/
theorem State.read_painted_pixel (hwf : s.outMem.wf) (hmx : 48 * (mx + 1) ≤ s.regs.stride.toNat) {p : Fin 16 × Fin 16}
    {j : Nat} {b : Byte} (hb : ((s.pixel p.1 p.2).bytes s.bgrL)[j]? = some b) :
    (s.painted mx my macroblockPixels s.outMem).read (pixelOffset s.regs.stride.toNat mx my p.1 p.2 + j) = b := by
  have hj : j < 3 := Pixel.bytes_length _ _ ▸ (List.getElem?_eq_some_iff.1 hb).1
  refine Memory.read_writeRuns_same (i := p) hb (fun q hq => ?_) _ _ hwf (mem_macroblockPixels p)
  have := pixelOffset_apart (my := my) hmx hq
  rw [Pixel.bytes_length]
  omega

/-- A byte of no pixel is as before. -/
theorem State.read_painted_other {a : Nat} (ha : ∀ x y, a < pixelOffset s.regs.stride.toNat mx my x y ∨
    pixelOffset s.regs.stride.toNat mx my x y + 3 ≤ a) (ps : List (Fin 16 × Fin 16)) (m : Memory) :
    (s.painted mx my ps m).read a = m.read a :=
  Memory.read_writeRuns_other _ _ fun p _ => by rw [Pixel.bytes_length]; exact ha p.1 p.2

end painted

/-- Settles O48: no pixel is beyond OUT_LEN, and no two pixels share a byte. -/
theorem colorConvertPlacesPixels : Obligations.ColorConvertPlacesPixels := by
  intro s mx my hwf hmx hmy hcap
  have hin (x y : Fin 16) : pixelOffset s.regs.stride.toNat mx my x y + 3 ≤ s.regs.outLen.toNat :=
    calc
      _ ≤ (16 * my + y + 1) * s.regs.stride.toNat := pixelOffset_add_three_le hmx x y
      _ ≤ 16 * (my + 1) * s.regs.stride.toNat := Nat.mul_le_mul_right _ (by omega)
      _ ≤ _ := hmy
  refine ⟨_, forEach_writePixel_ok hcap hin macroblockPixels s.outMem, fun x y j b hb => ?_, fun a ha => ?_⟩
  · exact State.read_painted_pixel (p := (x, y)) hwf hmx (s.pixel_bytes x y ▸ hb)
  · exact State.read_painted_other ha _ _

/-! ## The pixels of the image (47 R651, R656) -/

/-- A macroblock of the grid, a pixel of it and a byte of the pixel. -/
abbrev PixelByte : Type := (Nat × Nat) × (Fin 16 × Fin 16) × Fin 3

/-- The offset of a byte of a pixel. -/
def PixelByte.offset (stride : Nat) (p : PixelByte) : Nat :=
  pixelOffset stride p.1.1 p.1.2 p.2.1.1 p.2.1.2 + p.2.2.val

/-- The byte of a pixel at an offset: the row of pixels by the quotient, the place in it by the remainder. -/
def PixelByte.ofOffset (stride a : Nat) : PixelByte :=
  ((a % stride / 48, a / stride / 16),
    (⟨a % stride / 3 % 16, Nat.mod_lt _ (by decide)⟩, ⟨a / stride % 16, Nat.mod_lt _ (by decide)⟩),
    ⟨a % stride % 3, Nat.mod_lt _ (by decide)⟩)

/-- A row of macroblocks needs no padding to a multiple of 4 (10 R133). -/
theorem strideOf_eq (cols : Nat) : strideOf cols = 48 * cols := by
  unfold strideOf; omega

theorem lt_outLenOf_iff {cols : Nat} (hcols : 0 < cols) (rows a : Nat) :
    a < outLenOf cols rows ↔ a / strideOf cols < 16 * rows := by
  rw [Nat.div_lt_iff_lt_mul (by rw [strideOf_eq]; omega), outLenOf, mul_assoc, mul_comm (strideOf cols), mul_comm rows]

/-- The offset of a byte inside the row of pixels is the remainder by the stride, and the row is the quotient. -/
theorem PixelByte.offset_eq_iff {cols : Nat} {p : PixelByte} (hx : p.1.1 < cols) (a : Nat) :
    p.offset (strideOf cols) = a ↔ PixelByte.ofOffset (strideOf cols) a = p := by
  have hrest : 3 * (16 * p.1.1 + p.2.1.1) + p.2.2 < strideOf cols := by rw [strideOf_eq]; omega
  have hdiv := Nat.div_mod_unique (a := a) (d := 16 * p.1.2 + p.2.1.2) (Nat.zero_lt_of_lt hrest)
    |>.trans (and_iff_left hrest)
  obtain ⟨⟨mx, my⟩, ⟨x, y⟩, j⟩ := p
  dsimp only at hdiv
  simp only [PixelByte.offset, pixelOffset, PixelByte.ofOffset, Prod.mk.injEq, Fin.ext_iff]
  rw [mul_comm (16 * my + y.val), add_assoc, add_comm, ← hdiv]
  omega

/-- Every offset below the output length is that of its own byte of the grid, and of no other. -/
theorem PixelByte.inGrid_iff (cols rows a : Nat) (p : PixelByte) :
    (p.1.1 < cols ∧ p.1.2 < rows ∧ p.offset (strideOf cols) = a) ↔
      a < outLenOf cols rows ∧ PixelByte.ofOffset (strideOf cols) a = p := by
  rcases Nat.eq_zero_or_pos cols with rfl | hcols
  · simp [outLenOf, strideOf]
  rw [lt_outLenOf_iff hcols]
  constructor
  · rintro ⟨hx, hy, hp⟩
    obtain rfl := (PixelByte.offset_eq_iff hx a).1 hp
    exact ⟨by simp only [PixelByte.ofOffset] at hy; omega, rfl⟩
  · rintro ⟨ha, rfl⟩
    have hrest : a % strideOf cols < 48 * cols := strideOf_eq cols ▸ Nat.mod_lt a (by rw [strideOf_eq]; omega)
    have hx : (PixelByte.ofOffset (strideOf cols) a).1.1 < cols := by simp only [PixelByte.ofOffset]; omega
    exact ⟨hx, by simp only [PixelByte.ofOffset]; omega, (PixelByte.offset_eq_iff hx a).2 rfl⟩

theorem lt_outLenOf_iff_existsUnique (cols rows a : Nat) :
    a < outLenOf cols rows ↔
      ∃! p : PixelByte, p.1.1 < cols ∧ p.1.2 < rows ∧ p.offset (strideOf cols) = a := by
  simp only [PixelByte.inGrid_iff]
  exact ⟨fun ha => ⟨_, ⟨ha, rfl⟩, fun _ hp => hp.2.symm⟩, fun ⟨_, hp, _⟩ => hp.1⟩

/-- Settles O49: the grid's offsets are read back by quotient and remainder, and an accepted frame has the stride and the
length of its grid. -/
theorem pixelGridCoversOutputOnce : Obligations.PixelGridCoversOutputOnce := by
  refine ⟨fun cols rows => lt_outLenOf_iff_existsUnique cols rows, fun s hs => ?_⟩
  rw [hs.strideReg, hs.outLenReg]
  exact lt_outLenOf_iff_existsUnique _ _

end Sys2Proof.Machine
end

section
/-! SUPPORT. HOST_START (48 R750, R751) and the entry of phase 2 (48 R701). -/

namespace Sys2Proof.Machine

open Sys2Proof.Claims

/-- Settles O8: the write decodes as HOST_START. -/
theorem stepRunsHostStart : Obligations.StepRunsHostStart := by
  intro s v rest hm hv
  rw [step_host hm, hostStep_move (by simp), hostTurn_writeReg, if_pos ⟨rfl, hv⟩]
  rfl

/-- BGR is stored, and START then acts while not BUSY (48 R750, R751). -/
theorem exec_hostStart_eq (v : Word) (s : State) : exec (.hostStart v) s =
    Eff.outcome (if (v.getLsbD 0 && !s.busy) = true then start { s with regs := { s.regs with ctrlBgr := v.getLsbD 1 } }
      else .ok () { s with regs := { s.regs with ctrlBgr := v.getLsbD 1 } }) := rfl

/-- Settles O17: `start()` clears, latches the BGR just stored, and then checks the input's length. -/
theorem startClearsAndLatches : Obligations.StartClearsAndLatches := by
  intro s v hb hv
  rw [exec_hostStart_eq, if_pos (by simp [hb, hv]), start_eq]
  refine ⟨fun hfits => ?_, fun hlong => ?_⟩
  · rw [if_neg (Nat.not_lt.2 hfits)]
    rfl
  · rw [if_pos hlong]
    rfl

/-- Settles O18: while BUSY only the store of BGR is done. -/
theorem startWhileBusyOnlyStoresBgr : Obligations.StartWhileBusyOnlyStoresBgr := by
  intro s v hb
  rw [exec_hostStart_eq, if_neg (by simp [hb]), Eff.outcome_ok]

/-- Settles O32: EOI passes the order check once the scan is there, and enters phase 2. -/
theorem eoiBeginsPhase2 : Obligations.EoiBeginsPhase2 := by
  intro s h hd
  change ((checkOrder 0xD9 s).bind _).outcome = _
  rw [checkOrder_ok (orderError_eoi h hd)]
  rfl

end Sys2Proof.Machine
end

section
/-! SUPPORT. A DECODE step as the parts of a macroblock, and a part as a lookup and the symbol's instruction. -/

namespace Sys2Proof.Machine

open Sys2Proof.Claims

variable {s t : State}

/-! ## The parts of a macroblock, one after the other -/

theorem PartStep.item_k_le (h : PartStep s t) : t.item.k ≤ 64 := by
  cases h with
  | error moved k o m b => exact Nat.zero_le 64
  | dc moved d first small => exact (by decide : 1 ≤ 64)
  | ac moved blk k notFirst further last => exact last
  | block complete h => exact Nat.zero_le 64
  | macroblock complete sixth rendered =>
    rename_i u
    obtain ⟨_, he⟩ | ⟨_, _, he⟩ | he := nextMacroblock_cases u <;> rw [he] <;> exact Nat.zero_le 64

/-- Fuel above the parts that may still come does not matter. -/
theorem itemsToBoundary_fuel {n m : Nat} (hk : s.item.k ≤ 64) (hn : s.partsLeft < n) (hm : s.partsLeft < m) :
    itemsToBoundary n s = itemsToBoundary m s := by
  induction n generalizing s m with
  | zero => omega
  | succ n ih =>
    obtain ⟨m, rfl⟩ := Nat.exists_eq_succ_of_ne_zero (Nat.ne_zero_of_lt hm)
    rw [itemsToBoundary_succ, itemsToBoundary_succ]
    cases ht : itemStep s with
    | next t =>
      by_cases hb : t.atBoundary = true
      · simp only [if_pos hb]
      · have hpart := itemStep_cases ht
        have hless := (hpart.partsLeft hk).resolve_left hb
        simp only [if_neg hb]
        exact ih hpart.item_k_le (by omega) (by omega)
    | fault r => rfl
    | refused r => rfl

theorem Item.eq_start_iff (i : Item) : i = .start ↔ i.blk.val = 0 ∧ i.k = 0 := by
  obtain ⟨b, k⟩ := i
  rw [Item.start, Item.mk.injEq]
  exact and_congr_left' Fin.ext_iff

/-- Inside a macroblock some part of it is over. -/
theorem State.partsLeft_of_not_atBoundary (hb : ¬s.atBoundary = true) : s.partsLeft < 389 := by
  obtain ⟨_, hi⟩ : s.phase = .decode ∧ ¬s.item = .start := by simpa [State.atBoundary] using hb
  rw [Item.eq_start_iff] at hi
  unfold State.partsLeft
  omega

/-- A part leaves the host's moves alone. -/
theorem itemStep_hostMoves (h : itemStep s = .next t) : t.hostMoves = s.hostMoves :=
  (itemStep_cases h).outsideKept.1.hostMoves

/-- A DECODE step is its first part, and then what a step from there is. -/
theorem step_decode_eq (hp : s.phase = .decode) (hm : s.hostMoves = []) :
    step s = match itemStep s with
      | .next t => if t.atBoundary then .next t else step t
      | .fault r => .fault r
      | .refused r => .refused r := by
  rw [step_engine hm, engineStep_decode hp, show macroblockItems = 389 + 1 from rfl, itemsToBoundary_succ]
  cases ht : itemStep s with
  | next t =>
    by_cases hb : t.atBoundary = true
    · simp only [if_pos hb]
    · have hleft := State.partsLeft_of_not_atBoundary hb
      simp only [if_neg hb]
      rw [step_engine ((itemStep_hostMoves ht).trans hm), engineStep_decode (State.phase_of_not_atBoundary hb)]
      exact itemsToBoundary_fuel (itemStep_cases ht).item_k_le hleft (hleft.trans (by decide))
  | fault r => rfl
  | refused r => rfl

/-! ## The lookup of a symbol (43 R510, R512) -/

theorem State.th_eq (s : State) : s.th = decide (classOf s.item.blk = 1) := by
  rw [State.th, classOf_eq]
  by_cases h : comp s.item.blk = 0 <;> simp [h]

theorem itemStep_symbol (hk : s.item.k < 64) : itemStep s = (Turn.ofFetch (fetchSymbol s)).outcome := by
  rw [itemStep, itemTurn_symbol hk]

/-- A code that is found is consumed, and its symbol's instruction runs. -/
theorem itemStep_of_lookup {b : Byte} {u : State} (hk : s.item.k < 64) (h : decodeSymbol s = .ok b u)
    (hac : u.acNext = s.acNext) : ∃ i, decode (s.symbolCode b) = .ok i ∧ itemStep s = exec i u := by
  have hcode : u.symbolCode b = s.symbolCode b := by rw [State.symbolCode, hac, State.symbolCode]
  obtain ⟨i, hi, hd⟩ := decoded_ok (symbolCode_decodes b s) u
  refine ⟨i, hi, ?_⟩
  rw [itemStep_symbol hk, fetchSymbol, h, Eff.bind_ok, hcode, hd]
  rfl

/-- A lookup that raises is corrupt for the table of the item. -/
theorem itemStep_of_raised {o : Nat} {r : BitReader} (hk : s.item.k < 64)
    (h : decodeSymbol s = .raised (State.raise .corruptBitstream o 0 (some s.itemTable) { s with br := r })) :
    itemStep s = .next (corrupt { s with br := r } o ((if s.acNext then 16 else 0) + classOf s.item.blk)) := by
  have hac : (if s.acNext then 16 else 0) = if s.item.k = 0 then 0 else 16 := by simp [State.acNext, ite_not]
  rw [itemStep_symbol hk, fetchSymbol, h, Eff.bind_raised, hac]
  exact congrArg Host.Outcome.next (State.raise_itemTable { s with br := r } o)

/-- Settles O7: a macroblock has fewer parts than the step's fuel, and each lookup finds a code, an unpopulated entry or
an exhausted SCAN. -/
theorem stepRunsSymbolAfterLookup : Obligations.StepRunsSymbolAfterLookup := by
  refine fun s hp => ⟨step_decode_eq hp, fun hk hr htables => ?_⟩
  intro tc th e tbl
  have he : e = (s.ht.get s.acNext s.th).entry (s.scan.bits s.consumed 16) := by rw [s.th_eq]; rfl
  refine ⟨fun hb h1 => ?found, fun hb h0 => ?unpopulated, fun hb => ?exhausted⟩
  case found =>
    have h16 := HuffTable.entry_len_le (htables s.acNext s.th) (s.scan.bits s.consumed 16)
    have hfound := decodeSymbol_ok hr hb (he ▸ h1) h16
    rw [← he] at hfound
    exact itemStep_of_lookup hk hfound rfl
  case unpopulated => exact itemStep_of_raised hk (decodeSymbol_unpopulated hr hb (he ▸ h0))
  case exhausted => exact itemStep_of_raised hk (decodeSymbol_short hr hb)

end Sys2Proof.Machine
end

section
/-! SUPPORT. The part after a complete block: the next block, or the macroblock into OUT (48 R702 to R705). -/

namespace Sys2Proof.Machine

open Sys2Proof.Claims

variable {s : State}

/-! ## A stage over the six blocks -/

/-- The block buffers with `f b` applied to each buffer `b` of `bs`, one after the other. -/
def mapBlocks (f : Fin 6 → Block → Block) (bs : List (Fin 6)) (v : Vector Block 6) : Vector Block 6 :=
  bs.foldl (fun v (b : Fin 6) => v.set b (f b v[b])) v

theorem mapBlocks_getElem {f : Fin 6 → Block → Block} (c : Fin 6) :
    ∀ (bs : List (Fin 6)) (v : Vector Block 6), bs.Nodup →
      (mapBlocks f bs v)[c] = if c ∈ bs then f c v[c] else v[c]
  | [], _, _ => rfl
  | b :: bs, v, h => by
    obtain ⟨hb, hbs⟩ := List.nodup_cons.1 h
    change (mapBlocks f bs (v.set b (f b v[b])))[c] = _
    rw [mapBlocks_getElem c bs _ hbs]
    by_cases hc : c = b
    · subst hc; simp [hb]
    · have hne : b.val ≠ c.val := fun e => hc (Fin.ext e.symm)
      simp [hc, hne]

/-- All six blocks, each by its own. -/
theorem mapBlocks_blocks (f : Fin 6 → Block → Block) (v : Vector Block 6) :
    mapBlocks f blocks v = Vector.ofFn fun b => f b v[b] := by
  ext1 i hi
  have hmem : (⟨i, hi⟩ : Fin 6) ∈ blocks := List.mem_finRange _
  have hget := mapBlocks_getElem (f := f) ⟨i, hi⟩ blocks v (List.nodup_finRange 6)
  rw [if_pos hmem] at hget
  rw [Vector.getElem_ofFn]
  exact hget

/-- A loop whose body replaces the block it is given. -/
theorem forEach_mapBlocks {body : Fin 6 → State → Eff Unit} {f : Fin 6 → Block → Block}
    (h : ∀ b v, body b { s with blk := v } = .ok () { s with blk := v.set b (f b v[b]) }) :
    ∀ (bs : List (Fin 6)) (v : Vector Block 6),
      Eff.forEach body bs { s with blk := v } = .ok () { s with blk := mapBlocks f bs v }
  | [], _ => rfl
  | b :: bs, v => by
    rw [Eff.forEach_cons, h, Eff.bind_ok]
    exact forEach_mapBlocks h bs _

theorem forEach_blocks {body : Fin 6 → State → Eff Unit} {f : Fin 6 → Block → Block}
    (h : ∀ b v, body b { s with blk := v } = .ok () { s with blk := v.set b (f b v[b]) }) (v : Vector Block 6) :
    Eff.forEach body blocks { s with blk := v } = .ok () { s with blk := Vector.ofFn fun b => f b v[b] } := by
  rw [forEach_mapBlocks h, mapBlocks_blocks]

/-! ## The macroblock into OUT -/

/-- The values of the slot that the component of block `b` names. -/
def State.slotValues (s : State) (b : Fin 6) : QuantSlot :=
  s.qt.vals.toArray.getD (s.fh.tq[component b]).toNat QuantSlot.zero

theorem dequantize_eq (hf : FrameOk s) (b : Fin 6) (v : Vector Block 6) :
    dequantize b { s with blk := v } = .ok () { s with blk := v.set b (dequantBlock (s.slotValues b) v[b]) } := by
  have ht : (s.fh.tq[component b]).toNat < 4 := Nat.lt_succ_of_le (hf.slots (component b))
  have hslot : s.slotValues b = s.qt.vals[(⟨_, ht⟩ : Fin 4)] := by
    exact dif_pos (by rwa [Vector.size_toArray])
  rw [hslot]
  exact dequantize_ok (s := { s with blk := v }) (t := ⟨_, ht⟩) rfl

/-- The place of a macroblock of the grid is inside its row and inside OUT_LEN (10 R133, 47 R656). -/
theorem FrameOk.macroblock_inside (h : FrameOk s) (hx : s.seq.x.toNat < s.seq.cols.toNat)
    (hy : s.seq.y.toNat < s.seq.rows.toNat) :
    48 * (s.seq.x.toNat + 1) ≤ s.regs.stride.toNat ∧
      16 * (s.seq.y.toNat + 1) * s.regs.stride.toNat ≤ s.regs.outLen.toNat := by
  rw [h.outLenReg, h.strideReg, outLenOf, strideOf_eq]
  refine ⟨Nat.mul_le_mul_left _ hx, ?_⟩
  calc
    _ ≤ 16 * s.seq.rows.toNat * (48 * s.seq.cols.toNat) := Nat.mul_le_mul_right _ (Nat.mul_le_mul_left _ hy)
    _ = _ := by ring

/-- The six blocks are dequantized and transformed, and their pixels written (48 R705). -/
theorem renderMacroblock_ok (hs : s.ItemInv) (hp : s.phase = .decode) :
    ∃ m : Memory,
      renderMacroblock s = .ok () { s with blk := Vector.ofFn fun b => samples s b, outMem := m } ∧
      macroblockWritten s.outMem m s.regs.stride.toNat s.seq.x.toNat s.seq.y.toNat fun x y =>
        pixelBytes (samples s) s.bgrL x y := by
  obtain ⟨hd, hx, hy⟩ := hs.decoding hp
  have hsof := hs.scanAfterSof hd
  have hf := hs.frame hsof
  obtain ⟨hrow, hend⟩ := hf.macroblock_inside hx hy
  have hdequantized := forEach_blocks (dequantize_eq hf) s.blk
  have htransformed := forEach_blocks (s := s) (body := idct) (f := fun _ => idctBlock) (fun _ _ => rfl)
    (Vector.ofFn fun b => dequantBlock (s.slotValues b) s.blk[b])
  have hsamples : (Vector.ofFn fun b : Fin 6 =>
      idctBlock (Vector.ofFn fun b : Fin 6 => dequantBlock (s.slotValues b) s.blk[b])[b]) =
        Vector.ofFn fun b => samples s b := by
    simp only [Fin.getElem_fin, Vector.getElem_ofFn]
    rfl
  obtain ⟨m, hm, hwritten⟩ := colorConvertPlacesPixels { s with blk := Vector.ofFn fun b => samples s b } _ _
    hs.outMem.1 hrow hend (hs.output (s.busy_iff.2 (.inr hp)) hsof)
  refine ⟨m, ?_, ?_⟩
  · rw [renderMacroblock, hdequantized, Eff.bind_ok, htransformed, Eff.bind_ok, hsamples, hm]
  · have hblk : (fun b : Fin 6 => (Vector.ofFn fun b => samples s b)[b]) = samples s :=
      funext fun b => Vector.getElem_ofFn b.isLt
    rwa [hblk] at hwritten

theorem nextMacroblock_eq_advanced (s : State) : nextMacroblock s = advanced s := rfl

theorem itemStep_block (hk : s.item.k = 64) : itemStep s = (afterBlock s).outcome := by
  rw [itemStep, itemTurn_block hk.ge]
  rfl

/-- Settles O50: before the sixth block the next one begins, and after it the macroblock is rendered. -/
theorem completeBlockStep : Obligations.CompleteBlockStep := by
  refine fun s hs hp hk => ⟨fun b hb => ?_, fun h5 => ?_⟩
  · have hlt : s.item.blk.val + 1 < 6 := hb ▸ b.isLt
    rw [itemStep_block hk, afterBlock, dif_pos hlt, Eff.outcome_ok, show b = ⟨s.item.blk.val + 1, hlt⟩ from Fin.ext hb]
  · obtain ⟨m, hm, hwritten⟩ := renderMacroblock_ok hs hp
    refine ⟨m, ?_, hwritten⟩
    rw [itemStep_block hk, afterBlock, dif_neg (by omega), hm, Eff.bind_ok, Eff.outcome_ok, nextMacroblock_eq_advanced]

end Sys2Proof.Machine
end

section
/-! SUPPORT. A DECODE step: no part of it attempts a forbidden access, and it ends after one macroblock (48 R709). -/

namespace Sys2Proof.Machine

open Sys2Proof.Claims

variable {s t u : State}

/-! ## No part attempts an access it may not make -/

/-- `e` attempts no access that the block may not make (70 R924). -/
abbrev Eff.Ends {α : Type} (e : Eff α) : Prop := e.Holds (fun _ _ => True) fun _ => True

theorem Eff.Ends.next {e : Eff Unit} (h : e.Ends) : ∃ t, e.outcome = .next t :=
  (Eff.Holds.outcome (P := fun _ => True) h).imp fun _ ht => ht.1

theorem readExtended_ends (hr : s.ReaderOk) {n : Nat} (hn : n ≤ 16) : (readExtended n s).Ends := by
  rcases Nat.eq_zero_or_pos n with rfl | h1
  · trivial
  · by_cases hb : s.hasBits n
    · rw [readExtended_ok hr h1 hn hb]; trivial
    · rw [readExtended_short hr h1 hn hb]; trivial

/-- Extra bits are read, and what is done with them attempts no access. -/
theorem readExtended_next (hr : s.ReaderOk) {n : Nat} (hn : n ≤ 16) (f : Int → State → State) :
    ∃ t, ((readExtended n s).bind fun v u => Eff.ok () (f v u)).outcome = .next t :=
  Eff.Ends.next ((readExtended_ends hr hn).bind fun _ _ _ => trivial)

theorem exec_dcInstr_next (hr : s.ReaderOk) (b : Byte) : ∃ t, exec (dcInstr b) s = .next t := by
  unfold dcInstr
  split
  · exact ⟨_, rfl⟩
  · split
    · rename_i hb
      have hb : b.toNat ≤ 11 := hb
      exact readExtended_next hr (by omega) fun d u => commitDc d u
    · exact ⟨_, rfl⟩

theorem exec_zrl_next (s : State) : ∃ t, exec .zrl s = .next t := by
  by_cases h : s.item.k + 16 ≤ 64
  · exact ⟨_, exec_zrl_inside h⟩
  · exact ⟨_, exec_zrl_past (Nat.lt_of_not_le h)⟩

theorem exec_acCoef_next (hr : s.ReaderOk) (r : BitVec 4) {n : BitVec 4} (hn : n.toNat ≤ 16) :
    ∃ t, exec (.acCoef r n) s = .next t := by
  by_cases h : 63 < s.item.k + r.toNat
  · exact ⟨_, exec_acCoef_past h⟩
  · have hj : s.item.k + r.toNat < 64 := by omega
    rw [exec_acCoef_inside (j := ⟨_, hj⟩) rfl]
    exact readExtended_next hr hn fun v u => (u.setCoef _ v).withK _

theorem exec_acInstr_next (hr : s.ReaderOk) (r n : BitVec 4) : ∃ t, exec (acInstr r n) s = .next t := by
  unfold acInstr
  split
  · split
    · exact ⟨_, rfl⟩
    · split
      · exact exec_zrl_next s
      · exact ⟨_, rfl⟩
  · split
    · exact exec_acCoef_next hr r (by omega)
    · exact ⟨_, rfl⟩

/-- The instruction of every symbol of an item answers a next state. -/
theorem exec_symbol_next (hr : u.ReaderOk) {b : Byte} {i : Instr} (hi : decode (s.symbolCode b) = .ok i) :
    ∃ t, exec i u = .next t := by
  unfold State.symbolCode at hi
  split at hi
  · rw [decode_acSymbol_eq] at hi; cases hi; exact exec_acInstr_next hr _ _
  · rw [decode_dcSymbol_eq] at hi; cases hi; exact exec_dcInstr_next hr _

theorem itemStep_symbol_next (hs : s.ItemInv) (hk : s.item.k < 64) : ∃ t, itemStep s = .next t := by
  have hr := hs.reader
  by_cases hb : s.hasBits 16
  · by_cases h1 : ((s.ht.get s.acNext s.th).entry (s.scan.bits s.consumed 16)).1 = 0
    · exact ⟨_, itemStep_of_raised hk (decodeSymbol_unpopulated hr hb h1)⟩
    · have hlen : ∀ f ∈ s.ht.get s.acNext s.th, 1 ≤ f.len ∧ f.len ≤ 16 := fun f hf => by
        obtain ⟨h1, h16, _⟩ := (hs.tables _ _).1 f hf
        exact ⟨h1, h16⟩
      obtain ⟨i, hi, he⟩ :=
        itemStep_of_lookup hk (decodeSymbol_ok hr hb h1 (HuffTable.entry_len_le hlen _)) rfl
      rw [he]
      exact exec_symbol_next (readerOk_after hr (le_refl 16) hb) hi
  · exact ⟨_, itemStep_of_raised hk (decodeSymbol_short hr hb)⟩

/-- Under the invariant every part of a macroblock answers a next state, which meets the invariant too. -/
theorem itemStep_next (hs : s.ItemInv) (hp : s.phase = .decode) : ∃ t, itemStep s = .next t ∧ t.ItemInv := by
  have hnext : ∃ t, itemStep s = .next t := by
    rcases hs.itemK.lt_or_eq with hk | hk
    · exact itemStep_symbol_next hs hk
    · obtain ⟨hnextBlock, hrender⟩ := completeBlockStep s hs hp hk
      by_cases hb : s.item.blk.val + 1 < 6
      · exact ⟨_, hnextBlock ⟨_, hb⟩ rfl⟩
      · obtain ⟨m, hm, _⟩ := hrender (by omega)
        exact ⟨_, hm⟩
  exact hnext.imp fun t ht => ⟨ht, (itemStep_cases ht).itemInv hs hp⟩

/-! ## One macroblock -/

/-- `t` is where the macroblock of `s` is over: at the next one, at the end of the image, or at an error, OUT then being
as it was (48 R702, R703, R705). -/
def MacroblockOver (s t : State) : Prop :=
  t.phase = .decode ∧ t.macroblocksDone = s.macroblocksDone + 1 ∨
    t.phase = .done ∧ s.macroblocksDone + 1 = s.seq.cols.toNat * s.seq.rows.toNat ∨
    t.phase = .error ∧ t.outMem = s.outMem

/-- `t` is inside the macroblock that `s` is in. -/
structure SameMacroblock (s t : State) : Prop where
  phase : t.phase = .decode
  seq : t.seq = s.seq
  outMem : t.outMem = s.outMem

/-- In a row the next macroblock follows; after a row the first of the next row, or, after the last one, none. -/
theorem nextMacroblock_over (hp : u.phase = .decode) (hseq : u.seq = s.seq) (hx : s.seq.x.toNat < s.seq.cols.toNat)
    (hy : s.seq.y.toNat < s.seq.rows.toNat) : MacroblockOver s (nextMacroblock u) := by
  unfold nextMacroblock MacroblockOver State.macroblocksDone
  rw [hseq]
  split
  · rename_i hx1
    exact .inl ⟨hp, congrArg _ (Half.toNat_add_one hx1)⟩
  · have hcols : s.seq.x.toNat + 1 = s.seq.cols.toNat := by omega
    split
    · rename_i hy1
      refine .inl ⟨hp, ?_⟩
      change (s.seq.y + 1).toNat * s.seq.cols.toNat + 0 = _
      rw [Half.toNat_add_one hy1, Nat.add_one_mul, Nat.add_zero, Nat.add_assoc, hcols]
    · have hrows : s.seq.y.toNat + 1 = s.seq.rows.toNat := by omega
      refine .inr (.inl ⟨rfl, ?_⟩)
      rw [← hrows, Nat.mul_add_one, Nat.add_assoc, hcols, Nat.mul_comm]

theorem nextMacroblock_atBoundary (s : State) : (nextMacroblock s).atBoundary = true := by
  obtain ⟨_, he⟩ | ⟨_, _, he⟩ | he := nextMacroblock_cases s <;> rw [he] <;> simp [State.atBoundary]

theorem SameMacroblock.inside (h : SameMacroblock s t) (hi : t.item ≠ .start) : t.atBoundary = false := by
  simp [State.atBoundary, h.phase, hi]

/-- A part stays inside the macroblock, or ends it. -/
theorem PartStep.inside_or_over (h : PartStep u t) (hu : SameMacroblock s u) (hx : s.seq.x.toNat < s.seq.cols.toNat)
    (hy : s.seq.y.toNat < s.seq.rows.toNat) :
    t.atBoundary = false ∧ SameMacroblock s t ∨ t.atBoundary = true ∧ MacroblockOver s t := by
  obtain ⟨hp, hseq, hout⟩ := hu
  cases h with
  | error moved k o m b => obtain ⟨r, rfl, _⟩ := moved; exact .inr ⟨rfl, .inr (.inr ⟨rfl, hout⟩)⟩
  | dc moved d first small =>
    obtain ⟨r, rfl, _⟩ := moved
    have hin : SameMacroblock s (commitDc d { u with br := r }) := ⟨hp, hseq, hout⟩
    exact .inl ⟨hin.inside fun hi => absurd ((Item.eq_start_iff _).1 hi).2 (by decide : 1 ≠ 0), hin⟩
  | ac moved blk k notFirst further last =>
    obtain ⟨r, rfl, _⟩ := moved
    have hin : SameMacroblock s { u with br := r, blk := blk, item := ⟨u.item.blk, k⟩ } := ⟨hp, hseq, hout⟩
    exact .inl ⟨hin.inside fun hi => absurd ((Item.eq_start_iff _).1 hi).2 (Nat.ne_zero_of_lt further), hin⟩
  | block complete h =>
    have hin : SameMacroblock s { u with item := ⟨⟨u.item.blk.val + 1, h⟩, 0⟩ } := ⟨hp, hseq, hout⟩
    exact .inl ⟨hin.inside fun hi => absurd ((Item.eq_start_iff _).1 hi).1 (Nat.succ_ne_zero _), hin⟩
  | macroblock complete sixth rendered =>
    obtain ⟨blk, m, rfl, _⟩ := rendered
    exact .inr ⟨nextMacroblock_atBoundary _, nextMacroblock_over hp hseq hx hy⟩

/-- A macroblock that is over was ended by a part that began inside it, if any part of it was run. -/
theorem itemsToBoundary_over {P Q : State → Prop}
    (part : ∀ u v, P u → itemStep u = .next v → v.atBoundary = false ∧ P v ∨ v.atBoundary = true ∧ Q v) (n : Nat)
    (hs : P s) (hn : 0 < n ∨ s.atBoundary = false) (h : itemsToBoundary n s = .next t) (hb : t.atBoundary = true) :
    Q t := by
  induction n generalizing s with
  | zero =>
    cases h
    simp [hb] at hn
  | succ n ih =>
    rw [itemsToBoundary_succ] at h
    split at h
    · rename_i u hu
      obtain ⟨hub, hP⟩ | ⟨hub, hQ⟩ := part s u hs hu
      · rw [if_neg (by simp [hub])] at h
        exact ih hP (.inr hub) h
      · rw [if_pos hub] at h
        cases h
        exact hQ
    · cases h
    · cases h

/-- A DECODE step under the invariant is one macroblock. -/
theorem step_macroblock (hs : s.Inv) (hm : s.hostMoves = []) (hp : s.phase = .decode) :
    ∃ t, step s = .next t ∧ t.Inv ∧ MacroblockOver s t := by
  obtain ⟨t, ht, _⟩ := itemsToBoundary_next (fun _ hs hp => itemStep_next hs hp) macroblockItems hs.toItemInv hp
  have hinv := itemsToBoundary_inv hs hp ht
  obtain ⟨_, hx, hy⟩ := hs.decoding hp
  refine ⟨t, by rw [step_engine hm, engineStep_decode hp, ht], hinv, ?_⟩
  exact itemsToBoundary_over (fun u v hu h => (itemStep_cases h).inside_or_over hu hx hy) _ ⟨hp, rfl, rfl⟩
    (.inl (by decide)) ht (by simp [State.atBoundary, hinv.itemStart])

/-- Once SOF0 is accepted the engine leaves the grid as it is. -/
theorem step_grid (hm : s.hostMoves = []) (hsof : s.seenSof = true) (h : step s = .next t) :
    t.seq.cols = s.seq.cols ∧ t.seq.rows = s.seq.rows := by
  rw [step_engine hm] at h
  obtain ⟨_, _, _, hgrid⟩ := (engineStep_accepted h).frame hsof
  exact hgrid

/-- Settles O60: the macroblock's last part is the one that ends it, and the grid stays. -/
theorem macroStepEndsAtBoundary : Obligations.MacroStepEndsAtBoundary := by
  intro s hs hm hp place
  obtain ⟨t, ht, hinv, hover⟩ := step_macroblock hs hm hp
  have hcols := (step_grid hm (hs.scanAfterSof (hs.decoding hp).1) ht).1
  refine ⟨t, ht, hinv.itemStart, ?_⟩
  rw [MacroblockOver, State.macroblocksDone, State.macroblocksDone, hcols] at hover
  exact hover

end Sys2Proof.Machine
end

section
/-! SUPPORT. A PARSE step: no marker attempts a forbidden access, and each that leaves the parser in PARSE advances `pc`
(48 R709 (b), R708). -/

namespace Sys2Proof.Machine

open Sys2Proof.Claims

variable {s t : State} {m : Byte}

/-- The parser is past the cursor of `s`, unless the parse is over. -/
def State.Ahead (s t : State) : Prop := t.phase = .parse → s.pc.toNat < t.pc.toNat

/-- A part of the parse attempts no access it may not make, and ends ahead of `s`. -/
abbrev Eff.Proceeds (e : Eff Unit) (s : State) : Prop := e.Holds (fun _ => s.Ahead) s.Ahead

/-- An error is ahead of everything: the parse is over. -/
theorem State.ahead_raise (s : State) (k : ErrKind) (o : Nat) (m : Byte) (b : Option Byte) (u : State) :
    s.Ahead (u.raise k o m b) := nofun

theorem State.ahead_atPc {p : Nat} (hp : s.pc.toNat < p) (hlt : p < 2 ^ 32) (u : State) : s.Ahead (u.atPc p) :=
  fun _ => (u.atPc_pc_toNat p hlt).symm ▸ hp

/-- A marker proceeds where it does so past the order check. -/
theorem checkOrder_proceeds {f : Unit → State → Eff Unit} (h : orderError m s = none → (f () s).Proceeds s) :
    ((checkOrder m s).bind f).Proceeds s := by
  cases ho : orderError m s with
  | none => rw [checkOrder_ok ho]; exact h ho
  | some k => rw [checkOrder_bad ho]; exact s.ahead_raise _ _ _ _ _

/-- A marker with a segment proceeds where it does so past an accepted segment header. -/
theorem markerSegment_proceeds {f : Seg → State → Eff Unit}
    (h : orderError m s = none → headerFits s → (f (segAt m s) (s.atPc (s.pc.toNat + 4))).Proceeds s) :
    ((checkOrder m s).bind fun _ s => (segHeader m s).bind f).Proceeds s := by
  refine checkOrder_proceeds fun ho => ?_
  by_cases hf : headerFits s
  · rw [segHeader_fits hf]; exact h ho hf
  · rw [segHeader_rejects hf]; exact s.ahead_raise _ _ _ _ _

/-! ## Marker by marker -/

theorem rejectMarker_proceeds (k : ErrKind) (m : Byte) (s : State) : (rejectMarker k m s).Proceeds s :=
  checkOrder_proceeds fun _ => s.ahead_raise _ _ _ _ _

theorem soi_proceeds (hl : s.pc.toNat + 1 < s.inLenL.toNat) :
    ((checkOrder 0xD8 s).bind fun _ s => Eff.ok () { s with seenSoi := true, pc := s.pc + 2 }).Proceeds s := by
  have hlt := s.inLenL_toNat_lt
  refine checkOrder_proceeds fun _ _ => ?_
  change _ < (s.pc + 2).toNat
  rw [Word.toNat_add_two (by omega)]; omega

theorem eoi_proceeds (s : State) :
    ((checkOrder 0xD9 s).bind fun _ s => Eff.ok () (enterDecode { s with pc := s.pc + 2 })).Proceeds s :=
  checkOrder_proceeds fun _ => nofun

/-- The end of the segment at `pc` is ahead. -/
theorem State.ahead_segEnd (hf : headerFits s) (u : State) : s.Ahead { u with pc := BitVec.ofNat 32 (segEnd s) } := by
  obtain ⟨_, h2, he⟩ := hf
  refine State.ahead_atPc ?_ (he.trans_lt s.inLenL_toNat_lt) u
  rw [segEnd]; omega

theorem skipSegment_proceeds (m : Byte) (s : State) : (skipSegment m s).Proceeds s :=
  markerSegment_proceeds fun _ hf => State.ahead_segEnd hf _

/-! ### Table segments -/

/-- `u` is `s` inside its segment, past the segment header, with any tables loaded so far. -/
def InTables (s u : State) : Prop :=
  ∃ (q : QuantStore) (h : HuffStore) (p : Nat),
    u = ({ s with qt := q, ht := h } : State).atPc p ∧ s.pc.toNat + 4 ≤ p ∧ p ≤ segEnd s

theorem InTables.ahead {u : State} (h : InTables s u) (hf : headerFits s) : s.Ahead u := by
  obtain ⟨q, ht, p, rfl, hlo, hhi⟩ := h
  exact State.ahead_atPc (by omega) ((hhi.trans hf.2.2).trans_lt s.inLenL_toNat_lt) _

theorem InTables.withHt {u : State} (hu : InTables s u) (h : HuffStore) : InTables s { u with ht := h } := by
  obtain ⟨q, _, p, rfl, hlo, hhi⟩ := hu
  exact ⟨q, h, p, rfl, hlo, hhi⟩

/-- A specification is read to its end inside the segment, or raises. -/
abbrev SpecProceeds (m : Byte) (spec : Seg → State → Eff Unit) (s : State) : Prop :=
  ∀ u, InTables s u → u.pc.toNat < segEnd s → (spec (segAt m s) u).Holds (fun _ => InTables s) s.Ahead

/-- A segment of table specifications (42 R434, R437). -/
theorem tableSegment_proceeds {spec : Seg → State → Eff Unit} (hspec : headerFits s → SpecProceeds m spec s) :
    ((checkOrder m s).bind fun _ s => (segHeader m s).bind fun g s => segWhile g (spec g) g.len s).Proceeds s := by
  refine markerSegment_proceeds fun _ hf => ?_
  have hstart : InTables s (s.atPc (s.pc.toNat + 4)) := by
    obtain ⟨_, h2, _⟩ := hf
    exact ⟨s.qt, s.ht, _, rfl, le_refl _, by rw [segEnd]; omega⟩
  exact (holds_segWhile (hspec hf) _ _ hstart).mono (fun _ _ hu => hu.ahead hf) fun _ hu => hu

theorem Eff.Holds.of_eq {α : Type} {e e' : Eff α} {Q : α → State → Prop} {R : State → Prop} (h : e = e')
    (h' : e'.Holds Q R) : e.Holds Q R := h ▸ h'

theorem dqtSpec_proceeds (hf : headerFits s) : SpecProceeds m dqtSpec s := by
  rintro _ ⟨q, h, p, rfl, hlo, hhi⟩ hp
  have hend := hf.2.2
  rw [State.atPc_pc_toNat _ _ ((hhi.trans hend).trans_lt s.inLenL_toNat_lt)] at hp
  by_cases hb : (s.inMem.read p).toNat < 4
  · by_cases hin : p + 65 ≤ segEnd s
    · refine .of_eq (dqtSpec_ok (s := { s with ht := h }) hend q hb hin) ?_
      exact ⟨_, h, p + 65, rfl, by omega, hin⟩
    · obtain ⟨q', _, _, he⟩ := dqtSpec_cut (s := { s with ht := h }) (g := segAt m s) hend q hb hp
        (Nat.lt_of_not_le hin)
      exact .of_eq he (s.ahead_raise _ _ _ _ _)
  · exact .of_eq (dqtSpec_bad (s := { s with ht := h }) hend q hp (Nat.le_of_not_lt hb)) (s.ahead_raise _ _ _ _ _)

theorem buildTable_holds {Q : State → Prop} {tc th : Bool} {cnt v : List Byte} {spos : Nat} {u : State}
    (h : ∀ t, Q { u with ht := u.ht.set tc th t }) : (buildTable tc th cnt v spos u).Holds (fun _ => Q) s.Ahead :=
  holds_raiseIf (fun _ => s.ahead_raise _ _ _ _ _) fun _ => h _

theorem dhtSpec_proceeds (hf : headerFits s) : SpecProceeds m dhtSpec s := by
  rintro _ ⟨q, h, p, rfl, hlo, hhi⟩ hp
  have hend := hf.2.2
  rw [State.atPc_pc_toNat _ _ ((hhi.trans hend).trans_lt s.inLenL_toNat_lt)] at hp
  by_cases hb : (s.inMem.read p).toNat < 32 ∧ (s.inMem.read p).toNat % 16 < 2
  · obtain ⟨h32, h2⟩ := hb
    by_cases hin : p + 17 + countSum (s.inBytes (p + 1) 16) ≤ segEnd s
    · refine .of_eq (dhtSpec_run (s := { s with qt := q }) hend h h32 h2 hin) (buildTable_holds fun t => .withHt ?_ _)
      exact ⟨q, h, _, rfl, by omega, hin⟩
    · exact .of_eq (dhtSpec_cut (s := { s with qt := q }) hend h hp h32 h2 (.inr (Nat.lt_of_not_le hin)))
        (s.ahead_raise _ _ _ _ _)
  · have hbad : 32 ≤ (s.inMem.read p).toNat ∨ 2 ≤ (s.inMem.read p).toNat % 16 := by omega
    exact .of_eq (dhtSpec_bad (s := { s with qt := q }) hend h hp hbad) (s.ahead_raise _ _ _ _ _)

/-! ### Headers and the scan -/

/-- The checks of a header rule raise, or the rule goes on as it does when they pass. -/
theorem Eff.Checks.proceeds {α : Type} {cs : List Check} {e : Eff α} {v : α} {f : α → State → Eff Unit} {u : State}
    (h : Eff.Checks s m cs e v u) (hf : firstFailure cs = none → (f v u).Proceeds s) : (e.bind f).Proceeds s := by
  unfold Eff.Checks at h
  cases hc : firstFailure cs with
  | none => rw [hc] at h; rw [h]; exact hf hc
  | some c => rw [hc] at h; obtain ⟨pc, rfl⟩ := h; exact nofun

theorem sof0_proceeds (s : State) :
    ((checkOrder 0xC0 s).bind fun _ s => (segHeader 0xC0 s).bind fun g s => (sofFields g s).bind fun fh s =>
      (checkOutputCapacity g (commitFrame fh s)).bind fun _ s => closeSegment g s).Proceeds s := by
  refine markerSegment_proceeds fun _ hf => (sofFields_checks hf).proceeds fun _ => ?_
  refine Eff.Holds.bind (Q := fun _ _ => True) ?_ fun _ u _ => State.ahead_segEnd hf u
  exact holds_raiseIf (fun _ => s.ahead_raise _ _ _ _ _) fun _ => trivial

/-- The extraction begun at IN offset `p`, with an empty SCAN, ends no earlier than it began. -/
theorem extract_proceeds {u : State} {p : Nat} (hp : s.pc.toNat < p) (hn : p ≤ u.inLenL.toNat) (hw : u.params.wf)
    (hin : u.inLenL.toNat ≤ u.params.inMemBytes) (h0 : u.scanLen = 0) :
    ((extract (u.atPc p)).bind fun _ t => .ok () { t with scanDone := true }).Proceeds s := by
  have hlt := u.inLenL_toNat_lt
  obtain ⟨hgood, hlone⟩ :=
    extract_run (u.atPc_pc_toNat p (by omega)) (Nat.add_sub_of_le hn).symm hw hin h0
  cases hd : destuffed (u.inBytes p (u.inLenL.toNat - p)) with
  | none =>
    obtain ⟨data, he⟩ := hlone hd
    rw [he]
    exact s.ahead_raise _ _ _ _ _
  | some r =>
    obtain ⟨data, k⟩ := r
    have hk := (destuffed_length _ _ _ hd).2
    rw [State.inBytes_length] at hk
    rw [hgood data k hd]
    exact State.ahead_atPc (by omega) (by omega) { u.scanPlus (data ++ [0, 0]) with scanDone := true }

theorem sos_proceeds (hs : s.ItemInv) (hp : s.phase = .parse) :
    ((checkOrder 0xDA s).bind fun _ s => (segHeader 0xDA s).bind fun g s => (sosFields g s).bind fun sh s =>
      (closeSegment g { s with sh := sh }).bind fun _ s => (extract s).bind fun _ s =>
        .ok () { s with scanDone := true }).Proceeds s := by
  refine markerSegment_proceeds fun ho hf => (sosFields_checks hf).proceeds fun hpass => ?_
  obtain ⟨_, _, _, _, hsos, _⟩ := orderError_eq_none.1 ho
  obtain ⟨_, _, hend⟩ := hf
  refine extract_proceeds (u := { s with sh := (scanHeaderCommitted s).sh }) ?_ hend hs.params
    (hs.input (s.busy_iff.2 (.inl hp))).1 (hs.scanEmpty hp (hsos rfl).2)
  change s.pc.toNat < segEnd s
  rw [segEnd]; omega

/-! ## The step -/

/-- A marker's instruction, with its two bytes inside the input. -/
theorem exec_proceeds (hs : s.ItemInv) (hp : s.phase = .parse) {i : Instr} (hi : isMarkerCode (encode i) = true)
    (hl : s.pc.toNat + 1 < s.inLenL.toNat) : ∃ t, exec i s = .next t ∧ s.Ahead t := by
  cases i with
  | soi => exact (soi_proceeds hl).outcome
  | appn n => exact (skipSegment_proceeds _ s).outcome
  | com => exact (skipSegment_proceeds _ s).outcome
  | dqt => exact (tableSegment_proceeds dqtSpec_proceeds).outcome
  | dht => exact (tableSegment_proceeds dhtSpec_proceeds).outcome
  | sof0 => exact (sof0_proceeds s).outcome
  | sos => exact (sos_proceeds hs hp).outcome
  | eoi => exact (eoi_proceeds s).outcome
  | unsupSof1to3 | unsupSof5to7 | unsupSof9to11 | unsupSof13to15 | unsupDac | unsupRst | unsupDnl | unsupDri | unsupDhp
  | unsupExp | unsupTem | unknown00 | unknownRes | unknownJpg | unknownJpgn | unknownFill =>
    exact (rejectMarker_proceeds _ _ s).outcome
  | scanStuff | dcZero | dcDiff | dcInvalid | eob | zrl | acBadzero | acCoef | acBadsize | hostStart => cases hi

/-- A PARSE step under the invariant answers a next state, which is ahead unless the parse is over. -/
theorem step_parse (hs : s.ItemInv) (hm : s.hostMoves = []) (hp : s.phase = .parse) :
    ∃ t, step s = .next t ∧ s.Ahead t := by
  obtain ⟨hend, hnoScan, hnoMarker, hlast⟩ := parseStepWithoutMarker s hm hp
  by_cases hpc : s.inLenL.toNat ≤ s.pc.toNat
  · cases hd : s.scanDone with
    | true => exact ⟨_, hend hpc hd, nofun⟩
    | false => exact ⟨_, hnoScan hpc hd, nofun⟩
  · by_cases hff : at_ s 0 = 0xFF
    · by_cases hl : s.pc.toNat + 1 < s.inLenL.toNat
      · obtain ⟨i, hi, he⟩ := stepRunsMarkerAtPc s hm hp hl hff
        rw [he]
        exact exec_proceeds hs hp (decode_marker_isMarker hi) hl
      · exact ⟨_, hlast (by omega), nofun⟩
    · exact ⟨_, hnoMarker (by omega) hff, nofun⟩

end Sys2Proof.Machine
end

section
/-! SUPPORT. Every decode ends (48 R708). -/

namespace Sys2Proof.Machine

variable {s t : State}

/-- Some number of steps from `s` reaches DONE or ERROR. -/
def State.Finishes (s : State) : Prop :=
  ∃ (n : Nat) (t : State), Sys2Proof.core.run n s = .next t ∧ (t.phase = .done ∨ t.phase = .error)

/-- A run of one step more goes on from the state after the first step. -/
theorem run_succ_of_step (M : Host.Core) {n : Nat} {s t : M.State} (h : M.step s = .next t) :
    M.run (n + 1) s = M.run n t := by
  rw [Host.Core.run, h]

theorem State.finishes_of_over (h : s.phase = .done ∨ s.phase = .error) : s.Finishes := ⟨0, s, rfl, h⟩

theorem State.Finishes.of_step (h : step s = .next t) (ht : t.Finishes) : s.Finishes := by
  obtain ⟨n, u, hrun, hu⟩ := ht
  exact ⟨n + 1, u, (run_succ_of_step Sys2Proof.core h).trans hrun, hu⟩

/-- Where every step of a kind of state finishes, or stays in the kind and lowers a measure, each of them finishes. -/
theorem State.finishes_of_measure {P : State → Prop} (left : State → Nat)
    (next : ∀ s, P s → ∃ t, step s = .next t ∧ (t.Finishes ∨ P t ∧ left t < left s)) (hs : P s) : s.Finishes := by
  induction hn : left s using Nat.strong_induction_on generalizing s with
  | h n ih =>
    obtain ⟨t, ht, hfin | ⟨hP, hless⟩⟩ := next s hs
    · exact hfin.of_step ht
    · exact (ih _ (hn ▸ hless) hP rfl).of_step ht

/-- `s` is between two engine steps in phase `p`, with no host move pending. -/
structure Between (p : Phase) (s : State) : Prop where
  inv : s.Inv
  hostMoves : s.hostMoves = []
  phase : s.phase = p

/-- Macroblocks still to be decoded, this one included. -/
def State.macroblocksLeft (s : State) : Nat := s.seq.cols.toNat * s.seq.rows.toNat - s.macroblocksDone

/-- Inside the grid a macroblock is left. -/
theorem State.macroblocksDone_lt (hx : s.seq.x.toNat < s.seq.cols.toNat) (hy : s.seq.y.toNat < s.seq.rows.toNat) :
    s.macroblocksDone < s.seq.cols.toNat * s.seq.rows.toNat :=
  calc
    _ < (s.seq.y.toNat + 1) * s.seq.cols.toNat := by rw [State.macroblocksDone, Nat.add_one_mul]; omega
    _ ≤ s.seq.rows.toNat * s.seq.cols.toNat := Nat.mul_le_mul_right _ hy
    _ = _ := Nat.mul_comm _ _

/-- Each DECODE step leaves one macroblock less. -/
theorem finishes_decode (hs : Between .decode s) : s.Finishes := by
  refine State.finishes_of_measure State.macroblocksLeft (fun s ⟨hs, hm, hp⟩ => ?_) hs
  obtain ⟨t, ht, hinv, hover⟩ := step_macroblock hs hm hp
  refine ⟨t, ht, ?_⟩
  obtain ⟨htp, hdone⟩ | ⟨htp, _⟩ | ⟨htp, _⟩ := hover
  · obtain ⟨hd, hx, hy⟩ := hs.decoding hp
    obtain ⟨hcols, hrows⟩ := step_grid hm (hs.scanAfterSof hd) ht
    have hlt := State.macroblocksDone_lt hx hy
    obtain ⟨_, _, _, _, _, _, _, htm, _⟩ := engineStepFrame s t hm ht
    refine .inr ⟨⟨hinv, htm, htp⟩, ?_⟩
    rw [State.macroblocksLeft, State.macroblocksLeft, hcols, hrows, hdone]
    omega
  · exact .inl (State.finishes_of_over (.inl htp))
  · exact .inl (State.finishes_of_over (.inr htp))

/-- Each PARSE step leaves less of the input, or begins phase 2, or ends in an error. -/
theorem finishes_parse (hs : Between .parse s) : s.Finishes := by
  refine State.finishes_of_measure (fun s => s.inLenL.toNat - s.pc.toNat) (fun s ⟨hs, hm, hp⟩ => ?_) hs
  obtain ⟨t, ht, hahead⟩ := step_parse hs.toItemInv hm hp
  have hinv := step_inv hs ht
  obtain ⟨_, _, hlen, _, _, _, _, htm, _⟩ := engineStepFrame s t hm ht
  refine ⟨t, ht, ?_⟩
  obtain ⟨hphase, _⟩ := (phaseMoves s t ht).1 hm
  obtain htp | htp | htp := hphase hp
  · have hin := (hinv.input (t.busy_iff.2 (.inl htp))).2
    have hpc := hahead htp
    refine .inr ⟨⟨hinv, htm, htp⟩, ?_⟩
    rw [hlen] at hin ⊢
    omega
  · exact .inl (finishes_decode ⟨hinv, htm, htp⟩)
  · exact .inl (State.finishes_of_over (.inr htp))

/-- Settles O59: the parse ends since the input does, and phase 2 since the grid does. -/
theorem everyDecodeEnds : Obligations.EveryDecodeEnds := by
  intro s hs hb hm
  obtain hp | hp := s.busy_iff.1 hb
  · exact finishes_parse ⟨hs, hm, hp⟩
  · exact finishes_decode ⟨hs, hm, hp⟩

end Sys2Proof.Machine
end

section
/-! SUPPORT. The moves of the host that are no START: reset, the registers, IN and OUT (70 R900, R920 to R925). -/

namespace Sys2Proof.Machine

variable {s t : State} {mv : HostMove} {rest : List HostMove} {off cap : Nat}

/-- A move that is no START acts at once. -/
theorem hostTurn_outcome (hstart : ∀ v, mv = .writeReg 0 v → v.getLsbD 0 = false) (s : State) :
    (hostTurn mv s).outcome = hostMove mv s := by
  cases mv with
  | writeReg off v =>
    have hno : ¬(off = 0 ∧ v.getLsbD 0 = true) := by
      rintro ⟨rfl, hv⟩
      exact Bool.false_ne_true ((hstart v rfl).symm.trans hv)
    rw [hostTurn_writeReg, if_neg hno]
    rfl
  | engine | readReg | writeIn | readIn | writeOut | readOut | reset => rfl

theorem step_hostMove (hm : s.hostMoves = mv :: rest) (hne : mv ≠ .engine)
    (hstart : ∀ v, mv = .writeReg 0 v → v.getLsbD 0 = false) : step s = hostMove mv { s with hostMoves := rest } := by
  rw [step_host hm, hostStep_move hne, hostTurn_outcome hstart]

/-! ## Reset -/

/-- Settles O11: the move gives the reset state, in which the later moves are pending. -/
theorem hostResetFromAnyState : Obligations.HostResetFromAnyState := fun _ _ hm => step_hostMove hm nofun nofun

/-! ## The registers -/

theorem hostMove_writeReg (h : registerOffset off) (v : Word) (s : State) :
    hostMove (.writeReg off v) s = .next (writeReg off v s) := if_pos h

/-- Every offset but those of CTRL and IN_LEN ignores a write (70 R920 H10). -/
theorem writeReg_ignored (h0 : off ≠ 0x00) (h8 : off ≠ 0x08) (v : Word) (s : State) : writeReg off v s = s := by
  unfold writeReg
  split
  · exact absurd rfl h0
  · exact absurd rfl h8
  · rfl

/-- Settles O14: a write that is no START acts by its offset. -/
theorem registerWrites : Obligations.RegisterWrites := by
  intro s off v rest hm halign hlt
  have hwrite : (off = 0 → v.getLsbD 0 = false) → step s = .next (writeReg off v { s with hostMoves := rest }) :=
    fun h => by
      rw [step_hostMove hm nofun (by rintro _ ⟨⟩; exact h rfl), hostMove_writeReg ⟨halign, hlt⟩]
  refine ⟨?inLen, ?ctrl, fun h0 h8 => ?other⟩
  case inLen => rintro rfl; exact hwrite nofun
  case ctrl => rintro rfl hv; exact hwrite fun _ => hv
  case other => rw [hwrite fun h => absurd h h0, writeReg_ignored h0 h8]

/-! ## IN and OUT -/

theorem hostAccess_inside (hb : s.busy = false) (h : off < cap) : hostAccess off cap s t = .next t := by
  simp [hostAccess, hb, h]

theorem hostAccess_busy (hb : s.busy = true) : hostAccess off cap s t = .refused .hostAccessWhileBusy := by
  simp [hostAccess, hb]

theorem hostAccess_beyond (hb : s.busy = false) (h : cap ≤ off) :
    hostAccess off cap s t = .refused .memoryAccessOutsideInterface := by
  simp [hostAccess, hb, Nat.not_lt.2 h]

/-- Settles O15: each access is inside the interface, and a write is a write of the byte memory. -/
theorem hostMemoryMoves : Obligations.HostMemoryMoves := by
  intro s rest a b hb hin hout
  refine ⟨fun hm ha => ?writeIn, fun hm ha => ?writeOut, fun hm ha => ?readIn, fun hm ha => ?readOut⟩
  case writeIn =>
    refine ⟨s.inMem.write a b, ?_, s.inMem.read_write_same a b hin, fun a' ha' => s.inMem.read_write_other b ha'.symm⟩
    exact (step_hostMove hm nofun nofun).trans (hostAccess_inside hb ha)
  case writeOut =>
    refine ⟨s.outMem.write a b, ?_, s.outMem.read_write_same a b hout, fun a' ha' => s.outMem.read_write_other b ha'.symm⟩
    exact (step_hostMove hm nofun nofun).trans (hostAccess_inside hb ha)
  case readIn =>
    refine ⟨(s.inMem.read a).setWidth 32, ?_, BitVec.toNat_setWidth_of_le (by decide)⟩
    exact (step_hostMove hm nofun nofun).trans (hostAccess_inside hb ha)
  case readOut =>
    refine ⟨(s.outMem.read a).setWidth 32, ?_, BitVec.toNat_setWidth_of_le (by decide)⟩
    exact (step_hostMove hm nofun nofun).trans (hostAccess_inside hb ha)

/-- Settles O16: the interface has no step for an access while BUSY, beyond a capacity, or off the register map. -/
theorem hostAccessOutsideInterfaceStops : Obligations.HostAccessOutsideInterfaceStops := by
  intro s mv rest a b v hm
  refine ⟨fun hb hmv => ?busy, fun hb hmv => ?beyond, fun hmv ha => ?register⟩
  case busy =>
    rcases hmv with rfl | rfl | rfl | rfl <;> exact (step_hostMove hm nofun nofun).trans (hostAccess_busy hb)
  case beyond =>
    rcases hmv with ⟨rfl | rfl, ha⟩ | ⟨rfl | rfl, ha⟩ <;>
      exact (step_hostMove hm nofun nofun).trans (hostAccess_beyond hb ha)
  case register =>
    have hno : ¬registerOffset a := by
      rintro ⟨halign, hlt⟩
      exact ha.elim (· halign) (Nat.not_le.2 hlt)
    rcases hmv with rfl | rfl
    · refine (step_hostMove hm nofun ?_).trans (if_neg hno)
      rintro _ ⟨⟩
      exact absurd (by decide) hno
    · exact (step_hostMove hm nofun nofun).trans (if_neg hno)

end Sys2Proof.Machine
end

section
/-! SUPPORT. SOF0 with its checks passed (42 R440). -/

namespace Sys2Proof.Machine

open Sys2Proof.Claims

variable {s : State}

/-- A frame header that passes its checks has its length. -/
theorem segLen_of_sof0Checks (h : firstFailure (sof0Checks s) = none) : segLen s = 17 := by
  have hpass := List.find?_eq_none.1 h ⟨segLen s ≠ 17, 1, 2, none⟩ (by simp [sof0Checks])
  simpa using hpass

/-- A 16-bit field as its number. -/
theorem toNat_half (a b : Byte) : (BitVec.ofNat 16 (a.toNat * 256 + b.toNat)).toNat = a.toNat * 256 + b.toNat := by
  have ha := a.isLt
  have hb := b.isLt
  rw [BitVec.toNat_ofNat]
  omega

/-- What the statement commits is what SOF0 commits, the cursor being after the segment. -/
theorem commitFrame_frameCommitted (s : State) :
    commitFrame (frameCommitted s).fh (s.atPc (s.pc.toNat + 19)) = frameCommitted s := by
  have hx := toNat_half (at_ s 7) (at_ s 8)
  have hy := toNat_half (at_ s 5) (at_ s 6)
  simp only [frameCommitted, commitFrame, State.atPc, hx, hy, strideOf_eq, outLenOf, ceil16]

/-- Settles O27: the checks pass, the header is committed, and the capacity is checked. -/
theorem sof0CommitsFrame : Obligations.Sof0CommitsFrame := by
  intro s h hs hfit hpass t
  have hend : segEnd s = s.pc.toNat + 19 := by rw [segEnd, segLen_of_sof0Checks hpass]
  have hchecks := sofFields_checks hfit
  rw [Eff.Checks, hpass] at hchecks
  have hexec : exec .sof0 s =
      ((checkOutputCapacity (segAt 0xC0 s) t).bind fun _ u => closeSegment (segAt 0xC0 s) u).outcome := by
    change Eff.outcome _ = _
    rw [markerSegment_fits (orderError_sof0 h hs) hfit, hchecks, Eff.bind_ok, commitFrame_frameCommitted]
  rw [hexec, checkOutputCapacity, show t.params = s.params from rfl]
  refine ⟨fun hcap => ?_, fun hcap => ?_⟩
  · rw [raiseIf_false (Nat.not_lt.2 hcap), Eff.bind_ok, closeSegment, segAt, hend]
    rfl
  · rw [raiseIf_true hcap, Eff.bind_raised, Eff.raised_outcome]
    rfl

end Sys2Proof.Machine
end

section
/-! SUPPORT. The engine reads nothing of the host's side: an engine step after a change of the host's side is the change
after the step (70 R923, R927, R931). -/

namespace Sys2Proof.Machine

open Sys2Proof.Claims

/-! ## A change of the host's side -/

/-- New values, where there are any, of the registers that the host may write while BUSY, of the host's last answer and
of its pending moves. -/
structure HostEdit where
  inLen : Option Word
  ctrlBgr : Option Bool
  rdata : Option Word
  hostMoves : Option (List HostMove)

/-- The state with its host's side changed. -/
def State.edit (h : HostEdit) (s : State) : State :=
  { s with
    regs := { s.regs with inLen := h.inLen.getD s.regs.inLen, ctrlBgr := h.ctrlBgr.getD s.regs.ctrlBgr }
    rdata := h.rdata.getD s.rdata
    hostMoves := h.hostMoves.getD s.hostMoves }

/-- What `e` does, then the change. -/
def Eff.edit {α : Type} (h : HostEdit) : Eff α → Eff α
  | .ok a s => .ok a (s.edit h)
  | .raised s => .raised (s.edit h)
  | .stop r => .stop r

section edit
variable {α β : Type} {h : HostEdit}

theorem Eff.outcome_edit {e e' : Eff Unit} (he : e' = e.edit h) :
    e'.outcome = mapNext (State.edit h) e.outcome := by
  subst he
  cases e <;> rfl

/-- Two parts that ignore the host's side ignore it one after the other. -/
theorem Eff.bind_edit {e e' : Eff α} {f f' : α → State → Eff β} (he : e' = e.edit h)
    (hf : ∀ a s, f' a (s.edit h) = (f a s).edit h) : e'.bind f' = (e.bind f).edit h := by
  subst he
  cases e with
  | ok a s => exact hf a s
  | raised s => rfl
  | stop r => rfl

theorem Eff.ite_edit {c : Prop} [Decidable c] {e e' f f' : Eff α} (he : e' = e.edit h) (hf : f' = f.edit h) :
    (if c then e' else f') = (if c then e else f).edit h := by
  rw [he, hf, apply_ite (Eff.edit h)]

theorem Eff.dite_edit {c : Prop} [Decidable c] {e e' : c → Eff α} {f f' : ¬c → Eff α}
    (he : ∀ hc, e' hc = (e hc).edit h) (hf : ∀ hc, f' hc = (f hc).edit h) :
    (if hc : c then e' hc else f' hc) = (if hc : c then e hc else f hc).edit h := by
  by_cases hc : c
  · rw [dif_pos hc, dif_pos hc, he]
  · rw [dif_neg hc, dif_neg hc, hf]

theorem Eff.forEach_edit {ι : Type} {body : ι → State → Eff Unit}
    (hb : ∀ x s, body x (s.edit h) = (body x s).edit h) :
    ∀ (xs : List ι) (s : State), Eff.forEach body xs (s.edit h) = (Eff.forEach body xs s).edit h
  | [], _ => rfl
  | x :: xs, s => Eff.bind_edit (hb x s) fun _ s => Eff.forEach_edit hb xs s

end edit

variable {h : HostEdit}

theorem raiseIf_edit {c : Prop} [Decidable c] {k : ErrKind} {o : Nat} {m : Byte} {b : Option Byte} {s : State} :
    raiseIf c k o m b (s.edit h) = (raiseIf c k o m b s).edit h := Eff.ite_edit rfl rfl

theorem memRead_edit (a n : Nat) (s : State) : memRead a n (s.edit h) = (memRead a n s).edit h :=
  Eff.ite_edit rfl rfl

theorem memWrite_edit (a : Nat) (v : Byte) (s : State) : memWrite a v (s.edit h) = (memWrite a v s).edit h :=
  Eff.ite_edit rfl rfl

theorem scanAppend_edit (b : Byte) (s : State) : scanAppend b (s.edit h) = (scanAppend b s).edit h :=
  Eff.ite_edit rfl rfl

theorem scanRead_edit (i : Nat) (s : State) : scanRead i (s.edit h) = (scanRead i s).edit h :=
  Eff.ite_edit rfl rfl

/-! ## PARSE -/

theorem checkOrder_edit (m : Byte) (s : State) : checkOrder m (s.edit h) = (checkOrder m s).edit h := by
  have ho : orderError m (s.edit h) = orderError m s := rfl
  cases hk : orderError m s with
  | none => rw [checkOrder_ok hk, checkOrder_ok (ho.trans hk)]; rfl
  | some k => rw [checkOrder_bad hk, checkOrder_bad (ho.trans hk)]; rfl

section segment
variable (g : Seg)

theorem segHeader_edit (m : Byte) (s : State) : segHeader m (s.edit h) = (segHeader m s).edit h :=
  Eff.bind_edit raiseIf_edit fun _ s => Eff.bind_edit (memRead_edit _ _ s) fun _ _ =>
    Eff.bind_edit raiseIf_edit fun _ _ => Eff.bind_edit raiseIf_edit fun _ _ => rfl

theorem segField_edit (n : Nat) (s : State) : segField g n (s.edit h) = (segField g n s).edit h :=
  Eff.bind_edit raiseIf_edit fun _ s => Eff.bind_edit (memRead_edit _ _ s) fun _ _ => rfl

theorem segByte_edit (s : State) : segByte g (s.edit h) = (segByte g s).edit h :=
  Eff.bind_edit (segField_edit g 1 s) fun _ _ => rfl

theorem segHalf_edit (s : State) : segHalf g (s.edit h) = (segHalf g s).edit h :=
  Eff.bind_edit (segField_edit g 2 s) fun _ _ => rfl

theorem segBytes_edit : ∀ (n : Nat) (s : State), segBytes g n (s.edit h) = (segBytes g n s).edit h
  | 0, _ => rfl
  | n + 1, s => Eff.bind_edit (segByte_edit g s) fun _ s => Eff.bind_edit (segBytes_edit n s) fun _ _ => rfl

theorem segWhile_edit {body : State → Eff Unit} (hb : ∀ s, body (s.edit h) = (body s).edit h) :
    ∀ (fuel : Nat) (s : State), segWhile g body fuel (s.edit h) = (segWhile g body fuel s).edit h
  | 0, _ => rfl
  | fuel + 1, s => Eff.ite_edit (Eff.bind_edit (hb s) fun _ s => segWhile_edit hb fuel s) rfl

theorem dqtSpec_edit (s : State) : dqtSpec g (s.edit h) = (dqtSpec g s).edit h :=
  Eff.bind_edit (segByte_edit g s) fun _ _ => Eff.bind_edit raiseIf_edit fun _ _ => Eff.bind_edit raiseIf_edit fun _ s =>
    Eff.bind_edit (Eff.forEach_edit (fun _ s => Eff.bind_edit (segByte_edit g s) fun _ _ => rfl) _ s) fun _ _ => rfl

theorem dhtSpec_edit (s : State) : dhtSpec g (s.edit h) = (dhtSpec g s).edit h :=
  Eff.bind_edit (segByte_edit g s) fun _ _ => Eff.bind_edit raiseIf_edit fun _ _ => Eff.bind_edit raiseIf_edit fun _ s =>
    Eff.bind_edit (segBytes_edit g 16 s) fun _ s => Eff.bind_edit (segBytes_edit g _ s) fun _ s =>
      raiseIf_edit (s := { s with ht := s.ht.set _ _ _ })

theorem sofComponent_edit (i : Nat) (s : State) : sofComponent g i (s.edit h) = (sofComponent g i s).edit h :=
  Eff.bind_edit (segByte_edit g s) fun _ s => Eff.bind_edit (segByte_edit g s) fun _ _ =>
    Eff.bind_edit raiseIf_edit fun _ s => Eff.bind_edit (segByte_edit g s) fun _ _ =>
      Eff.bind_edit raiseIf_edit fun _ _ => rfl

theorem sofFields_edit (s : State) : sofFields g (s.edit h) = (sofFields g s).edit h := by
  refine Eff.bind_edit (segByte_edit g s) fun _ _ => Eff.bind_edit raiseIf_edit fun _ s => ?_
  refine Eff.bind_edit (segHalf_edit g s) fun _ _ => Eff.bind_edit raiseIf_edit fun _ s => ?_
  refine Eff.bind_edit (segHalf_edit g s) fun _ _ => Eff.bind_edit raiseIf_edit fun _ s => ?_
  refine Eff.bind_edit (segByte_edit g s) fun _ _ => Eff.bind_edit raiseIf_edit fun _ _ => ?_
  refine Eff.bind_edit raiseIf_edit fun _ s => Eff.bind_edit (sofComponent_edit g 0 s) fun _ s => ?_
  exact Eff.bind_edit (sofComponent_edit g 1 s) fun _ s => Eff.bind_edit (sofComponent_edit g 2 s) fun _ _ => rfl

theorem sosComponent_edit (i : Fin 3) (s : State) : sosComponent g i (s.edit h) = (sosComponent g i s).edit h :=
  Eff.bind_edit (segByte_edit g s) fun _ _ => Eff.bind_edit raiseIf_edit fun _ s =>
    Eff.bind_edit (segByte_edit g s) fun _ _ => Eff.bind_edit raiseIf_edit fun _ _ => rfl

theorem checkSlot_edit (i : Fin 3) (s : State) : checkSlot g i (s.edit h) = (checkSlot g i s).edit h := raiseIf_edit

theorem sosFields_edit (s : State) : sosFields g (s.edit h) = (sosFields g s).edit h := by
  refine Eff.bind_edit (segByte_edit g s) fun _ _ => Eff.bind_edit raiseIf_edit fun _ _ => ?_
  refine Eff.bind_edit raiseIf_edit fun _ s => Eff.bind_edit (sosComponent_edit g 0 s) fun _ s => ?_
  refine Eff.bind_edit (sosComponent_edit g 1 s) fun _ s => Eff.bind_edit (sosComponent_edit g 2 s) fun _ s => ?_
  refine Eff.bind_edit (segByte_edit g s) fun _ _ => Eff.bind_edit raiseIf_edit fun _ s => ?_
  refine Eff.bind_edit (segByte_edit g s) fun _ _ => Eff.bind_edit raiseIf_edit fun _ s => ?_
  exact Eff.bind_edit (segByte_edit g s) fun _ s =>
    Eff.bind_edit (Eff.forEach_edit (checkSlot_edit g) _ s) fun _ _ => rfl

end segment

theorem stuffedPair_edit (s : State) : stuffedPair (s.edit h) = (stuffedPair s).edit h :=
  Eff.bind_edit (scanAppend_edit _ s) fun _ _ => rfl

theorem extractLoop_edit : ∀ (fuel : Nat) (s : State), extractLoop fuel (s.edit h) = (extractLoop fuel s).edit h
  | 0, _ => rfl
  | fuel + 1, s =>
    Eff.ite_edit rfl <| Eff.bind_edit (memRead_edit _ _ s) fun _ s => Eff.ite_edit
      (Eff.bind_edit (scanAppend_edit _ s) fun _ s => extractLoop_edit fuel { s with pc := s.pc + 1 })
      (Eff.bind_edit raiseIf_edit fun _ s => Eff.bind_edit (memRead_edit _ _ s) fun _ s =>
        Eff.ite_edit (Eff.bind_edit (stuffedPair_edit s) fun _ s => extractLoop_edit fuel s) rfl)

theorem extract_edit (s : State) : extract (s.edit h) = (extract s).edit h :=
  Eff.bind_edit (extractLoop_edit _ s) fun _ s => Eff.bind_edit (scanAppend_edit 0 s) fun _ s => scanAppend_edit 0 s

/-! ## DECODE -/

theorem refill_edit (n : Nat) : ∀ (fuel : Nat) (s : State), refill n fuel (s.edit h) = (refill n fuel s).edit h
  | 0, _ => rfl
  | fuel + 1, s =>
    Eff.ite_edit (Eff.ite_edit rfl (Eff.bind_edit (scanRead_edit _ s) fun b s => refill_edit n fuel
      { s with br := ⟨BitVec.ofNat 32 (s.br.acc.toNat * 256 + b.toNat), s.br.cnt + 8, s.br.pos + 1⟩ })) rfl

theorem peek_edit (n : Nat) (s : State) : peek n (s.edit h) = (peek n s).edit h :=
  Eff.bind_edit (refill_edit n n s) fun _ _ => rfl

theorem readBits_edit (n : Nat) (s : State) : readBits n (s.edit h) = (readBits n s).edit h :=
  Eff.bind_edit (peek_edit n s) fun _ _ => rfl

theorem skip_edit (n : Nat) (s : State) : skip n (s.edit h) = (skip n s).edit h :=
  Eff.bind_edit (readBits_edit n s) fun _ _ => rfl

theorem readExtended_edit (n : Nat) (s : State) : readExtended n (s.edit h) = (readExtended n s).edit h :=
  Eff.ite_edit rfl (Eff.bind_edit (readBits_edit n s) fun _ _ => rfl)

theorem decodeSymbol_edit (s : State) : decodeSymbol (s.edit h) = (decodeSymbol s).edit h :=
  Eff.bind_edit (peek_edit 16 s) fun _ s => Eff.ite_edit rfl (Eff.bind_edit (skip_edit _ s) fun _ _ => rfl)

theorem dequantize_edit (b : Fin 6) (s : State) : dequantize b (s.edit h) = (dequantize b s).edit h :=
  Eff.dite_edit (fun _ => rfl) fun _ => rfl

theorem writeBytes_edit : ∀ (bs : List Byte) (a : Nat) (s : State),
    writeBytes a bs (s.edit h) = (writeBytes a bs s).edit h
  | [], _, _ => rfl
  | b :: bs, a, s => Eff.bind_edit (memWrite_edit a b s) fun _ s => writeBytes_edit bs (a + 1) s

theorem writePixel_edit (mx my : Nat) (x y : Fin 16) (s : State) :
    writePixel mx my x y (s.edit h) = (writePixel mx my x y s).edit h := writeBytes_edit _ _ s

theorem renderMacroblock_edit (s : State) : renderMacroblock (s.edit h) = (renderMacroblock s).edit h :=
  Eff.bind_edit (Eff.forEach_edit dequantize_edit blocks s) fun _ s =>
    Eff.bind_edit (Eff.forEach_edit (fun _ _ => rfl) blocks s) fun _ s =>
      Eff.forEach_edit (fun p s => writePixel_edit _ _ p.1 p.2 s) macroblockPixels s

theorem nextMacroblock_edit (s : State) : nextMacroblock (s.edit h) = (nextMacroblock s).edit h := by
  unfold nextMacroblock
  rw [apply_ite (State.edit h), apply_ite (State.edit h)]
  rfl

theorem afterBlock_edit (s : State) : afterBlock (s.edit h) = (afterBlock s).edit h :=
  Eff.dite_edit (fun _ => rfl) fun _ =>
    Eff.bind_edit (renderMacroblock_edit s) fun _ s => congrArg (Eff.ok ()) (nextMacroblock_edit s)

/-! ## The instructions -/

/-- A marker with a segment. -/
theorem markerSegment_edit {m : Byte} {f : Seg → State → Eff Unit} (hf : ∀ g s, f g (s.edit h) = (f g s).edit h)
    (s : State) : ((checkOrder m (s.edit h)).bind fun _ s => (segHeader m s).bind f) =
      ((checkOrder m s).bind fun _ s => (segHeader m s).bind f).edit h :=
  Eff.bind_edit (checkOrder_edit m s) fun _ s => Eff.bind_edit (segHeader_edit m s) hf

theorem skipSegment_edit (m : Byte) (s : State) : skipSegment m (s.edit h) = (skipSegment m s).edit h :=
  markerSegment_edit (fun _ _ => rfl) s

theorem rejectMarker_edit (k : ErrKind) (m : Byte) (s : State) :
    rejectMarker k m (s.edit h) = (rejectMarker k m s).edit h :=
  Eff.bind_edit (checkOrder_edit m s) fun _ _ => rfl

/-- Every instruction but HOST_START ignores the host's side. -/
theorem exec_edit {i : Instr} (hi : ∀ v, i ≠ .hostStart v) (s : State) :
    exec i (s.edit h) = mapNext (State.edit h) (exec i s) := by
  cases i with
  | soi => exact Eff.outcome_edit (Eff.bind_edit (checkOrder_edit _ s) fun _ _ => rfl)
  | appn | com => exact Eff.outcome_edit (skipSegment_edit _ s)
  | dqt => exact Eff.outcome_edit (markerSegment_edit (fun g s => segWhile_edit g (dqtSpec_edit g) g.len s) s)
  | dht => exact Eff.outcome_edit (markerSegment_edit (fun g s => segWhile_edit g (dhtSpec_edit g) g.len s) s)
  | sof0 =>
    refine Eff.outcome_edit (markerSegment_edit (fun g s => Eff.bind_edit (sofFields_edit g s) fun fh s => ?_) s)
    exact Eff.bind_edit (raiseIf_edit (s := commitFrame fh s)) fun _ _ => rfl
  | sos =>
    refine Eff.outcome_edit (markerSegment_edit (fun g s => Eff.bind_edit (sosFields_edit g s) fun sh s => ?_) s)
    exact Eff.bind_edit (e := closeSegment g { s with sh := sh }) rfl fun _ s =>
      Eff.bind_edit (extract_edit s) fun _ _ => rfl
  | eoi => exact Eff.outcome_edit (Eff.bind_edit (checkOrder_edit _ s) fun _ _ => rfl)
  | unsupSof1to3 | unsupSof5to7 | unsupSof9to11 | unsupSof13to15 | unsupDac | unsupRst | unsupDnl | unsupDri | unsupDhp
  | unsupExp | unsupTem | unknown00 | unknownRes | unknownJpg | unknownJpgn | unknownFill =>
    exact Eff.outcome_edit (rejectMarker_edit _ _ s)
  | scanStuff => exact Eff.outcome_edit (stuffedPair_edit s)
  | dcZero | eob | dcInvalid | acBadzero | acBadsize => rfl
  | dcDiff n => exact Eff.outcome_edit (Eff.bind_edit (readExtended_edit _ s) fun _ _ => rfl)
  | zrl => exact Eff.outcome_edit (Eff.ite_edit rfl rfl)
  | acCoef r n =>
    exact Eff.outcome_edit
      (Eff.dite_edit (fun _ => Eff.bind_edit (readExtended_edit _ s) fun _ _ => rfl) fun _ => rfl)
  | hostStart v => exact absurd rfl (hi v)

/-! ## The step -/

theorem marker_ne_hostWrite {w : Half} (off : Nat) (v : Word) : Code.marker w ≠ .hostWrite off v := nofun

theorem symbolCode_ne_hostWrite (b : Byte) (s : State) (off : Nat) (v : Word) :
    s.symbolCode b ≠ .hostWrite off v := by
  unfold State.symbolCode
  split
  · exact nofun
  · exact nofun

/-- What a marker or a symbol decodes to is no START, so that it ignores the host's side. -/
theorem decoded_edit {c : Code} (hc : ∀ off v, c ≠ .hostWrite off v) (s : State) :
    (Turn.ofFetch (decoded c (s.edit h))).outcome = mapNext (State.edit h) (Turn.ofFetch (decoded c s)).outcome := by
  unfold decoded
  cases hd : decode c with
  | error => rfl
  | ok i =>
    refine exec_edit (fun v => ?_) s
    rintro rfl
    exact hc _ _ (decodedInstrEncodesBack c _ hd).2.symm

/-- A fetch in two parts, and the instruction that it finds. -/
theorem fetch_edit {α : Type} {e e' : Eff α} {f f' : α → State → Eff Instr} (he : e' = e.edit h)
    (hf : ∀ a s, (Turn.ofFetch (f' a (s.edit h))).outcome = mapNext (State.edit h) (Turn.ofFetch (f a s)).outcome) :
    (Turn.ofFetch (e'.bind f')).outcome = mapNext (State.edit h) (Turn.ofFetch (e.bind f)).outcome := by
  subst he
  cases e with
  | ok a s => exact hf a s
  | raised s => rfl
  | stop r => rfl

theorem fetchMarker_edit (s : State) : (Turn.ofFetch (fetchMarker (s.edit h))).outcome =
    mapNext (State.edit h) (Turn.ofFetch (fetchMarker s)).outcome :=
  fetch_edit (memRead_edit _ _ s) fun _ _ => fetch_edit raiseIf_edit fun _ _ => fetch_edit raiseIf_edit fun _ s =>
    fetch_edit (memRead_edit _ _ s) fun _ s => decoded_edit marker_ne_hostWrite s

theorem fetchSymbol_edit (s : State) : (Turn.ofFetch (fetchSymbol (s.edit h))).outcome =
    mapNext (State.edit h) (Turn.ofFetch (fetchSymbol s)).outcome :=
  fetch_edit (decodeSymbol_edit s) fun b s => decoded_edit (symbolCode_ne_hostWrite b s) s

theorem parseTurn_edit (s : State) :
    (parseTurn (s.edit h)).outcome = mapNext (State.edit h) (parseTurn s).outcome := by
  by_cases hp : s.inLenL.toNat ≤ s.pc.toNat
  · rw [parseTurn_end hp, parseTurn_end (s := s.edit h) hp]
    exact Eff.outcome_edit (Eff.ite_edit rfl rfl)
  · have hl := Nat.lt_of_not_le hp
    rw [parseTurn_marker hl, parseTurn_marker (s := s.edit h) hl, fetchMarker_edit]

theorem itemStep_edit (s : State) : itemStep (s.edit h) = mapNext (State.edit h) (itemStep s) := by
  unfold itemStep
  by_cases hk : s.item.k < 64
  · rw [itemTurn_symbol hk, itemTurn_symbol (s := s.edit h) hk, fetchSymbol_edit]
  · have hk := Nat.le_of_not_lt hk
    rw [itemTurn_block hk, itemTurn_block (s := s.edit h) hk]
    exact Eff.outcome_edit (afterBlock_edit s)

theorem itemsToBoundary_edit : ∀ (n : Nat) (s : State),
    itemsToBoundary n (s.edit h) = mapNext (State.edit h) (itemsToBoundary n s)
  | 0, _ => rfl
  | n + 1, s => by
    rw [itemsToBoundary_succ, itemsToBoundary_succ, itemStep_edit]
    cases itemStep s with
    | next t =>
      change (if t.atBoundary = true then Host.Outcome.next (t.edit h) else itemsToBoundary n (t.edit h)) =
        mapNext _ (if t.atBoundary = true then _ else _)
      rw [itemsToBoundary_edit n t, apply_ite (mapNext (State.edit h))]
      rfl
    | fault r => rfl
    | refused r => rfl

/-- The engine's step ignores the host's side. -/
theorem engineStep_edit (s : State) : engineStep (s.edit h) = mapNext (State.edit h) (engineStep s) := by
  cases hp : s.phase with
  | parse => rw [engineStep_parse hp, engineStep_parse (s := s.edit h) hp, parseTurn_edit]
  | decode => rw [engineStep_decode hp, engineStep_decode (s := s.edit h) hp, itemsToBoundary_edit]
  | idle | done | error =>
    have hb : s.busy = false := by simp [State.busy, hp]
    rw [engineStep_rest hb, engineStep_rest (s := s.edit h) hb]
    rfl

/-! ## The statement (70 R923, R927, R931) -/

/-- Other pending moves. -/
def HostEdit.moves (rest : List HostMove) : HostEdit := ⟨none, none, none, some rest⟩

/-- Other values in what the host may write while BUSY, and another answer. -/
def HostEdit.side (n : Word) (bgr : Bool) (r : Word) : HostEdit := ⟨some n, some bgr, some r, none⟩

variable {s : State} {mv : HostMove} {rest : List HostMove}

/-- A yield while BUSY is the engine's step with no move pending, the later moves pending after it. -/
theorem step_yield (hm : s.hostMoves = .engine :: rest) (hb : s.busy = true) :
    step s = mapNext (fun t => { t with hostMoves := rest }) (step { s with hostMoves := [] }) := by
  rw [step_host hm, hostStep_yield (s := { s with hostMoves := rest }) hb,
    step_engine (s := { s with hostMoves := [] }) rfl]
  exact engineStep_edit (h := .moves rest) { s with hostMoves := [] }

/-- A register write that is no START touches the host's side alone. -/
theorem writeReg_eq_hostSide (off : Nat) (v : Word) (s : State) : ∃ n bgr r, writeReg off v s = hostSide n bgr r s := by
  unfold writeReg
  split
  · exact ⟨s.regs.inLen, v.getLsbD 1, s.rdata, rfl⟩
  · exact ⟨v, s.regs.ctrlBgr, s.rdata, rfl⟩
  · exact ⟨s.regs.inLen, s.regs.ctrlBgr, s.rdata, rfl⟩

/-- So does, while BUSY, every register access of the interface, a START among them (48 R751). -/
theorem step_registerMove {off : Nat} {v : Word} (hb : s.busy = true) (hm : s.hostMoves = mv :: rest)
    (hmv : mv = .writeReg off v ∨ mv = .readReg off) (ho : registerOffset off) :
    ∃ n bgr r, step s = .next (hostSide n bgr r { s with hostMoves := rest }) := by
  rcases hmv with rfl | rfl
  · by_cases hstart : off = 0 ∧ v.getLsbD 0 = true
    · obtain ⟨rfl, hv⟩ := hstart
      rw [stepRunsHostStart s v rest hm hv, startWhileBusyOnlyStoresBgr { s with hostMoves := rest } v hb]
      exact ⟨s.regs.inLen, v.getLsbD 1, s.rdata, rfl⟩
    · have hno : ∀ w, HostMove.writeReg off v = .writeReg 0 w → w.getLsbD 0 = false := by
        rintro _ ⟨⟩
        exact Bool.eq_false_iff.2 fun hv => hstart ⟨rfl, hv⟩
      obtain ⟨n, bgr, r, he⟩ := writeReg_eq_hostSide off v { s with hostMoves := rest }
      exact ⟨n, bgr, r, by rw [step_hostMove hm nofun hno, hostMove_writeReg ho, he]⟩
  · refine ⟨s.regs.inLen, s.regs.ctrlBgr, s.readReg off, ?_⟩
    exact (step_hostMove hm nofun nofun).trans (if_pos ho)

/-- Settles O58: an engine step commutes with a change of the pending moves and of the host's registers, and a register
move is such a change. -/
theorem hostMovesDoNotDisturbDecode : Obligations.HostMovesDoNotDisturbDecode := by
  refine fun s => ⟨fun rest hm => ⟨step_yield hm, fun hb => ?passes⟩, fun hb => ⟨?registers, fun hm n bgr r => ?side⟩⟩
  case passes => rw [step_host hm, hostStep_yield_rest (s := { s with hostMoves := rest }) hb]
  case registers => exact fun mv rest off v hm hmv halign hlt => step_registerMove hb hm hmv ⟨halign, hlt⟩
  case side =>
    rw [step_engine hm, step_engine (s := hostSide n bgr r s) hm]
    exact engineStep_edit (h := .side n bgr r) s

end Sys2Proof.Machine
end

section
/-! SUPPORT. No step attempts an access that the block may not make (70 R924). -/

namespace Sys2Proof.Machine

open Sys2Proof.Claims

variable {s : State}

theorem noFault_mapNext {o : Host.Outcome State Fault Refusal} (f : State → State) (h : noFault o) :
    noFault (mapNext f o) := by
  cases o with
  | next t => exact h
  | fault r => exact h
  | refused r => exact h

theorem hostAccess_noFault (off cap : Nat) (s t : State) : noFault (hostAccess off cap s t) := by
  unfold hostAccess
  split
  · trivial
  · split <;> trivial

/-- A move of the host is a step or refused. -/
theorem hostMove_noFault (mv : HostMove) (s : State) : noFault (hostMove mv s) := by
  cases mv with
  | engine | reset => trivial
  | writeReg off v =>
    change noFault (if registerOffset off then _ else _)
    split <;> trivial
  | readReg off =>
    change noFault (if registerOffset off then _ else _)
    split <;> trivial
  | writeIn | readIn | writeOut | readOut => exact hostAccess_noFault _ _ _ _

theorem hostStart_noFault (v : Word) (s : State) : noFault (exec (.hostStart v) s) := by
  rw [exec_hostStart_eq]
  split
  · rw [start_eq]
    split <;> trivial
  · trivial

theorem hostTurn_noFault (mv : HostMove) (s : State) : noFault (hostTurn mv s).outcome := by
  by_cases hstart : ∃ v, mv = .writeReg 0 v ∧ v.getLsbD 0 = true
  · obtain ⟨v, rfl, hv⟩ := hstart
    rw [hostTurn_writeReg, if_pos ⟨rfl, hv⟩]
    exact hostStart_noFault v s
  · rw [hostTurn_outcome fun v hmv => Bool.eq_false_iff.2 fun hv => hstart ⟨v, hmv, hv⟩]
    exact hostMove_noFault mv s

/-- In PARSE and DECODE the engine has a step (48 R709). -/
theorem step_engine_next (hs : s.Inv) (hm : s.hostMoves = []) (hp : s.phase = .parse ∨ s.phase = .decode) :
    ∃ t, step s = .next t := by
  rcases hp with hp | hp
  · exact (step_parse hs.toItemInv hm hp).imp fun _ h => h.1
  · exact (step_macroblock hs hm hp).imp fun _ h => h.1

theorem step_engine_refused (hm : s.hostMoves = []) (hb : s.busy = false) : step s = .refused .noStepEnabled := by
  rw [step_engine hm, engineStep_rest hb]

theorem step_engine_noFault (hs : s.Inv) (hm : s.hostMoves = []) : noFault (step s) := by
  cases hb : s.busy with
  | true =>
    obtain ⟨t, ht⟩ := step_engine_next hs hm (s.busy_iff.1 hb)
    rw [ht]
    trivial
  | false =>
    rw [step_engine_refused hm hb]
    trivial

/-- Settles O53: the engine's step, a yield's among them, is a next state or refused, and a host's move never faults. -/
theorem invariantExcludesFaults : Obligations.InvariantExcludesFaults := by
  refine fun s hs => ⟨?noFault, fun hm => ⟨step_engine_next hs hm, fun hp => step_engine_refused hm ?rest⟩⟩
  case rest => rcases hp with hp | hp | hp <;> simp [State.busy, hp]
  case noFault =>
    cases hm : s.hostMoves with
    | nil => exact step_engine_noFault hs hm
    | cons mv rest =>
      by_cases hy : mv = .engine ∧ s.busy = true
      · obtain ⟨rfl, hb⟩ := hy
        rw [step_yield hm hb]
        exact noFault_mapNext _ (step_engine_noFault (hs.withMoves []) rfl)
      · have hmove : step s = (hostTurn mv { s with hostMoves := rest }).outcome := (step_host hm).trans (if_neg hy)
        rw [hmove]
        exact hostTurn_noFault mv _

end Sys2Proof.Machine
end
